-- ==== Sys2Proof/Word.lean ====
section
/-! DEFINITION. The word types of the block, each of the width the spec gives (00_scope.md R7, R9, R11). The widths of
R7 are configuration fields, `Widths.document`, and every type takes its width from there (log entry 27); the widths
that are parameters of R9 are fields of `Config`. -/

namespace Sys2Proof

/-- The widths among the values of 00_scope.md R7, each a field, so that an audit can change it in one place (R8):
`Widths.document`. They are the widths of the types State is made of, so they stand beside State's configuration
`Config` and not inside it (log entry 27). -/
structure Widths where
  /-- `AW`: bits of a display register address. -/
  aw : Nat
  /-- `DW`: bits of the data byte of a register write, and of a segment pattern. -/
  dw : Nat
  /-- `FRAME_BYTES`: bytes in one framed transfer. -/
  frameBytes : Nat
  /-- `RAW_W`: bits of a raw sensor reading, unsigned. -/
  rawW : Nat
  deriving DecidableEq, Repr

/-- The document's widths (00_scope.md R7): "a model uses exactly these values" (R8). -/
abbrev Widths.document : Widths where
  aw := 4
  dw := 8
  frameBytes := 2
  rawW := 16

/-- `AW` (00_scope.md R7). -/
abbrev AW : Nat := Widths.document.aw
/-- `DW` (00_scope.md R7). -/
abbrev DW : Nat := Widths.document.dw
/-- `FRAME_BYTES` (00_scope.md R7). -/
abbrev FRAME_BYTES : Nat := Widths.document.frameBytes
/-- `RAW_W` (00_scope.md R7). -/
abbrev RAW_W : Nat := Widths.document.rawW

/-- A byte of the command port, of the serial link or of the bus: an opcode, a character of a packet, a bus byte
(00_scope.md R11, 20_memory.md R60). -/
abbrev Byte := BitVec 8

/-- The data byte of a register write, a display register's content, a segment pattern: `DW` bits (00_scope.md R7). -/
abbrev Data := BitVec DW

/-- A character code, by its ordinal value (30_encoding.md R84). The block looks codes up, compares them and reports
them, and computes nothing with them. Their width is the parameter `CHARW` (00_scope.md R9, 92_eei_decisions.md D3):
a code is a number below `2 ^ cfg.charW` (`Config.IsCode`; log entry 9). -/
abbrev Code := Nat

/-- A display register address, `AW` bits (00_scope.md R7). -/
abbrev RegAddr := BitVec AW

/-- The display controller's registers, one for each address (00_scope.md R7, 10_state.md R21, 20_memory.md R51). -/
abbrev Registers := Vector Data (2 ^ AW)

/-- The bytes of one framed transfer, `FRAME_BYTES` of them, the first sent first: never one and never three
(20_memory.md R60). -/
abbrev FrameWord := Vector Byte FRAME_BYTES

/-- The slot operand of `RCHAR`, 3 bits: slot 0 (leftmost) to 7 (10_state.md R31, 30_encoding.md R81). Inside the
block a slot is a number below `NSLOT`, which the loops over the slots count to (10_state.md R21, R26). -/
abbrev Slot := BitVec 3

/-- A transport handle, a signed integer (10_state.md R29, 92_eei_decisions.md D16). Its width is the parameter
`HANDLEW` (00_scope.md R9), which the answers of the transports are read in (`Machine.busHandle`, log entry 9). -/
abbrev Handle := Int

/-- A raw sensor reading, `RAW_W` bits, unsigned (00_scope.md R7, 41_sensor_engine.md R156). -/
abbrev Raw := BitVec RAW_W

/-- A binary64 pattern (00_scope.md R7 "result format", 30_encoding.md R89). -/
abbrev Binary64 := BitVec 64

end Sys2Proof
end

