-- ==== Sys2Proof/Config.lean ====
section
/-! DEFINITION. The configuration: the document's numeric literals (00_scope.md R7, R8), the parameters it leaves open
(R9), and the free values of 10_state.md R40 (constants with no body). The configuration is a record of plain data,
held in State, so that every claim over all states is a claim over all parameters. -/

namespace Sys2Proof

/-- A digital pin's level (20_memory.md R52). -/
inductive Level where
  | low | high
  deriving DecidableEq, Repr, Inhabited

/-- The other level. -/
def Level.flip : Level → Level
  | .low => .high
  | .high => .low

/-- The direction argument of `configurePin` (20_memory.md R52, 42_host_sequence.md R180). -/
inductive PinDir where
  | input | output
  deriving DecidableEq, Repr

/-- The pins the host and the block use (42_host_sequence.md R180, 60_exceptions.md R222). -/
inductive HostPin where
  | cs
  | buzz
  | led (i : Nat)
  | key (i : Nat)
  deriving DecidableEq, Repr

/-- How the host's formatter rounds a value that lies exactly between two decimals. The spec does not say
(42_host_sequence.md R186: "the rounding rule of the formatter is not in the document"; log entry 12). -/
inductive TieRule where
  | toEven | awayFromZero | towardZero
  deriving DecidableEq, Repr

/-- The numeric literals of the document (00_scope.md R7), each a field, so that an audit can change it in one place
(R8): `Literals.document`. Durations are in milliseconds. The literals that are widths are `Widths` (log entry 27). -/
structure Literals where
  /-- `NSLOT`: the number of digit slots. -/
  nSlot : Nat
  /-- `DIGIT_BASE`: the digit register of slot 0. -/
  digitBase : Nat
  /-- `N_LED`: the number of indicator LEDs. -/
  nLed : Nat
  /-- `N_KEY`: the number of keys. -/
  nKey : Nat
  tSettle : Nat
  tRefresh : Nat
  tBuzz : Nat
  tDebounce : Nat
  kTMul : Binary64
  kTOff : Binary64
  kRhMul : Binary64
  kRhOff : Binary64
  kDiv : Binary64
  exitOk : Nat
  exitSerial : Nat
  exitBus : Nat
  deriving DecidableEq, Repr

/-- The document's values (00_scope.md R7). 175.72 and 46.85 are the binary64 numbers nearest to them
(41_sensor_engine.md R158, K1 and K2); 125.0, 6.0 and 65536.0 are exact (R159). -/
def Literals.document : Literals where
  nSlot := 8
  digitBase := 1
  nLed := 4
  nKey := 5
  tSettle := 100
  tRefresh := 1000
  tBuzz := 100
  tDebounce := 10
  kTMul := 0x4065F70A3D70A3D7#64
  kTOff := 0x40476CCCCCCCCCCD#64
  kRhMul := 0x405F400000000000#64
  kRhOff := 0x4018000000000000#64
  kDiv := 0x40F0000000000000#64
  exitOk := 0
  exitSerial := 1
  exitBus := 2

/-- The literals of the document (00_scope.md R7, R8), the parameters it leaves open (R9), and the three the model adds
for what the spec leaves unordered or unrounded (log entries 10, 11, 12). `Config.Wf` holds their constraints. -/
structure Config where
  /-- The literals of R7. -/
  lit : Literals
  /-- `CHARW`, the width of a character code. -/
  charW : Nat
  /-- `HANDLEW`, the width of a signed handle. -/
  handleW : Nat
  /-- `MAXLEN`, the longest text of one `RSTR` packet. -/
  maxLen : Nat
  /-- `FONT` (10_state.md R23): the supported characters, each with its pattern. -/
  font : List (Code × Data)
  /-- `DP_BIT`, the mask of the reserved decimal-point bit. -/
  dpBit : Data
  period : Code
  space : Code
  regDecode : RegAddr
  valDecodeOff : Data
  regScan : RegAddr
  valScanAll8 : Data
  regIntensity : RegAddr
  valIntensityMedium : Data
  regMode : RegAddr
  valModeNormal : Data
  regTest : RegAddr
  valTestOff : Data
  csPin : Nat
  csActive : Level
  /-- The three arguments of `openSerialChannel`, passed through (92_eei_decisions.md D14). -/
  serChannel : Nat
  serClockHz : Nat
  serMode : Nat
  sensorAddr : Byte
  cmdTrigT : Byte
  cmdTrigRh : Byte
  /-- The function `conv_T`, as plain data: its value at each raw value listed; at any other it is the binary64
  evaluation of 41_sensor_engine.md R158, the default (log entry 28). -/
  convTAt : List (Raw × Binary64)
  /-- The function `conv_RH`, in the same form; the default is the evaluation of R159. -/
  convRhAt : List (Raw × Binary64)
  /-- The function `HOST_FMT`, in the same form: the text of each pair of readings listed; of any other it is the
  layout of 42_host_sequence.md R186 with `pRh` and `fmtTie` (log entries 12 and 28). -/
  hostFmtAt : List ((Binary64 × Binary64) × List Code)
  /-- `P_RH`, the host's digits after the point for the humidity (42_host_sequence.md R186). -/
  pRh : Nat
  buzzPin : Nat
  /-- `LED_PIN`, one pin for each LED. -/
  ledPin : List Nat
  /-- `KEY_PIN`, one pin for each key. -/
  keyPin : List Nat
  termKey : Nat
  keyPressedLevel : Level
  ledReadyLevel : Level
  /-- The `configurePin` calls of `PINSETUP`, in their order (log entry 10). -/
  pinCalls : List HostPin
  /-- The order of the `LEDREADY` writes (log entry 11). -/
  ledOrder : List Nat
  /-- The formatter's rounding of a tie (log entry 12). -/
  fmtTie : TieRule
  deriving DecidableEq, Repr

namespace Config

/-- The lookup in `FONT`: absent, or the pattern (10_state.md R23, 20_memory.md R54). The table is a list of
pairs, so "exactly one pattern per supported character" is a condition of `Config.Wf`. -/
def glyph (cfg : Config) (c : Code) : Option Data := cfg.font.lookup c

/-! The free values (10_state.md R40, log entry 7). None has a body: a claim holds whatever they are. -/

/-- The byte `readByte(handle)` answers at the n-th draw (20_memory.md R55). -/
opaque freeByte : Handle → Nat → Byte

/-- The handle `openBusSession(addr)` answers at the n-th draw, before it is read in `HANDLEW` bits
(41_sensor_engine.md R151). -/
opaque freeBusHandle : Byte → Nat → Int

/-- What `openSerialChannel(channelId, clockHz, mode)` answers at the n-th draw: an error, or a handle, which
is never negative (42_host_sequence.md R182, 10_state.md R29; log entry 8). -/
opaque freeSerial : Nat → Nat → Nat → Nat → Option Nat

/-- The level `readPin(pin)` answers at the n-th draw (20_memory.md R56). -/
opaque freeLevel : Nat → Nat → Level

/-- The text the host displays at the n-th draw when it has no readings, which no run of the host reaches
(42_host_sequence.md R189; log entry 6). -/
opaque freeHostText : Nat → List Byte

/-- The text a formatter makes of a pattern that is no finite number, a byte for each character. No measurement gives
one (30_encoding.md R89; log entry 12). -/
opaque freeText : Binary64 → List Byte

/-- The reference font `FONT_REF` (95_test_vectors.md section 1). -/
def fontRef : List (Code × Data) :=
  [(0x20, 0x00#DW), (0x2D, 0x01#DW), (0x30, 0x7E#DW), (0x31, 0x30#DW), (0x32, 0x6D#DW), (0x33, 0x79#DW), (0x34, 0x33#DW),
    (0x35, 0x5B#DW)] ++
  [(0x36, 0x5F#DW), (0x37, 0x70#DW), (0x38, 0x7F#DW), (0x39, 0x7B#DW), (0x45, 0x4F#DW), (0x48, 0x37#DW), (0x4C, 0x0E#DW),
    (0x50, 0x67#DW)]

/-- The document's literals and the parameters' default values (00_scope.md R9, column "default"). DESIGN CHOICE: the
spec calls no default a fact of the repository, and for the host's pins and levels, the serial arguments, `P_RH` and
the model's own three it gives none (log entries 2, 3, 10, 11, 12; unsafe for a claim that rests on them). -/
def reference : Config where
  lit := Literals.document
  charW := 8
  handleW := 32
  maxLen := 255
  font := fontRef
  dpBit := 0x80#DW
  period := 0x2E
  space := 0x20
  regDecode := 0x9#AW
  valDecodeOff := 0x00#DW
  regScan := 0xB#AW
  valScanAll8 := 0x07#DW
  regIntensity := 0xA#AW
  valIntensityMedium := 0x07#DW
  regMode := 0xC#AW
  valModeNormal := 0x01#DW
  regTest := 0xF#AW
  valTestOff := 0x00#DW
  csPin := 0
  csActive := .low
  serChannel := 0
  serClockHz := 0
  serMode := 0
  sensorAddr := 0x40#8
  cmdTrigT := 0xF3#8
  cmdTrigRh := 0xF5#8
  convTAt := []
  convRhAt := []
  hostFmtAt := []
  pRh := 10
  buzzPin := 1
  ledPin := [2, 3, 4, 5]
  keyPin := [6, 7, 8, 9, 10]
  termKey := 0
  keyPressedLevel := .low
  ledReadyLevel := .high
  pinCalls := [.cs, .buzz, .led 0, .led 1, .led 2, .led 3, .key 0, .key 1, .key 2, .key 3, .key 4]
  ledOrder := [0, 1, 2, 3]
  fmtTie := .toEven

end Config

end Sys2Proof
end

