-- ==== Sys2Proof/Syntax.lean ====
section
/-! DEFINITION. The operations of the block and the words of its wires: one constructor for each row of
spec/opcode_table.json (30_encoding.md R80, R86, R87). -/

namespace Sys2Proof

/-- The four places a word can stand: the block's command port (30_encoding.md R81), the display link
(R86), and the two directions of the sensor's bus (R87). The same byte means different things on different
links, so a decoder is told which one it reads. -/
inductive Link where
  | command | display | busWrite | busRead
  deriving DecidableEq, Repr

/-- One constructor per row of spec/opcode_table.json. The first eight are the operations a host hands to the
block (30_encoding.md R80, R82); the last four are the words on the wires (R86, R87), which a step can also
run by themselves (log entry 13). Operand widths are those of R80 and R31, so that an address above 0x0F or
a slot above 7 cannot be written down (92_eei_decisions.md D4, D5). -/
inductive Instr where
  /-- `INIT` (40_display_encoder.md R111). -/
  | init
  /-- `WREG a, d` (R113). -/
  | wreg (a : RegAddr) (d : Data)
  /-- `RCHAR slot, c, dp` (R117). -/
  | rchar (slot : Slot) (c : Code) (dp : Bool)
  /-- `RSTR text` (R123). -/
  | rstr (text : List Code)
  /-- `CLEAR` (R130). -/
  | clear
  /-- `SOPEN addr` (41_sensor_engine.md R151). -/
  | sopen (addr : Byte)
  /-- `RDTEMP` (R154). -/
  | rdtemp
  /-- `RDHUM` (R155). -/
  | rdhum
  /-- `DFRAME`: one frame on the display link (30_encoding.md R86). -/
  | dframe (a : RegAddr) (d : Data)
  /-- `SCMD_T`: the command byte `CMD_TRIG_T` on the bus (R87). -/
  | scmdT
  /-- `SCMD_RH`: the command byte `CMD_TRIG_RH` on the bus (R87). -/
  | scmdRh
  /-- `SDATA`: the two bytes of a raw reading on the bus (R87, 41_sensor_engine.md R156). -/
  | sdata (raw : Raw)
  deriving DecidableEq, Repr

/-- The link each word stands on (30_encoding.md R80, R86, R87). -/
def Instr.link : Instr → Link
  | .init => .command
  | .wreg _ _ => .command
  | .rchar _ _ _ => .command
  | .rstr _ => .command
  | .clear => .command
  | .sopen _ => .command
  | .rdtemp => .command
  | .rdhum => .command
  | .dframe _ _ => .display
  | .scmdT => .busWrite
  | .scmdRh => .busWrite
  | .sdata _ => .busRead

end Sys2Proof
end

