-- ==== Sys2Proof/Machine/State.lean ====
section
/-! DEFINITION. The state of the machine (10_state.md), the events of its trace, the reasons a step can stop,
and the state after reset. Everything is plain data. -/

namespace Sys2Proof.Machine

/-- The chip-select line (10_state.md R28). -/
inductive CsLine where
  | released | asserted
  deriving DecidableEq, Repr

/-- The exit code the latch `FATAL` can hold: 1 or 2 (10_state.md R30, 60_exceptions.md R210). -/
inductive FatalCode where
  /-- `SerialInitError` (R212). -/
  | serial
  /-- `BusInitError` (R213). -/
  | bus
  deriving DecidableEq, Repr

/-- The number of a fatal exit code (42_host_sequence.md R192). -/
def FatalCode.code (lit : Literals) : FatalCode → Nat
  | .serial => lit.exitSerial
  | .bus => lit.exitBus

/-- Which measurement a result is of (00_scope.md R13). -/
inductive Kind where
  | t | rh
  deriving DecidableEq, Repr

/-- What a diagnostic is about; its text is not in the source (60_exceptions.md R224). -/
inductive Diagnostic where
  | serialInitError | busInitError
  deriving DecidableEq, Repr

/-- The events of the trace (00_scope.md R13, 10_state.md R33). -/
inductive Event where
  | csAssert
  /-- One `transferBytes` of a frame: `Xfer(b0, b1)`, its `FRAME_BYTES` bytes in the order they are sent. -/
  | xfer (bytes : FrameWord)
  | csRelease
  /-- The recoverable condition, with the character's ordinal value. -/
  | unsupported (ord : Nat)
  | busOpen (addr : Byte) (h : Handle)
  | busCmd (b : Byte)
  /-- A blocking wait, in milliseconds. -/
  | wait (ms : Nat)
  | busRead (b : Byte)
  | result (kind : Kind) (v : Binary64)
  | diag (what : Diagnostic)
  | fatal (code : Nat)
  | pinCfg (pin : Nat) (dir : PinDir)
  | pinWrite (pin : Nat) (level : Level)
  | pinRead (pin : Nat) (level : Level)
  /-- The answer of `openSerialChannel`: a handle, or none for an error. -/
  | serOpen (h : Option Handle)
  | serClose
  | release
  | exit (code : Nat)
  deriving DecidableEq, Repr

/-- The host's state `HS` (10_state.md R35). -/
inductive HostState where
  | init | running | finalizing | stopped
  deriving DecidableEq, Repr

/-- The state that sequences one operation while it runs (10_state.md R20 (a)): the cursor `cur` (R25), the
slot counter `s` (R26), the text `TXT` whose length is `len` (R27), the operand latches `a`, `d`, `slot`,
`c`, `dp` (R31), the two bytes read and the raw value (R34). Absent is the spec's own "no value between
operations" (R41). -/
structure Sequencer where
  cur : Option Nat
  s : Option Nat
  txt : Option (List Code)
  a : Option RegAddr
  d : Option Data
  slot : Option Nat
  c : Option Code
  dp : Option Bool
  b0 : Option Byte
  b1 : Option Byte
  raw : Option Raw
  deriving DecidableEq, Repr

/-- No operation is running: nothing in the sequencer has a value (10_state.md R41). -/
def Sequencer.idle : Sequencer where
  cur := none
  s := none
  txt := none
  a := none
  d := none
  slot := none
  c := none
  dp := none
  b0 := none
  b1 := none
  raw := none

/-- The model's own field for the draws of 10_state.md R40: answers of the environment that are already fixed,
first answer first, and the count of draws made. An exhausted list answers with a free value of Config
(log entry 7). -/
structure Env where
  /-- Answers of `readByte`. -/
  bytes : List Byte
  /-- Answers of `openBusSession`, each read in `HANDLEW` bits when it is drawn. -/
  busHandles : List Int
  /-- Answers of `openSerialChannel`: an error, or a handle, which is never negative (log entry 8). -/
  serials : List (Option Nat)
  /-- Answers of `readPin`. -/
  levels : List Level
  drawn : Nat
  deriving DecidableEq, Repr

/-- No answer fixed in advance, no draw made. -/
def Env.free : Env where
  bytes := []
  busHandles := []
  serials := []
  levels := []
  drawn := 0

/-- The state of the block, of the display controller's registers, and of the host (10_state.md section 1). -/
structure State where
  /-- The literals and parameters, `FONT` and `DP_BIT` among them: read-only (R23, R24). -/
  cfg : Config
  /-- The display controller's registers `x[0..15]` (R21, R22, R37). -/
  x : Registers
  /-- The state inside one operation (R25, R26, R27, R31, R34). -/
  seq : Sequencer
  /-- The chip-select line `CS` (R28). -/
  cs : CsLine
  /-- The serial channel's handle `SER` (R29). -/
  ser : Option Handle
  /-- The sensor session's handle `SH` (R29). -/
  sh : Option Handle
  /-- The latch `FATAL` (R30). -/
  fatal : Option FatalCode
  /-- The trace `TR`, first event first (R33). -/
  tr : List Event
  /-- The host's state `HS` (R35). -/
  hs : HostState
  /-- The host's position in the sequence of its state (R25, R35). -/
  hpos : Nat
  /-- The host's `t`, from its measurement to the display in the same iteration, else absent (42_host_sequence.md R189,
  41_sensor_engine.md R163; log entry 6). -/
  hostT : Option Binary64
  /-- The host's `h`, in the same way (R189, R163; log entry 6). -/
  hostH : Option Binary64
  /-- The level of the buzzer output (R36). -/
  buzzer : Level
  /-- The levels of the LED outputs (R36). -/
  leds : List Level
  /-- The bytes handed over at the command port and not yet taken: the command stream (R40 (c)). -/
  cmd : List Byte
  /-- The model's own field: a wire word that the next step runs by itself (log entry 13). -/
  wire : Option (Link × List Byte)
  /-- The model's own field: the environment's answers (R40; log entry 7). -/
  env : Env
  deriving DecidableEq, Repr

/-- The reasons a step can stop with a fault. There is none: every condition of the spec is an event after
which the machine goes on (`Unsupported`) or a latched state (`FATAL`), and what the spec gives no behaviour is
refused (60_exceptions.md R210, R217, R219). -/
inductive Fault where
  deriving DecidableEq, Repr

/-- The reasons a step can be refused (60_exceptions.md R219). All are safe: the step gives no next state, so
no claim about a next state can be proved of it. -/
inductive Refusal where
  /-- An instruction that has no meaning in this model. Raised by `exec` alone; safe. -/
  | notModelled (mnemonic : String)
  /-- `IllegalCommand`: bytes at the command port that spell no operation (30_encoding.md R88). Raised by the
  fetch; safe. -/
  | illegalCommand
  /-- Bytes on a wire that are not exactly one word of it (log entry 21). Raised by the fetch; safe. -/
  | illegalWireWord
  /-- `SerialNotOpen`: a display operation while `SER` is absent (40_display_encoder.md R110). Raised by the
  display operations and by `DFRAME`; safe. -/
  | serialNotOpen
  /-- `SensorNotOpen`: a measurement while `SH` is absent (41_sensor_engine.md R150). Raised by `RDTEMP`,
  `RDHUM`, `SCMD_T`, `SCMD_RH` and `SDATA`; safe. -/
  | sensorNotOpen
  /-- `SensorAlreadyOpen`: `SOPEN` while `SH` is present (41_sensor_engine.md R150). Raised by `SOPEN`; safe. -/
  | sensorAlreadyOpen
  /-- `Busy`: a command while another is running (R219). Raised by every operation, and by the host's actions, in
  a state in which an operation is in progress; safe. -/
  | busy
  deriving DecidableEq, Repr

/-- The state at process start (10_state.md R41, 70_reset_and_hazards.md R240) with given parameters and given
contents of the display controller, which the spec leaves unspecified (R241). The host's variables, its pins
and the model's own fields take the values log entries 5, 6 and 7 name. -/
def State.resetWith (cfg : Config) (x : Registers) : State where
  cfg := cfg
  x := x
  seq := Sequencer.idle
  cs := .released
  ser := none
  sh := none
  fatal := none
  tr := []
  hs := .init
  hpos := 0
  hostT := none
  hostH := none
  buzzer := .low
  leds := List.replicate cfg.lit.nLed .low
  cmd := []
  wire := none
  env := Env.free

/-- The state right after reset: the default parameters, and the display controller's registers at zero
(DESIGN CHOICE, log entries 2 and 4: the spec leaves both open). -/
def State.reset : State := State.resetWith Config.reference (Vector.replicate (2 ^ AW) 0#DW)

end Sys2Proof.Machine
end

