-- ==== Sys2Proof/Machine/Flags.lean ====
section
/-! DEFINITION. The block has no flags, no condition codes and no predicates (10_state.md R32). What its
operations test before they do anything is held here: the `FATAL` latch, whether an operation is running, and
whether a transport is open (40_display_encoder.md R110, 41_sensor_engine.md R150, 60_exceptions.md R216, R219). -/

namespace Sys2Proof.Machine

/-- No operation is in progress: the sequencer holds no value and no frame is open (10_state.md R20, R28, R41). -/
def State.quiet (s : State) : Bool := s.seq = Sequencer.idle && s.cs = .released

/-- The tests common to every operation, in the spec's order: the `FATAL` test comes before every other and
makes the command ignored, with no state change (10_state.md R30, 60_exceptions.md R216 (e), R219); a command
while another is running is refused (R219 `Busy`; log entry 17). -/
def whenAccepted (s : State) (k : State → Host.Outcome State Fault Refusal) :
    Host.Outcome State Fault Refusal :=
  if s.fatal.isSome then .next s
  else if s.quiet then k s
  else .refused .busy

/-- The conditions of a display operation (40_display_encoder.md R110): accepted, and the serial channel open. -/
def whenSerialOpen (s : State) (k : State → State) : Host.Outcome State Fault Refusal :=
  whenAccepted s fun s => if s.ser.isSome then .next (k s) else .refused .serialNotOpen

/-- The conditions of a measurement (41_sensor_engine.md R150): accepted, and the session open; the operation
is given the session's handle. -/
def whenSensorOpen (s : State) (k : Handle → State → State) : Host.Outcome State Fault Refusal :=
  whenAccepted s fun s =>
    match s.sh with
    | some h => .next (k h s)
    | none => .refused .sensorNotOpen

/-- The conditions of `SOPEN` (41_sensor_engine.md R150): accepted, and no session open yet. -/
def whenSensorClosed (s : State) (k : State → State) : Host.Outcome State Fault Refusal :=
  whenAccepted s fun s => if s.sh.isSome then .refused .sensorAlreadyOpen else .next (k s)

end Sys2Proof.Machine
end

