-- ==== Sys2Proof/Machine/Float.lean ====
section
/-! DEFINITION. The binary64 arithmetic of the two conversions (41_sensor_engine.md R157 to R159, 30_encoding.md
R89): each operation computes its exact result as a fraction and rounds it once, to nearest, ties to even.
Operands are finite numbers: no infinity and no NaN can arise from a 16-bit raw value (R89). -/

namespace Sys2Proof.Machine

/-- A number as a sign, a numerator and a positive denominator. -/
structure Ratio where
  neg : Bool
  num : Nat
  den : Nat
  deriving DecidableEq, Repr

/-- The biased exponent, bits 62:52 of a pattern (R89). -/
def expField (v : Binary64) : Nat := (v.extractLsb' 52 11).toNat

/-- The fraction, bits 51:0 of a pattern (R89). -/
def fracField (v : Binary64) : Nat := (v.extractLsb' 0 52).toNat

/-- A pattern is a finite number: its biased exponent is not all ones (R89). -/
def isFinite64 (v : Binary64) : Bool := expField v ≠ 2047

/-- The exact value of a finite pattern (R89, bias 1023): zero, a subnormal number, or a normal one. -/
def ratioOf (v : Binary64) : Ratio :=
  let e := expField v
  if e = 0 then
    if fracField v = 0 then ⟨v.msb, 0, 1⟩ else ⟨v.msb, fracField v, 2 ^ 1074⟩
  else ⟨v.msb, (2 ^ 52 + fracField v) * 2 ^ (e - 1075), 2 ^ (1075 - e)⟩

/-- The natural number nearest to `n / d`, ties to even (R157). -/
def roundNearest (n d : Nat) : Nat :=
  let q := n / d
  let r := n % d
  if 2 * r < d then q
  else if d < 2 * r then q + 1
  else if q % 2 = 0 then q else q + 1

/-- The exponent of the last place of `n / d`, for positive `n` and `d`: `n / d` divided by 2 to it lies from
2^52 up to 2^53, or the exponent is the least one, -1074. -/
def ulpExponent (n d : Nat) : Int :=
  let e : Int := (Nat.log2 n : Int) - (Nat.log2 d : Int) - 52
  let e' := if n * 2 ^ (-e).toNat < 2 ^ 52 * (d * 2 ^ e.toNat) then e - 1 else e
  max e' (-1074)

/-- The binary64 pattern nearest to `n / d` with the given sign (R157: round to nearest, ties to even). -/
def round64 (neg : Bool) (n d : Nat) : Binary64 :=
  let k := ulpExponent n d
  let q := roundNearest (n * 2 ^ (-k).toNat) (d * 2 ^ k.toNat)
  let body := if n = 0 then 0 else min ((k + 1074).toNat * 2 ^ 52 + q) (2047 * 2 ^ 52)
  BitVec.ofNat 64 ((if neg then 2 ^ 63 else 0) + body)

/-- The correctly rounded product (R158 `mul64`). -/
def mul64 (a b : Binary64) : Binary64 :=
  let x := ratioOf a
  let y := ratioOf b
  round64 (x.neg != y.neg) (x.num * y.num) (x.den * y.den)

/-- The correctly rounded quotient, for a divisor that is not zero (R158 `div64`). -/
def div64 (a b : Binary64) : Binary64 :=
  let x := ratioOf a
  let y := ratioOf b
  round64 (x.neg != y.neg) (x.num * y.den) (x.den * y.num)

/-- A sign, a numerator and a denominator as an exact numerator. -/
def Ratio.signed (x : Ratio) : Int := if x.neg then -(x.num : Int) else (x.num : Int)

/-- The correctly rounded difference (R158 `sub64`). -/
def sub64 (a b : Binary64) : Binary64 :=
  let x := ratioOf a
  let y := ratioOf b
  let n := x.signed * y.den - y.signed * x.den
  round64 (n < 0) n.natAbs (x.den * y.den)

/-- The integer `raw` as a binary64 number, exact (R157 `cvt64`). -/
def cvt64 (raw : Raw) : Binary64 := round64 false raw.toNat 1

/-- `raw * mul / div - off`, evaluated left to right (R157, R158, R159). -/
def linear64 (mul div off : Binary64) (raw : Raw) : Binary64 := sub64 (div64 (mul64 (cvt64 raw) mul) div) off

/-- The binary64 evaluation of `raw * 175.72 / 65536.0 - 46.85` (R158). -/
def evalT (lit : Literals) (raw : Raw) : Binary64 := linear64 lit.kTMul lit.kDiv lit.kTOff raw

/-- The binary64 evaluation of `raw * 125.0 / 65536.0 - 6.0` (R159). -/
def evalRh (lit : Literals) (raw : Raw) : Binary64 := linear64 lit.kRhMul lit.kDiv lit.kRhOff raw

/-- `conv_T`, a parameter (00_scope.md R9) whose default is the evaluation of R158 (log entry 28). -/
def convT (cfg : Config) (raw : Raw) : Binary64 := (cfg.convTAt.lookup raw).getD (evalT cfg.lit raw)

/-- `conv_RH`, a parameter (00_scope.md R9) whose default is the evaluation of R159 (log entry 28). -/
def convRh (cfg : Config) (raw : Raw) : Binary64 := (cfg.convRhAt.lookup raw).getD (evalRh cfg.lit raw)

end Sys2Proof.Machine
end

