-- ==== Sys2Proof/Machine/Format.lean ====
section
/-! DEFINITION. The host's formatting of the two readings (42_host_sequence.md R186): `HOST_FMT(t, h) = " " ++
fixed(t, 1) ++ " " ++ fixed(h, P_RH)`. -/

namespace Sys2Proof.Machine

/-- The code of a decimal digit (ASCII, 93_implementation_defined.md G9). -/
def digitCode (n : Nat) : Code := 0x30 + n % 10

/-- The code of the minus sign (ASCII, 93_implementation_defined.md G9). -/
def minusCode : Code := 0x2D

/-- The last `p` decimal digits of a number, most significant first. -/
def lastDigits : Nat → Nat → List Code
  | 0, _ => []
  | p + 1, n => lastDigits p (n / 10) ++ [digitCode n]

/-- The decimal digits of a number, at least one; the fuel bounds their count. -/
def allDigits : Nat → Nat → List Code
  | 0, n => [digitCode n]
  | fuel + 1, n => if n < 10 then [digitCode n] else allDigits fuel (n / 10) ++ [digitCode n]

/-- More digits than the integer part of any finite binary64 number has. -/
def digitFuel : Nat := 310

/-- The natural number nearest to `n / d`, a tie rounded by the formatter's rule (R186; log entry 12). -/
def roundTie (rule : TieRule) (n d : Nat) : Nat :=
  let q := n / d
  let r := n % d
  if 2 * r < d then q
  else if d < 2 * r then q + 1
  else
    match rule with
    | .toEven => if q % 2 = 0 then q else q + 1
    | .awayFromZero => q + 1
    | .towardZero => q

/-- `fixed(v, p)`: the decimal representation of `v` with `p` digits after the point, a leading minus for
negative values, at least one digit before the point (R186), a tie rounded by the rule given. -/
def fixedBy (rule : TieRule) (cfg : Config) (v : Binary64) (p : Nat) : List Code :=
  if isFinite64 v then
    let x := ratioOf v
    let n := roundTie rule (x.num * 10 ^ p) x.den
    (if x.neg then [minusCode] else []) ++ allDigits digitFuel (n / 10 ^ p) ++ [cfg.period] ++
      lastDigits p (n % 10 ^ p)
  else (Config.freeText v).map BitVec.toNat

/-- The layout of R186, each reading rounded by a rule of its own at a tie. -/
def layout (rT rH : TieRule) (cfg : Config) (t h : Binary64) : List Code :=
  [cfg.space] ++ fixedBy rT cfg t 1 ++ [cfg.space] ++ fixedBy rH cfg h cfg.pRh

/-- `HOST_FMT(t, h)`, a parameter (00_scope.md R9) whose default is the layout of R186 (log entry 12). -/
def hostText (cfg : Config) (t h : Binary64) : List Code :=
  (cfg.hostFmtAt.lookup (t, h)).getD (layout cfg.fmtTie cfg.fmtTie cfg t h)

end Sys2Proof.Machine
end

