-- ==== Sys2Proof/WellFormed.lean ====
section
/-! DEFINITION. What makes an instruction and a configuration well formed. -/

namespace Sys2Proof

/-- The largest length that the length byte of format `TX` can say (30_encoding.md R81). -/
def lenMax : Nat := 255

/-- A character of a packet is one byte (30_encoding.md R81, R84). -/
def codeFits (c : Nat) : Bool := c < 256

/-- An instruction has an encoding: its operands fit the fields of its packet (30_encoding.md R81). Only characters
and the length of a text can fail to; every other operand fits its field by its type (R88: inside the legal packets
every value of every field is legal). -/
def Instr.fits : Instr → Bool
  | .init => true
  | .wreg _ _ => true
  | .rchar _ c _ => codeFits c
  | .rstr text => text.length ≤ lenMax && text.all codeFits
  | .clear => true
  | .sopen _ => true
  | .rdtemp => true
  | .rdhum => true
  | .dframe _ _ => true
  | .scmdT => true
  | .scmdRh => true
  | .sdata _ => true

namespace Config

/-- A character code is a number of `CHARW` bits (00_scope.md R9). -/
def IsCode (cfg : Config) (c : Nat) : Bool := c < 2 ^ cfg.charW

/-- The addresses of the five configuration registers, in the order `INIT` writes them (40_display_encoder.md
R111, R112). -/
def configRegs (cfg : Config) : List RegAddr :=
  [cfg.regDecode, cfg.regScan, cfg.regIntensity, cfg.regMode, cfg.regTest]

/-- The literals are the document's: "a model uses exactly these values" (00_scope.md R8). -/
abbrev LitWf (cfg : Config) : Prop := cfg.lit = Literals.document

/-- The constraints on the three widths and limits (00_scope.md R9): `CHARW` at least 7, `HANDLEW` at least 2,
`MAXLEN` at least 8. -/
abbrev WidthsWf (cfg : Config) : Prop := 7 ≤ cfg.charW ∧ 2 ≤ cfg.handleW ∧ 8 ≤ cfg.maxLen

/-- The constraints on `PERIOD` and `SPACE` (00_scope.md R9): two distinct character codes. The host hands its text
over in packets, so both fit a packet (log entry 9). -/
abbrev CodesWf (cfg : Config) : Prop :=
  cfg.period ≠ cfg.space ∧ cfg.IsCode cfg.period ∧ cfg.IsCode cfg.space ∧ codeFits cfg.period ∧ codeFits cfg.space

/-- The constraints on the font (10_state.md R23 and its (a) to (d)): one pattern per character code, a blank
space, no period, the decimal-point bit clear in every pattern, and a one-hot `DP_BIT`. -/
abbrev FontWf (cfg : Config) : Prop :=
  (cfg.font.map Prod.fst).Nodup ∧
  (∀ e ∈ cfg.font, cfg.IsCode e.1) ∧
  cfg.glyph cfg.space = some 0#DW ∧
  cfg.glyph cfg.period = none ∧
  (∀ e ∈ cfg.font, e.2 &&& cfg.dpBit = 0#DW) ∧
  (∃ k : Fin DW, cfg.dpBit = 1#DW <<< k.val)

/-- The constraint of 00_scope.md R10: the five configuration registers are pairwise distinct and none is a
digit register (1 to 8). -/
abbrev RegsWf (cfg : Config) : Prop :=
  cfg.configRegs.Nodup ∧
  ∀ r ∈ cfg.configRegs, ¬ (cfg.lit.digitBase ≤ r.toNat ∧ r.toNat < cfg.lit.digitBase + cfg.lit.nSlot)

/-- The constraint on `conv_T` and `conv_RH` (00_scope.md R9: "rules R158 and R159"): wherever a value is listed it is
the value those rules give. -/
abbrev ConvWf (cfg : Config) : Prop :=
  (∀ e ∈ cfg.convTAt, e.2 = Machine.evalT cfg.lit e.1) ∧ (∀ e ∈ cfg.convRhAt, e.2 = Machine.evalRh cfg.lit e.1)

/-- The constraint on `HOST_FMT` (00_scope.md R9: "42_host_sequence.md rule R186"): one of the two candidate
precisions, and wherever a text is listed it has the layout of R186, each reading rounded at a tie by some rule. -/
abbrev FormatWf (cfg : Config) : Prop :=
  (cfg.pRh = 1 ∨ cfg.pRh = 10) ∧
  ∀ e ∈ cfg.hostFmtAt, ∃ rT rH : TieRule, e.2 = Machine.layout rT rH cfg e.1.1 e.1.2

/-- A pin of the host that exists: one of the `N_LED` LEDs, one of the `N_KEY` keys (00_scope.md R7). -/
def HasPin (cfg : Config) : HostPin → Bool
  | .cs => true
  | .buzz => true
  | .led i => i < cfg.lit.nLed
  | .key i => i < cfg.lit.nKey

/-- The constraints on the host's pins: one id for each LED and each key, a termination key among the keys
(00_scope.md R9); the calls of `PINSETUP` distinct, the chip-select among them (70_reset_and_hazards.md R242) and at
most one of the eleven pins left out (42_host_sequence.md R180; log entry 10); the LEDs each written once (R184; log
entry 11). -/
abbrev HostWf (cfg : Config) : Prop :=
  cfg.ledPin.length = cfg.lit.nLed ∧ cfg.keyPin.length = cfg.lit.nKey ∧ cfg.termKey < cfg.lit.nKey ∧
  (∀ p ∈ cfg.pinCalls, cfg.HasPin p) ∧ cfg.pinCalls.Nodup ∧ .cs ∈ cfg.pinCalls ∧
  cfg.lit.nLed + cfg.lit.nKey + 1 ≤ cfg.pinCalls.length ∧
  cfg.ledOrder.Perm (List.range cfg.lit.nLed)

/-- The constraints the spec puts on its configuration. -/
structure Wf (cfg : Config) : Prop where
  /-- 00_scope.md R7, R8. -/
  lit : cfg.LitWf
  /-- 00_scope.md R9, rows `CHARW`, `HANDLEW`, `MAXLEN`. -/
  widths : cfg.WidthsWf
  /-- 00_scope.md R9, row `PERIOD`, `SPACE`. -/
  codes : cfg.CodesWf
  /-- 00_scope.md R9, rows `FONT`, `DP_BIT`; 10_state.md R23. -/
  font : cfg.FontWf
  /-- 00_scope.md R10. -/
  regs : cfg.RegsWf
  /-- 00_scope.md R9, row `CMD_TRIG_T`, `CMD_TRIG_RH`: distinct (92_eei_decisions.md D17). -/
  commands : cfg.cmdTrigT ≠ cfg.cmdTrigRh
  /-- 00_scope.md R9, row `conv_T`, `conv_RH`. -/
  conv : cfg.ConvWf
  /-- 00_scope.md R9, row `HOST_FMT`. -/
  format : cfg.FormatWf
  /-- 00_scope.md R9, row `BUZZ_PIN` and the rest. -/
  host : cfg.HostWf

end Config

/-- An instruction a host can hand over, under given parameters: it has an encoding, its characters are codes of
`CHARW` bits and its text is no longer than `MAXLEN` (00_scope.md R9, 10_state.md R27; log entry 9). -/
def Instr.wf (cfg : Config) : Instr → Bool
  | .init => true
  | .wreg _ _ => true
  | .rchar slot c dp => (Instr.rchar slot c dp).fits && cfg.IsCode c
  | .rstr text => (Instr.rstr text).fits && text.length ≤ cfg.maxLen && text.all cfg.IsCode
  | .clear => true
  | .sopen _ => true
  | .rdtemp => true
  | .rdhum => true
  | .dframe _ _ => true
  | .scmdT => true
  | .scmdRh => true
  | .sdata _ => true

end Sys2Proof
end

