-- ==== Sys2Proof/Decode.lean ====
section
/-! DEFINITION. Decoding, total on any bytes and on any link, and the encoder after it, both written from the
tables of 30_encoding.md (R81, R82, R83, R86, R87, R88). -/

namespace Sys2Proof

/-- Why bytes spell no word of their link (30_encoding.md R88, its (a) to (d); log entry 21 for the wires). -/
inductive DecodeError where
  /-- R88 (a): a byte 0 that is no opcode. -/
  | reservedOpcode (b : Byte)
  /-- R88 (b), (c): a reserved bit that is not zero. -/
  | reservedBits (b : Byte)
  /-- R88 (d): the bytes end before the packet's length is reached. -/
  | short
  /-- A bus byte that is neither of the two command bytes. -/
  | notACommandByte (b : Byte)
  deriving DecidableEq, Repr

/-- What a decoder reports of bytes that spell no word: why, and the bytes after what it consumed (30_encoding.md
R83: a reserved opcode is consumed as that one byte). -/
structure Rejected where
  why : DecodeError
  rest : List Byte
  deriving DecidableEq, Repr

/-- What a decoder answers: the word at the head of the bytes and the bytes after it, or a report. -/
abbrev Decoded := Except Rejected (Instr × List Byte)

/-! ### Fields (30_encoding.md R81, R86) -/

/-- The bits of a byte above an address, 7:4: reserved in byte 1 of format `AD`. -/
def highBits (b : Byte) : BitVec (8 - AW) := b.extractLsb' AW (8 - AW)
/-- The `AW` lowest bits of a byte, 3:0: the register address. -/
def addrField (b : Byte) : RegAddr := b.extractLsb' 0 AW
/-- A byte read as a data byte, `DW` bits. -/
def dataField (b : Byte) : Data := b.setWidth DW
/-- A register address as a byte: `0b0000 ++ a` (R85, R86). -/
def addrByte (a : RegAddr) : Byte := a.setWidth 8
/-- A data byte as a byte of a packet. -/
def dataToByte (d : Data) : Byte := d.setWidth 8
/-- Bit 7 of byte 1 of format `SC`: `dp`. -/
def dpField (b : Byte) : Bool := b.getLsbD 7
/-- Bits 6:3 of byte 1 of format `SC`: reserved. -/
def slotReserved (b : Byte) : BitVec 4 := b.extractLsb' 3 4
/-- Bits 2:0 of byte 1 of format `SC`: `slot`. -/
def slotField (b : Byte) : Slot := b.extractLsb' 0 3

/-! ### The frame (R86) and the raw value (20_memory.md R57) -/

/-- The number that bytes spell, the first the most significant (20_memory.md R57, R58). -/
def numberOf (bytes : List Byte) : Nat := bytes.foldl (fun n b => n * 256 + b.toNat) 0

/-- The bytes of a frame: the address above the data byte, the bits above the address zero, the most significant byte
first: `0000aaaa dddddddd` (R85, R86, 20_memory.md R58). -/
def frameOf (a : RegAddr) (d : Data) : FrameWord :=
  Vector.ofFn fun i => BitVec.ofNat 8 ((a.toNat * 2 ^ DW + d.toNat) / 256 ^ (FRAME_BYTES - 1 - i.val))

/-- The bits above the address of a frame are zero (R86). -/
def frameClear (f : FrameWord) : Bool := numberOf f.toList < 2 ^ (AW + DW)

/-- The address of a frame, above its data byte (R86). -/
def frameAddr (f : FrameWord) : RegAddr := BitVec.ofNat AW (numberOf f.toList / 2 ^ DW)

/-- The data byte of a frame, its lowest `DW` bits (R86). -/
def frameData (f : FrameWord) : Data := BitVec.ofNat DW (numberOf f.toList)

/-- The raw value: the first byte read is the high byte (R85, 41_sensor_engine.md R156). -/
def rawOf (b0 b1 : Byte) : Raw := (b0 ++ b1).setWidth RAW_W

/-- The high byte of a raw value, read first (20_memory.md R57). -/
def rawHigh (raw : Raw) : Byte := raw.extractLsb' 8 8

/-- The low byte of a raw value, read second (20_memory.md R57). -/
def rawLow (raw : Raw) : Byte := raw.extractLsb' 0 8

/-! ### The command port (30_encoding.md R81 to R83) -/

/-- Format `AD`: `WREG` (R81, R82, R88 (b)). The opcode alone gives the length (R83), so a packet with a reserved bit
set is consumed whole (log entry 22). -/
def decodeAD : List Byte → Decoded
  | b1 :: b2 :: rest =>
    if highBits b1 = 0#(8 - AW) then .ok (.wreg (addrField b1) (dataField b2), rest)
    else .error ⟨.reservedBits b1, rest⟩
  | _ => .error ⟨.short, []⟩

/-- Format `SC`: `RCHAR` (R81, R82, R88 (c)). -/
def decodeSC : List Byte → Decoded
  | b1 :: b2 :: rest =>
    if slotReserved b1 = 0#4 then .ok (.rchar (slotField b1) b2.toNat (dpField b1), rest)
    else .error ⟨.reservedBits b1, rest⟩
  | _ => .error ⟨.short, []⟩

/-- Format `TX`: `RSTR`, the length byte and then that many characters (R81, R83, R88 (d)). -/
def decodeTX : List Byte → Decoded
  | len :: rest =>
    if len.toNat ≤ rest.length then .ok (.rstr ((rest.take len.toNat).map BitVec.toNat), rest.drop len.toNat)
    else .error ⟨.short, []⟩
  | [] => .error ⟨.short, []⟩

/-- Format `BA`: `SOPEN` (R81, R82). -/
def decodeBA : List Byte → Decoded
  | addr :: rest => .ok (.sopen addr, rest)
  | [] => .error ⟨.short, []⟩

/-- The packet at the head of the bytes of the command port, and the bytes after it: the opcode alone
determines the format (R81), by the opcode map of R82. A reserved opcode is reported, having consumed that one byte
(R83). -/
def decodeCommand : List Byte → Decoded
  | [] => .error ⟨.short, []⟩
  | b0 :: rest =>
    if b0 = 0x01#8 then .ok (.init, rest)
    else if b0 = 0x02#8 then decodeAD rest
    else if b0 = 0x03#8 then decodeSC rest
    else if b0 = 0x04#8 then decodeTX rest
    else if b0 = 0x05#8 then .ok (.clear, rest)
    else if b0 = 0x10#8 then decodeBA rest
    else if b0 = 0x11#8 then .ok (.rdtemp, rest)
    else if b0 = 0x12#8 then .ok (.rdhum, rest)
    else .error ⟨.reservedOpcode b0, rest⟩

/-! ### The wires (30_encoding.md R86, R87) -/

/-- A frame on the display link: `FRAME_BYTES` bytes, `0000aaaa dddddddd` (R86). -/
def decodeFrame (bytes : List Byte) : Decoded :=
  if h : FRAME_BYTES ≤ bytes.length then
    let f : FrameWord := Vector.ofFn fun i => bytes[i.val]
    if frameClear f then .ok (.dframe (frameAddr f) (frameData f), bytes.drop FRAME_BYTES)
    else .error ⟨.reservedBits f[0], bytes.drop FRAME_BYTES⟩
  else .error ⟨.short, []⟩

/-- A command byte on the bus: the parameter `CMD_TRIG_T` or the parameter `CMD_TRIG_RH` (R87). -/
def decodeBusCommand (cfg : Config) : List Byte → Decoded
  | b :: rest =>
    if b = cfg.cmdTrigT then .ok (.scmdT, rest)
    else if b = cfg.cmdTrigRh then .ok (.scmdRh, rest)
    else .error ⟨.notACommandByte b, rest⟩
  | [] => .error ⟨.short, []⟩

/-- The two data bytes of a reading, the first one the more significant (R87, 20_memory.md R57). -/
def decodeBusData : List Byte → Decoded
  | b0 :: b1 :: rest => .ok (.sdata (rawOf b0 b1), rest)
  | _ => .error ⟨.short, []⟩

/-- The word at the head of the bytes on a link, and the bytes after it. -/
def decode (cfg : Config) : Link → List Byte → Decoded
  | .command => decodeCommand
  | .display => decodeFrame
  | .busWrite => decodeBusCommand cfg
  | .busRead => decodeBusData

/-! ### The encoder -/

/-- The bytes of an instruction on its link, byte 0 first (R81, R82, R86, R87). -/
def encode (cfg : Config) : Instr → List Byte
  | .init => [0x01#8]
  | .wreg a d => [0x02#8, addrByte a, dataToByte d]
  | .rchar slot c dp => [0x03#8, BitVec.ofBool dp ++ 0#4 ++ slot, BitVec.ofNat 8 c]
  | .rstr text => 0x04#8 :: BitVec.ofNat 8 text.length :: text.map (BitVec.ofNat 8)
  | .clear => [0x05#8]
  | .sopen addr => [0x10#8, addr]
  | .rdtemp => [0x11#8]
  | .rdhum => [0x12#8]
  | .dframe a d => (frameOf a d).toList
  | .scmdT => [cfg.cmdTrigT]
  | .scmdRh => [cfg.cmdTrigRh]
  | .sdata raw => [rawHigh raw, rawLow raw]

/-! ### Words as spec/opcode_table.json numbers them -/

/-- The bytes of a row's word. The table reads a row as one number with bit 0 least significant and byte 0,
the first byte, most significant (its "match" and "mask"; log entry 14). -/
def wordBytes (nbits w : Nat) : List Byte :=
  (List.range (nbits / 8)).map fun k => BitVec.ofNat 8 (w / 2 ^ (nbits - 8 * (k + 1)))

/-- How many zero bytes make a row's word whole: the characters its length byte asks for, for `RSTR`; at most
two for any other packet (R81, R83). -/
def padding : List Byte → Nat
  | b0 :: b1 :: _ => if b0 = 0x04#8 then b1.toNat else 2
  | _ => 2

/-- A row's word with the bytes the table gives no bits to, all zero. -/
def paddedWord (nbits w : Nat) : List Byte :=
  wordBytes nbits w ++ List.replicate (padding (wordBytes nbits w)) 0#8

/-- Where a row's word stands: the command port if it begins a legal packet; else, by its length and its high
nibble, a wire that can carry it; else the command port, which then refuses it (log entry 14). -/
def tableLink (cfg : Config) (nbits w : Nat) : Link :=
  match decodeCommand (paddedWord nbits w) with
  | .ok _ => .command
  | .error _ =>
    if nbits = 8 * FRAME_BYTES then
      match decodeFrame (wordBytes nbits w) with
      | .ok _ => .display
      | .error _ => .busRead
    else if nbits = 8 then
      match decodeBusCommand cfg (wordBytes nbits w) with
      | .ok _ => .busWrite
      | .error _ => .command
    else .command

/-- The bytes that the instruction of a row's word takes on its link: on the command port the packet's own
length, its missing bytes zero (30_encoding.md R83); on a wire the word itself. -/
def tableBytes (cfg : Config) (nbits w : Nat) : List Byte :=
  match tableLink cfg nbits w with
  | .command =>
    match decodeCommand (paddedWord nbits w) with
    | .ok (i, _) => encode cfg i
    | .error _ => wordBytes nbits w
  | .display => wordBytes nbits w
  | .busWrite => wordBytes nbits w
  | .busRead => wordBytes nbits w

/-- The instruction the decoder reads from a word numbered as spec/opcode_table.json numbers its rows, with
the default parameters. -/
def decodeTableWord (nbits w : Nat) : Option Instr :=
  match decode Config.reference (tableLink Config.reference nbits w) (tableBytes Config.reference nbits w) with
  | .ok (i, _) => some i
  | .error _ => none

end Sys2Proof
end

