-- ==== Sys2Proof/Machine/Operands.lean ====
section
/-! DEFINITION. The values the block assembles, each from its parts (30_encoding.md R85, 40_display_encoder.md
R132). Nothing wraps: every result fits the width it is kept in. -/

namespace Sys2Proof.Machine

/-- The `NSLOT` slots in ascending order (10_state.md R26). -/
def slots (cfg : Config) : List Nat := List.range cfg.lit.nSlot

/-- The digit register of a slot: `slot + DIGIT_BASE`, 1 to 8 (R85, 40_display_encoder.md R117). -/
def digitAddr (cfg : Config) (slot : Nat) : RegAddr := BitVec.ofNat AW (slot + cfg.lit.digitBase)

/-- The data byte of a rendered character: the pattern, ORed with `DP_BIT` when `dp` is set (R85, R117). -/
def dataByte (cfg : Config) (p : Data) (dp : Bool) : Data := if dp then p ||| cfg.dpBit else p

/-- The look-ahead of `RSTR`: 1 when a next character exists and is the period (R85, 40_display_encoder.md R125). -/
def lookAhead (cfg : Config) (text : List Code) (cur : Nat) : Bool :=
  cur + 1 < text.length && text[cur + 1]? = some cfg.period

/-- A handle the bus transport gave: an answer read as a signed integer of `HANDLEW` bits (10_state.md R29,
92_eei_decisions.md D16). -/
def busHandle (cfg : Config) (v : Int) : Handle := v.bmod (2 ^ cfg.handleW)

/-- A handle the serial transport gave: a signed integer of `HANDLEW` bits that is not negative (10_state.md R29; log
entry 8). -/
def serialHandle (cfg : Config) (v : Nat) : Handle := ((v % 2 ^ (cfg.handleW - 1) : Nat) : Int)

/-- A negative handle signals failure (41_sensor_engine.md R151, 40_display_encoder.md R132 (f)). -/
def handleFailed (h : Int) : Bool := h < 0

/-- The id of a pin (10_state.md R24). Every LED and key the model uses is one that exists (`Config.HostWf`), and has
an id. -/
def pinId (cfg : Config) : HostPin → Nat
  | .cs => cfg.csPin
  | .buzz => cfg.buzzPin
  | .led i => cfg.ledPin.getD i 0
  | .key i => cfg.keyPin.getD i 0

/-- The direction a pin is configured to: the keys are read, the others written (42_host_sequence.md R180). -/
def pinDir : HostPin → PinDir
  | .cs => .output
  | .buzz => .output
  | .led _ => .output
  | .key _ => .input

/-- The electrical level of the chip-select line (10_state.md R28, 40_display_encoder.md R113). -/
def State.csLevel (s : State) : Level :=
  match s.cs with
  | .asserted => s.cfg.csActive
  | .released => s.cfg.csActive.flip

end Sys2Proof.Machine
end

