-- ==== Sys2Proof/Machine/Ops.lean ====
section
/-! DEFINITION. The named operations every meaning is built from: the trace, the display controller's registers,
the frame, the conditions, the draws, and the sequences `Render` and `Measure` (00_scope.md R12). -/

namespace Sys2Proof.Machine

/-! ### The trace and the registers -/

/-- `emit ev`: append an event to the trace (00_scope.md R12, 10_state.md R33). -/
def State.emit (s : State) (ev : Event) : State := { s with tr := s.tr ++ [ev] }

/-- The register `x[a]` of the display controller (00_scope.md R12). All 16 addresses exist (20_memory.md R51). -/
def State.reg (s : State) (a : RegAddr) : Data := s.x[a.toNat]

/-- `x[a] <- d` (00_scope.md R12): the one register that changes (10_state.md R37). -/
def State.setReg (s : State) (a : RegAddr) (d : Data) : State := { s with x := s.x.set a.toNat d }

/-- The end of an operation: nothing in the sequencer keeps a value (10_state.md R20, R41). -/
def State.endOp (s : State) : State := { s with seq := Sequencer.idle }

/-- `Wait(d)`: a blocking wait, which always completes (00_scope.md R12, 70_reset_and_hazards.md R250). -/
def State.pause (s : State) (ms : Nat) : State := s.emit (.wait ms)

/-! ### The frame (40_display_encoder.md R113) -/

/-- Load the operand latches `a` and `d` (10_state.md R31). -/
def latchFrame (a : RegAddr) (d : Data) (s : State) : State :=
  { s with seq := { s.seq with a := some a, d := some d } }

/-- `emit CsAssert ; CS <- asserted` (R113). -/
def csAssert (s : State) : State := { s.emit .csAssert with cs := .asserted }

/-- `emit Xfer(0b0000 ++ a, d)`, the latched pair, address first (R113, 20_memory.md R58). The bytes the
transport returns are discarded (R114). -/
def transfer (s : State) : State :=
  s.emit (.xfer (frameOf (s.seq.a.getD 0#AW) (s.seq.d.getD 0#DW)))

/-- `emit CsRelease ; CS <- released ; x[a] <- d`: the frame ends and its register changes (R113, 20_memory.md
R66). -/
def csRelease (s : State) : State :=
  { (s.emit .csRelease).setReg (s.seq.a.getD 0#AW) (s.seq.d.getD 0#DW) with cs := .released }

/-- `Frame(a, d)`: one register write framed by the chip-select (R113, R115). -/
def frame (a : RegAddr) (d : Data) (s : State) : State :=
  csRelease (transfer (csAssert (latchFrame a d s)))

/-! ### Conditions (60_exceptions.md R210, R217) -/

/-- The conditions the document names (R210). -/
inductive Condition where
  | unsupported (c : Code)
  | serialInitError
  | busInitError
  deriving DecidableEq, Repr

/-- The fatal entry with a code: `emit Fatal(k)`, `FATAL <- k`, `HS <- Stopped`, `emit Exit(k)`; the handles
keep what they held (R217). -/
def fatalEntry (k : FatalCode) (s : State) : State :=
  ({ s.emit (.fatal (k.code s.cfg.lit)) with fatal := some k, hs := .stopped }).emit (.exit (k.code s.cfg.lit))

/-- `raise E(info)`: what taking a condition does (00_scope.md R12, R217). `Unsupported` appends its event and
returns to the operation that raised it, with nothing saved and nothing to restore (R218, 40_display_encoder.md
R118); the two fatal ones print a diagnostic and enter the fatal stop (R212, R213). -/
def raise : Condition → State → State
  | .unsupported c, s => s.emit (.unsupported c)
  | .serialInitError, s => fatalEntry .serial (s.emit (.diag .serialInitError))
  | .busInitError, s => fatalEntry .bus (s.emit (.diag .busInitError))

/-! ### Draws (00_scope.md R12 `draw`, 10_state.md R40; log entry 7) -/

/-- The next answer of `readByte(handle)`. -/
def State.nextByte (s : State) (h : Handle) : Byte :=
  match s.env.bytes with
  | b :: _ => b
  | [] => Config.freeByte h s.env.drawn

/-- One answer of `readByte` is consumed: reads are not idempotent (20_memory.md R55). -/
def State.dropByte (s : State) : State :=
  { s with env := { s.env with bytes := s.env.bytes.tail, drawn := s.env.drawn + 1 } }

/-- The next answer of `openBusSession(addr)`, a signed integer of `HANDLEW` bits. -/
def State.nextBusHandle (s : State) (addr : Byte) : Handle :=
  match s.env.busHandles with
  | v :: _ => busHandle s.cfg v
  | [] => busHandle s.cfg (Config.freeBusHandle addr s.env.drawn)

/-- One answer of `openBusSession` is consumed. -/
def State.dropBusHandle (s : State) : State :=
  { s with env := { s.env with busHandles := s.env.busHandles.tail, drawn := s.env.drawn + 1 } }

/-- The next answer of `openSerialChannel` with the three constants (42_host_sequence.md R182): an error, or a
handle. -/
def State.nextSerial (s : State) : Option Handle :=
  match s.env.serials with
  | v :: _ => v.map (serialHandle s.cfg)
  | [] => (Config.freeSerial s.cfg.serChannel s.cfg.serClockHz s.cfg.serMode s.env.drawn).map (serialHandle s.cfg)

/-- One answer of `openSerialChannel` is consumed. -/
def State.dropSerial (s : State) : State :=
  { s with env := { s.env with serials := s.env.serials.tail, drawn := s.env.drawn + 1 } }

/-- The next answer of `readPin(pin)`: the level may change between two reads (20_memory.md R56). -/
def State.nextLevel (s : State) (pin : Nat) : Level :=
  match s.env.levels with
  | l :: _ => l
  | [] => Config.freeLevel pin s.env.drawn

/-- One answer of `readPin` is consumed. -/
def State.dropLevel (s : State) : State :=
  { s with env := { s.env with levels := s.env.levels.tail, drawn := s.env.drawn + 1 } }

/-! ### Display sequences -/

/-- Load the operand latches `slot`, `c` and `dp` (10_state.md R31). -/
def latchRender (slot : Nat) (c : Code) (dp : Bool) (s : State) : State :=
  { s with seq := { s.seq with slot := some slot, c := some c, dp := some dp } }

/-- `Render(slot, c, dp)` (40_display_encoder.md R117): an absent character raises `Unsupported` and writes
nothing; a supported one gives one frame. The register is never read (20_memory.md R67). -/
def render (slot : Nat) (c : Code) (dp : Bool) (s : State) : State :=
  let s := latchRender slot c dp s
  match s.cfg.glyph c with
  | none => raise (.unsupported c) s
  | some p => frame (digitAddr s.cfg slot) (dataByte s.cfg p dp) s

/-- Load the slot counter `s` (10_state.md R26). -/
def latchSlot (k : Nat) (s : State) : State := { s with seq := { s.seq with s := some k } }

/-- A loop over the `NSLOT` slots, ascending, none skipped, no early exit; the counter ends at `NSLOT` = 8
(10_state.md R26, 40_display_encoder.md R133). -/
def forSlots (body : Nat → State → State) (s : State) : State :=
  latchSlot s.cfg.lit.nSlot ((slots s.cfg).foldl (fun s k => body k (latchSlot k s)) s)

/-- The eight writes of zero to the digit registers, which `CLEAR` is and `INIT` ends with (40_display_encoder.md
R111, R130). -/
def blankDigits (s : State) : State := forSlots (fun k s => frame (digitAddr s.cfg k) 0#DW s) s

/-- The five configuration writes of `INIT`, in the order of R111 and R112. -/
def configWrites (cfg : Config) : List (RegAddr × Data) :=
  [(cfg.regDecode, cfg.valDecodeOff), (cfg.regScan, cfg.valScanAll8), (cfg.regIntensity, cfg.valIntensityMedium),
    (cfg.regMode, cfg.valModeNormal), (cfg.regTest, cfg.valTestOff)]

/-- The configuration frames of `INIT` (R111). -/
def configure (s : State) : State := (configWrites s.cfg).foldl (fun s w => frame w.1 w.2 s) s

/-- Capture the text and set the cursor to 0 (10_state.md R25, R27, 40_display_encoder.md R123). -/
def latchText (text : List Code) (s : State) : State :=
  { s with seq := { s.seq with txt := some text, cur := some 0 } }

/-- `cur <- n` (00_scope.md R12, 10_state.md R25). -/
def setCur (n : Nat) (s : State) : State := { s with seq := { s.seq with cur := some n } }

/-- One slot iteration of `RSTR` (40_display_encoder.md R123): the text exhausted, a blank (R124); else the
character at the cursor, with the period after it as its decimal point (R125), or alone. -/
def renderNext (k : Nat) (s : State) : State :=
  let text := s.seq.txt.getD []
  let cur := s.seq.cur.getD 0
  match text[cur]? with
  | none => render k s.cfg.space false s
  | some c =>
    if lookAhead s.cfg text cur then setCur (cur + 2) (render k c true s)
    else setCur (cur + 1) (render k c false s)

/-! ### Sensor sequences -/

/-- `BusCmd(b)`: one command byte written on the bus (00_scope.md R12, 41_sensor_engine.md R153). -/
def busCommand (b : Byte) (s : State) : State := s.emit (.busCmd b)

/-- The first byte of a reading arrives: the more significant (R153, 20_memory.md R57). -/
def takeFirst (b : Byte) (s : State) : State :=
  { s.emit (.busRead b) with seq := { s.seq with b0 := some b } }

/-- The second byte arrives, and `raw = b0 ++ b1` (R153, R156). -/
def takeSecond (b : Byte) (s : State) : State :=
  { s.emit (.busRead b) with
    seq := { s.seq with b1 := some b, raw := some (rawOf (s.seq.b0.getD 0#8) b) } }

/-- `Measure(cmd)` (R153): the command, the settle wait, then exactly two bytes, which nothing checks (R160).
The raw value is left in the sequencer. -/
def measureRaw (h : Handle) (cmd : Byte) (s : State) : State :=
  let s := (busCommand cmd s).pause s.cfg.lit.tSettle
  let s := takeFirst (s.nextByte h) s.dropByte
  takeSecond (s.nextByte h) s.dropByte

/-- The value of a measurement is returned: `emit Result(kind, conv(raw))` (R154, R155). -/
def deliver (kind : Kind) (s : State) : State :=
  let raw := s.seq.raw.getD 0#RAW_W
  match kind with
  | .t => s.emit (.result .t (convT s.cfg raw))
  | .rh => s.emit (.result .rh (convRh s.cfg raw))

end Sys2Proof.Machine
end

