-- ==== Sys2Proof/Machine/Display.lean ====
section
/-! DEFINITION. The display operations (40_display_encoder.md). -/

namespace Sys2Proof.Machine

/-- `INIT`: five configuration frames, then the eight digit registers cleared (R111). -/
def execInit (s : State) : Host.Outcome State Fault Refusal :=
  whenSerialOpen s fun s => (blankDigits (configure s)).endOp

/-- `WREG a, d`: one frame (R113). -/
def execWreg (a : RegAddr) (d : Data) (s : State) : Host.Outcome State Fault Refusal :=
  whenSerialOpen s fun s => (frame a d s).endOp

/-- `RCHAR slot, c, dp`: one rendering (R117). -/
def execRchar (slot : Slot) (c : Code) (dp : Bool) (s : State) : Host.Outcome State Fault Refusal :=
  whenSerialOpen s fun s => (render slot.toNat c dp s).endOp

/-- `RSTR text`: the cursor walk over all eight slots (R123). -/
def execRstr (text : List Code) (s : State) : Host.Outcome State Fault Refusal :=
  whenSerialOpen s fun s => (forSlots renderNext (latchText text s)).endOp

/-- `CLEAR`: the eight digit registers cleared (R130). -/
def execClear (s : State) : Host.Outcome State Fault Refusal :=
  whenSerialOpen s fun s => (blankDigits s).endOp

end Sys2Proof.Machine
end

