-- ==== Sys2Proof/Machine/Sensor.lean ====
section
/-! DEFINITION. The sensor operations (41_sensor_engine.md). -/

namespace Sys2Proof.Machine

/-- The answer of `openBusSession(addr)` is recorded; a negative handle is fatal, any other is kept in `SH`
(R151, R152). -/
def openSession (addr : Byte) (s : State) : State :=
  let h := s.nextBusHandle addr
  let s := s.dropBusHandle.emit (.busOpen addr h)
  if handleFailed h then raise .busInitError s else { s with sh := some h }

/-- `SOPEN addr` (R151). -/
def execSopen (addr : Byte) (s : State) : Host.Outcome State Fault Refusal :=
  whenSensorClosed s fun s => (openSession addr s).endOp

/-- `RDTEMP`: a measurement with `CMD_TRIG_T`, converted to degrees Celsius (R154). -/
def execRdtemp (s : State) : Host.Outcome State Fault Refusal :=
  whenSensorOpen s fun h s => (deliver .t (measureRaw h s.cfg.cmdTrigT s)).endOp

/-- `RDHUM`: a measurement with `CMD_TRIG_RH`, converted to percent relative humidity (R155). -/
def execRdhum (s : State) : Host.Outcome State Fault Refusal :=
  whenSensorOpen s fun h s => (deliver .rh (measureRaw h s.cfg.cmdTrigRh s)).endOp

end Sys2Proof.Machine
end

