-- ==== Sys2Proof/Machine/Wire.lean ====
section
/-! DEFINITION. The words of the wires run by themselves (spec/opcode_table.json rows DFRAME, SCMD_T, SCMD_RH,
SDATA; 30_encoding.md R86, R87). Each has the meaning of the primitive its row names, under the conditions of
the operations that use it (log entry 13). -/

namespace Sys2Proof.Machine

/-- `DFRAME`: the frame primitive, "semantics in rule R113" (30_encoding.md R86). -/
def execDframe (a : RegAddr) (d : Data) (s : State) : Host.Outcome State Fault Refusal :=
  whenSerialOpen s fun s => (frame a d s).endOp

/-- `SCMD_T`: the command byte `CMD_TRIG_T` is written on the bus, the first event of `Measure` (R87,
41_sensor_engine.md R153). -/
def execScmdT (s : State) : Host.Outcome State Fault Refusal :=
  whenSensorOpen s fun _ s => (busCommand s.cfg.cmdTrigT s).endOp

/-- `SCMD_RH`: the command byte `CMD_TRIG_RH` is written on the bus (R87, 41_sensor_engine.md R153). -/
def execScmdRh (s : State) : Host.Outcome State Fault Refusal :=
  whenSensorOpen s fun _ s => (busCommand s.cfg.cmdTrigRh s).endOp

/-- `SDATA`: the two bytes of a raw value are read, the high byte first, and joined; no value is kept after
them (R87, 41_sensor_engine.md R153, R156; 10_state.md R34). -/
def execSdata (raw : Raw) (s : State) : Host.Outcome State Fault Refusal :=
  whenSensorOpen s fun _ s => (takeSecond (rawLow raw) (takeFirst (rawHigh raw) s)).endOp

end Sys2Proof.Machine
end

