-- ==== Sys2Proof/Machine/Dispatch.lean ====
section
/-! DEFINITION. One arm per constructor of Instr, each one call of its meaning. -/

namespace Sys2Proof.Machine

/-- What an instruction does (30_encoding.md R80). -/
def exec (i : Instr) (s : State) : Host.Outcome State Fault Refusal :=
  match i with
  | .init => Sys2Proof.Machine.execInit s
  | .wreg a d => Sys2Proof.Machine.execWreg a d s
  | .rchar slot c dp => Sys2Proof.Machine.execRchar slot c dp s
  | .rstr text => Sys2Proof.Machine.execRstr text s
  | .clear => Sys2Proof.Machine.execClear s
  | .sopen addr => Sys2Proof.Machine.execSopen addr s
  | .rdtemp => Sys2Proof.Machine.execRdtemp s
  | .rdhum => Sys2Proof.Machine.execRdhum s
  | .dframe a d => Sys2Proof.Machine.execDframe a d s
  | .scmdT => Sys2Proof.Machine.execScmdT s
  | .scmdRh => Sys2Proof.Machine.execScmdRh s
  | .sdata raw => Sys2Proof.Machine.execSdata raw s

end Sys2Proof.Machine
end

