-- ==== Sys2Proof/Machine/Fetch.lean ====
section
/-! DEFINITION. Where the next operation comes from (30_encoding.md R81, R83, R88; log entries 13, 15, 22). -/

namespace Sys2Proof.Machine

/-- What waits at the ports. -/
inductive Fetched where
  /-- An operation, and the state with its bytes taken. -/
  | run (i : Instr) (s : State)
  /-- Nothing: the host acts. -/
  | nothing
  /-- Bytes that spell no operation (30_encoding.md R88). -/
  | bad (r : Refusal)
  deriving DecidableEq, Repr

/-- The wire word waiting, if any, else the packet at the head of the command port (R83). The bytes are decoded before
it is known whether an operation is in progress, so bytes that spell no operation are named `IllegalCommand` even
then: DESIGN CHOICE, since 60_exceptions.md R219 gives no order and 95_test_vectors.md has both `IllegalCommand` from
any start (K11, K12) and `Busy` for any packet while another command runs (K23) (log entry 17). Bytes on a wire are
one word exactly, a frame "never one byte and never three" (20_memory.md R60); with more bytes than that, as with
fewer, they are no word and are refused: DESIGN CHOICE, since the spec leaves a wire driven past the block outside it
(log entry 21). -/
def fetch (s : State) : Fetched :=
  match s.wire with
  | some (link, bytes) =>
    match decode s.cfg link bytes with
    | .ok (i, []) => .run i { s with wire := none }
    | .ok (_, _ :: _) => .bad .illegalWireWord
    | .error _ => .bad .illegalWireWord
  | none =>
    match s.cmd with
    | [] => .nothing
    | b :: bs =>
      match decode s.cfg .command (b :: bs) with
      | .ok (i, rest) => .run i { s with cmd := rest }
      | .error _ => .bad .illegalCommand

/-- A table row's word put where `fetch` takes it next: at the head of the command port, or on its wire (log
entries 13, 14, 15). -/
def place (nbits w : Nat) (s : State) : State :=
  match tableLink s.cfg nbits w with
  | .command => { s with wire := none, cmd := tableBytes s.cfg nbits w ++ s.cmd }
  | .display => { s with wire := some (.display, tableBytes s.cfg nbits w) }
  | .busWrite => { s with wire := some (.busWrite, tableBytes s.cfg nbits w) }
  | .busRead => { s with wire := some (.busRead, tableBytes s.cfg nbits w) }

end Sys2Proof.Machine
end

