-- ==== Sys2Proof/Machine/HostLoop.lean ====
section
/-! DEFINITION. The host: its macro operations and the poll loop (42_host_sequence.md). -/

namespace Sys2Proof.Machine

/-! ### Macro operations (R180 to R187) -/

/-- `PINSETUP`: one `configurePin` call per pin; which calls and in which order is a parameter (R180; log entry 10). -/
def pinSetup (s : State) : State :=
  s.cfg.pinCalls.foldl (fun s p => s.emit (.pinCfg (pinId s.cfg p) (pinDir p))) s

/-- `writePin(BUZZ_PIN, level)` (R181). -/
def writeBuzzer (l : Level) (s : State) : State :=
  { s.emit (.pinWrite s.cfg.buzzPin l) with buzzer := l }

/-- `BUZZ`: high, `T_BUZZ` = 100 ms, low (R181). -/
def buzz (s : State) : State := writeBuzzer .low ((writeBuzzer .high s).pause s.cfg.lit.tBuzz)

/-- `SEROPEN` (R182): the handle is kept in `SER`; an error is fatal with exit code 1 (60_exceptions.md R212). -/
def serOpen (s : State) : State :=
  let answer := s.nextSerial
  let s := s.dropSerial.emit (.serOpen answer)
  match answer with
  | some h => { s with ser := some h }
  | none => raise .serialInitError s

/-- `SERCLOSE` (R183): the channel is closed, then the top-level handle released. The sensor session stays. -/
def serClose (s : State) : State := { s.emit .serClose with ser := none }.emit .release

/-- `writePin(LED_PIN[i], LED_READY_LEVEL)` (R184). -/
def writeLed (i : Nat) (s : State) : State :=
  { s.emit (.pinWrite (pinId s.cfg (.led i)) s.cfg.ledReadyLevel) with
    leds := s.leds.set i s.cfg.ledReadyLevel }

/-- `LEDREADY`: the four LEDs to their ready level; the order is a parameter (R184; log entry 11). -/
def ledReady (s : State) : State := s.cfg.ledOrder.foldl (fun s i => writeLed i s) s

/-- The level the termination key shows at the next read (R185). -/
def keyLevel (s : State) : Level := s.nextLevel (pinId s.cfg (.key s.cfg.termKey))

/-- One read of the termination key (R185). -/
def readKey (s : State) : State :=
  s.dropLevel.emit (.pinRead (pinId s.cfg (.key s.cfg.termKey)) (keyLevel s))

/-- `KEYCHK` (R185): pressed only if both reads show the pressed level; the delay and the second read are
skipped when the first shows another. -/
def keyCheck (s : State) : Bool × State :=
  if keyLevel s = s.cfg.keyPressedLevel then
    let s' := (readKey s).pause s.cfg.lit.tDebounce
    (keyLevel s' = s'.cfg.keyPressedLevel, readKey s')
  else (false, readKey s)

/-- `SLEEP` (R187). -/
def hostSleep (s : State) : State := s.pause s.cfg.lit.tRefresh

/-! ### The sequences of the host's states (R188 to R191) -/

/-- One action of the host. -/
inductive HostAct where
  | pinSetup
  | buzz
  | serOpen
  /-- A command is handed over at the block's command port; the host acts again when it is done (20_memory.md
  R64 (a)). -/
  | call (i : Instr)
  /-- The value the last measurement returned becomes `t` or `h` (R189). -/
  | keep (kind : Kind)
  /-- The two readings are formatted and `RSTR` of the text is handed over (R186, R189). -/
  | display
  | ledReady
  | sleep
  /-- The key check that ends an iteration (R189). -/
  | keyCheck
  | serClose
  /-- `HS <- …`: the first action of another state's sequence comes next. -/
  | enter (h : HostState)
  /-- `HS <- Stopped ; emit Exit(0)` (R190). -/
  | exit
  deriving DecidableEq, Repr

/-- The sequence of actions of each state of the host (R188, R189, R190; nothing happens in `Stopped`, R191). -/
def hostScript (cfg : Config) : HostState → List HostAct
  | .init =>
    [.pinSetup, .buzz, .serOpen, .call (.sopen cfg.sensorAddr), .call .init, .buzz, .ledReady, .enter .running]
  | .running =>
    [.call .rdtemp, .keep .t, .call .rdhum, .keep .rh, .display, .sleep, .keyCheck]
  | .finalizing => [.buzz, .call .clear, .serClose, .exit]
  | .stopped => []

/-- `HS <- h`, at the beginning of its sequence. -/
def enterHost (h : HostState) (s : State) : State := { s with hs := h, hpos := 0 }

/-- A command's packet is put at the command port (30_encoding.md R81). -/
def handOver (i : Instr) (s : State) : State := { s with cmd := s.cmd ++ encode s.cfg i }

/-- The value of the last event of the trace, where that is a result of the kind asked for: what the block's
operation returned to the host (41_sensor_engine.md R154, R155; 30_encoding.md R89). -/
def returned (kind : Kind) (tr : List Event) : Option Binary64 :=
  match tr.getLast? with
  | some (.result k v) => if k = kind then some v else none
  | _ => none

/-- `RDTEMP -> t`, `RDHUM -> h` (R189): the value just returned, never an older one (41_sensor_engine.md R163; log
entry 6). -/
def keepReading (kind : Kind) (s : State) : State :=
  match kind with
  | .t => { s with hostT := returned .t s.tr }
  | .rh => { s with hostH := returned .rh s.tr }

/-- How long a text a packet carries: `MAXLEN`, and no more than its length byte can say (10_state.md R27,
30_encoding.md R81). -/
def textMax (cfg : Config) : Nat := min cfg.maxLen lenMax

/-- The text of two readings, as much of it as one packet holds (R186, R189; log entry 12). -/
def displayText (cfg : Config) (t h : Binary64) : List Code := (hostText cfg t h).take (textMax cfg)

/-- The readings of the iteration are gone (41_sensor_engine.md R163: "never cached or persisted"; log entry 6). -/
def dropReadings (s : State) : State := { s with hostT := none, hostH := none }

/-- `text <- HOST_FMT(t, h)`, `RSTR text` (R186, R189): the text of the two readings is handed over, and the readings
are not kept. Without both of them, which no run of the host reaches, the text is a free value (log entry 6). -/
def display (s : State) : State :=
  match s.hostT, s.hostH with
  | some t, some h => dropReadings (handOver (.rstr (displayText s.cfg t h)) s)
  | _, _ =>
    let text := ((Config.freeHostText s.env.drawn).map BitVec.toNat).take (textMax s.cfg)
    { dropReadings (handOver (.rstr text) s) with env := { s.env with drawn := s.env.drawn + 1 } }

/-- What one action of the host does; the position has already moved past it. -/
def hostAct : HostAct → State → State
  | .pinSetup, s => pinSetup s
  | .buzz, s => buzz s
  | .serOpen, s => serOpen s
  | .call i, s => handOver i s
  | .keep kind, s => keepReading kind s
  | .display, s => display s
  | .ledReady, s => ledReady s
  | .sleep, s => hostSleep s
  | .keyCheck, s =>
    let r := keyCheck s
    if r.1 then enterHost .finalizing r.2 else enterHost .running r.2
  | .serClose, s => serClose s
  | .enter h, s => enterHost h s
  | .exit, s => (enterHost .stopped s).emit (.exit s.cfg.lit.exitOk)

/-- The host's next action, when no command waits. With no action left nothing happens: the host has stopped
(R191; log entry 18). While an operation is in progress the host does nothing (20_memory.md R64 (a)). -/
def hostStep (s : State) : Host.Outcome State Fault Refusal :=
  if s.quiet then
    match (hostScript s.cfg s.hs)[s.hpos]? with
    | some act => .next (hostAct act { s with hpos := s.hpos + 1 })
    | none => .next s
  else .refused .busy

end Sys2Proof.Machine
end

