-- ==== Sys2Proof/Machine/Step.lean ====
section
/-! DEFINITION. One step of the machine. -/

namespace Sys2Proof.Machine

/-- One step. While `FATAL` is set nothing happens and no command is taken (10_state.md R30; log entry 16). Else
an operation waiting at a port is run to completion (20_memory.md R64), and when none waits the host takes its
next action. Bytes at the port that spell no operation are refused as `IllegalCommand`, also while an operation is in
progress: DESIGN CHOICE, 60_exceptions.md R219 gives `IllegalCommand` and `Busy` no order (log entry 17). -/
def step (s : State) : Host.Outcome State Fault Refusal :=
  if s.fatal.isSome then .next s
  else
    match fetch s with
    | .run i s' => exec i s'
    | .nothing => hostStep s
    | .bad r => .refused r

/-- `s` with the word of a table row where `step` fetches its next instruction (log entries 14, 15). -/
def State.withFetchWord (s : State) (nbits w : Nat) : State := place nbits w s

end Sys2Proof.Machine
end

