-- ==== Sys2Proof/Safety.lean ====
section
/-! DEFINITION. The terms claims use: when an operation can run, what a trace of whole frames is, what the display
registers follow from, the text's rendering units, and the invariants of a safe run. -/

namespace Sys2Proof.Machine

/-! ### When an operation can run -/

/-- Commands are accepted: no fatal stop, and no operation in progress (10_state.md R20, R30, 60_exceptions.md
R219). -/
abbrev Accepting (s : State) : Prop := s.fatal = none ∧ s.seq = Sequencer.idle ∧ s.cs = .released

/-- A display operation runs (40_display_encoder.md R110). -/
abbrev DisplayReady (s : State) : Prop := Accepting s ∧ s.ser ≠ none

/-- A measurement runs, on the session `h` (41_sensor_engine.md R150). -/
abbrev SensorReady (s : State) (h : Handle) : Prop := Accepting s ∧ s.sh = some h

/-- `SOPEN` runs (41_sensor_engine.md R150). -/
abbrev SessionClosed (s : State) : Prop := Accepting s ∧ s.sh = none

/-- The host takes its next action `act`: nothing waits at a port, and `act` is next in the sequence of its state
(20_memory.md R64 (a), 42_host_sequence.md R188 to R190). -/
abbrev HostNext (s : State) (act : HostAct) : Prop :=
  Accepting s ∧ s.wire = none ∧ s.cmd = [] ∧ (hostScript s.cfg s.hs)[s.hpos]? = some act

/-! ### Traces -/

/-- The three events of one frame (40_display_encoder.md R113). -/
def frameEvents (a : RegAddr) (d : Data) : List Event := [.csAssert, .xfer (frameOf a d), .csRelease]

/-- The events of a list of register writes, one frame each (40_display_encoder.md R115). -/
def writeEvents (ws : List (RegAddr × Data)) : List Event := ws.flatMap fun w => frameEvents w.1 w.2

/-- The digit register of a slot, as a number (10_state.md R21, 00_scope.md R7 `DIGIT_BASE`). -/
def slotReg (cfg : Config) (k : Nat) : RegAddr := BitVec.ofNat AW (k + cfg.lit.digitBase)

/-- The slots in ascending order, `NSLOT` of them (10_state.md R21, R26). -/
def allSlots (cfg : Config) : List Nat := List.range cfg.lit.nSlot

/-- The writes that blank the digits, one for each slot, ascending (40_display_encoder.md R130). -/
def clearWrites (cfg : Config) : List (RegAddr × Data) := (allSlots cfg).map fun k => (slotReg cfg k, 0#DW)

/-- The thirteen writes of `INIT`, in order (40_display_encoder.md R111, R112). -/
def initWrites (cfg : Config) : List (RegAddr × Data) :=
  [(cfg.regDecode, cfg.valDecodeOff), (cfg.regScan, cfg.valScanAll8), (cfg.regIntensity, cfg.valIntensityMedium),
    (cfg.regMode, cfg.valModeNormal), (cfg.regTest, cfg.valTestOff)] ++ clearWrites cfg

/-- The five events of a measurement and its result (41_sensor_engine.md R153 to R155). -/
def measureEvents (cfg : Config) (cmd b0 b1 : Byte) (kind : Kind) (v : Binary64) : List Event :=
  [.busCmd cmd, .wait cfg.lit.tSettle, .busRead b0, .busRead b1, .result kind v]

/-- Where a reader of the chip-select line stands in a frame. -/
inductive FramePhase where
  | released | asserted | sent | broken
  deriving DecidableEq, Repr

/-- An assert opens a frame when none is open. -/
def FramePhase.onAssert : FramePhase → FramePhase
  | .released => .asserted
  | .asserted => .broken
  | .sent => .broken
  | .broken => .broken

/-- The one transfer of a frame comes right after its assert, and the bits above its address are clear. -/
def FramePhase.onXfer (bytes : FrameWord) : FramePhase → FramePhase
  | .released => .broken
  | .asserted => if frameClear bytes then .sent else .broken
  | .sent => .broken
  | .broken => .broken

/-- A release ends a frame whose transfer is done. -/
def FramePhase.onRelease : FramePhase → FramePhase
  | .released => .broken
  | .asserted => .broken
  | .sent => .released
  | .broken => .broken

/-- Any other event stands outside a frame. -/
def FramePhase.onOther : FramePhase → FramePhase
  | .released => .released
  | .asserted => .broken
  | .sent => .broken
  | .broken => .broken

/-- One event: a frame is an assert, exactly one two-byte transfer with a clear upper nibble, a release, and
nothing between them (70_reset_and_hazards.md R245, 40_display_encoder.md R113, R115). -/
def FramePhase.next (p : FramePhase) : Event → FramePhase
  | .csAssert => p.onAssert
  | .xfer bytes => p.onXfer bytes
  | .csRelease => p.onRelease
  | .unsupported _ | .busOpen _ _ | .busCmd _ | .wait _ | .busRead _ | .result _ _ | .diag _ | .fatal _ | .pinCfg _ _ |
    .pinWrite _ _ | .pinRead _ _ | .serOpen _ | .serClose | .release | .exit _ => p.onOther

/-- A trace in which every transfer stands in a whole frame and no frame is open at the end. -/
abbrev WellFramed (tr : List Event) : Prop := tr.foldl FramePhase.next .released = .released

/-- The display controller's registers after the transfers of a trace, from given contents: each changes only by
a transfer that addresses it (10_state.md R37). -/
def replay (x : Registers) : List Event → Registers
  | [] => x
  | .xfer bytes :: evs => replay (x.set (frameAddr bytes).toNat (frameData bytes)) evs
  | _ :: evs => replay x evs

/-- How many frames a trace holds (one transfer each). -/
def frameCount (tr : List Event) : Nat :=
  tr.countP fun | .xfer _ => true | _ => false

/-- How many `Unsupported` reports a trace holds. -/
def unsupportedCount (tr : List Event) : Nat :=
  tr.countP fun | .unsupported _ => true | _ => false

/-! ### The text of `RSTR` -/

/-- The rendering units of a text, each a character with the period directly after it, if any (00_scope.md
section 7, 40_display_encoder.md R123, R125). -/
def units (cfg : Config) : List Code → List (Code × Bool)
  | [] => []
  | [c] => [(c, false)]
  | c :: n :: rest => if n = cfg.period then (c, true) :: units cfg rest else (c, false) :: units cfg (n :: rest)

/-- What slot `k` shows of a text: its unit, or a blank (40_display_encoder.md R123, R124). -/
def unitAt (cfg : Config) (text : List Code) (k : Nat) : Code × Bool :=
  ((units cfg text)[k]?).getD (cfg.space, false)

/-- The events of one slot: one frame, or one `Unsupported` (40_display_encoder.md R117, R123). -/
def slotEvents (cfg : Config) (k : Nat) (u : Code × Bool) : List Event :=
  match cfg.glyph u.1 with
  | none => [.unsupported u.1]
  | some p => frameEvents (slotReg cfg k) (if u.2 then p ||| cfg.dpBit else p)

/-- The events of a whole text (40_display_encoder.md R123). -/
def textEvents (cfg : Config) (text : List Code) : List Event :=
  (allSlots cfg).flatMap fun k => slotEvents cfg k (unitAt cfg text k)

/-- The blank frames of the slots from a given one on (40_display_encoder.md R124). -/
def blanksFrom (cfg : Config) (k : Nat) : List Event := writeEvents ((clearWrites cfg).drop k)

/-! ### Numbers -/

/-- The value of a finite binary64 pattern, as a rational number (30_encoding.md R89). -/
def value64 (v : Binary64) : ℚ := (ratioOf v).signed / (ratioOf v).den

/-! ### Packets -/

/-- Bytes, at least one, that begin with no legal packet (30_encoding.md R88, its (a) to (d)). -/
inductive SpellsNothing : List Byte → Prop where
  | opcode (b0 : Byte) (rest : List Byte)
      (h : b0.toNat ∉ [0x01, 0x02, 0x03, 0x04, 0x05, 0x10, 0x11, 0x12]) : SpellsNothing (b0 :: rest)
  | address (b1 : Byte) (rest : List Byte) (h : b1.toNat / 16 ≠ 0) : SpellsNothing (0x02#8 :: b1 :: rest)
  | slot (b1 : Byte) (rest : List Byte) (h : b1.toNat / 8 % 16 ≠ 0) : SpellsNothing (0x03#8 :: b1 :: rest)
  | shortAD (rest : List Byte) (h : rest.length < 2) : SpellsNothing (0x02#8 :: rest)
  | shortSC (rest : List Byte) (h : rest.length < 2) : SpellsNothing (0x03#8 :: rest)
  | shortTX : SpellsNothing [0x04#8]
  | shortText (len : Byte) (rest : List Byte) (h : rest.length < len.toNat) :
      SpellsNothing (0x04#8 :: len :: rest)
  | shortBA : SpellsNothing [0x10#8]

/-! ### Invariants -/

/-- A handle that can be stored: not negative, and a signed integer of `HANDLEW` bits (10_state.md R29). -/
abbrev StoredHandle (cfg : Config) (h : Int) : Prop := 0 ≤ h ∧ h < 2 ^ (cfg.handleW - 1)

/-- What every state between two steps is like. -/
structure Inv (s : State) : Prop where
  /-- No value in the sequencer between operations (10_state.md R20, R25, R26, R31, R34). -/
  idle : s.seq = Sequencer.idle
  /-- The chip-select is released whenever no frame is in progress (10_state.md R28). -/
  released : s.cs = .released
  /-- A stored serial handle is a signed integer of `HANDLEW` bits, never negative (10_state.md R29). -/
  serHandle : ∀ h, s.ser = some h → StoredHandle s.cfg h
  /-- A stored session handle is a signed integer of `HANDLEW` bits, never negative (10_state.md R29). -/
  shHandle : ∀ h, s.sh = some h → StoredHandle s.cfg h
  /-- Every transfer so far stands in a whole frame (70_reset_and_hazards.md R245). -/
  framed : WellFramed s.tr
  /-- After a fatal condition the host is stopped (60_exceptions.md R217). -/
  stopped : s.fatal ≠ none → s.hs = .stopped
  /-- There is a level for each LED (10_state.md R36, 00_scope.md R7 `N_LED`). -/
  ledCount : s.leds.length = s.cfg.lit.nLed
  /-- The configuration keeps the spec's constraints (00_scope.md R8, R9, R10; 10_state.md R23). -/
  params : s.cfg.Wf

/-- The command the host has handed over and that waits at the port: none, or the packet of the action just
taken. -/
def HostPending (s : State) : Prop :=
  s.cmd = [] ∨
  ∃ act, 0 < s.hpos ∧ (hostScript s.cfg s.hs)[s.hpos - 1]? = some act ∧
    ((∃ i, act = .call i ∧ s.cmd = encode s.cfg i) ∨
      (act = .display ∧ ∃ text : List Code, text.length ≤ lenMax ∧ s.cmd = encode s.cfg (.rstr text)))

/-- Which handles the host holds at each point of its sequences (70_reset_and_hazards.md R242, R243;
42_host_sequence.md R188 to R190). -/
def HostHandles (s : State) : Prop :=
  match s.hs with
  | .init =>
    (3 ≤ s.hpos → s.ser ≠ none) ∧
    (s.hpos ≤ 3 ∨ (s.hpos = 4 ∧ s.cmd ≠ []) → s.sh = none) ∧
    (5 ≤ s.hpos ∨ (s.hpos = 4 ∧ s.cmd = []) → s.sh ≠ none)
  | .running => s.ser ≠ none ∧ s.sh ≠ none
  | .finalizing => s.hpos ≤ 2 → s.ser ≠ none
  | .stopped => True

/-- A reading lives from its measurement to the display of the same iteration and nowhere else (41_sensor_engine.md
R163: "computed fresh on every poll iteration; never cached or persisted"; log entry 6): the host holds `t` before its
actions 2 to 4 and `h` before its action 4, and where it takes one, its measurement has just returned it. -/
def HostReadings (s : State) : Prop :=
  match s.hs with
  | .init => s.hostT = none ∧ s.hostH = none
  | .running =>
    (s.hostT ≠ none ↔ 2 ≤ s.hpos ∧ s.hpos ≤ 4) ∧ (s.hostH ≠ none ↔ s.hpos = 4) ∧
    (s.hpos = 1 → s.cmd = [] → returned .t s.tr ≠ none) ∧
    (s.hpos = 3 → s.cmd = [] → returned .rh s.tr ≠ none)
  | .finalizing => s.hostT = none ∧ s.hostH = none
  | .stopped => s.hostT = none ∧ s.hostH = none

/-- The states of a run in which only the host issues commands: the invariant of every state, nothing on the
wires, the host inside its sequence, and, unless the run has stopped fatally, the handles and the waiting
command the sequence calls for, and no reading held longer than its iteration needs it. -/
structure LoopInv (s : State) : Prop where
  inv : Inv s
  noWire : s.wire = none
  place : s.hs = .stopped ∨ s.hpos < (hostScript s.cfg s.hs).length
  pending : s.fatal ≠ none ∨ HostPending s
  handles : s.fatal ≠ none ∨ HostHandles s
  readings : HostReadings s

/-- `n` steps of the machine, stopping at the first fault or refusal. -/
def stepsFrom (n : Nat) (s : State) : Host.Outcome State Fault Refusal := Sys2Proof.core.run n s

/-- A run is safe for `n` steps when it neither faults nor is refused in them (60_exceptions.md R219: no claim
may be proved of a run that contains a refusal). -/
def SafeRun (n : Nat) (s : State) : Prop := ∃ t, stepsFrom n s = .next t

end Sys2Proof.Machine
end

