-- ==== Sys2Proof/Certificates/Slice0/Obligations.lean ====
section
/-! DEFINITION. The statements about the machine, each with the rule of the spec it formalises. Every statement holds
for all parameters (`s.cfg` is arbitrary, or arbitrary under the spec's own constraints `Config.Wf`) and for all
answers of the environment (`s.env` is arbitrary, and where its lists end the answers are free values). Where a number
of 00_scope.md R7 stands in a statement, its premise is `Config.LitWf`: the literals are the document's (R8). -/

open Sys2Proof Sys2Proof.Machine

/-! ### Reset, fetching and decoding -/

/-- What reset leaves (70_reset_and_hazards.md R240, the spec's own decision D23), whatever the parameters and
whatever the display controller holds, which is unspecified (R241). `State.reset` is one of these states (which
one is the model's choice, log entries 2 and 4). -/
def Obligations.ResetLeavesSpecValues : Prop :=
  (∀ (cfg : Config) (x : Registers),
    let s := State.resetWith cfg x
    s.cs = .released ∧ s.ser = none ∧ s.sh = none ∧ s.fatal = none ∧ s.tr = [] ∧ s.hs = .init ∧
      s.seq = Sequencer.idle ∧ s.x = x ∧ s.cfg = cfg) ∧
  ∃ (cfg : Config) (x : Registers), State.reset = State.resetWith cfg x

/-- The state after reset meets the invariant, under all parameters the spec allows (10_state.md R41), and so does
the invariant of the host's own runs. -/
def Obligations.ResetMeetsInvariants : Prop :=
  Config.reference.Wf ∧
  ∀ (cfg : Config) (x : Registers) (env : Env), cfg.Wf →
    Inv { State.resetWith cfg x with env := env } ∧ LoopInv { State.resetWith cfg x with env := env }

/-- A step runs the operation whose bytes wait: on a wire, else at the command port; when nothing waits the host
acts. That one whole operation, or one action of the host, is a step is read from 20_memory.md R64 (log entry 1). The
model's choices: bytes at the port run before the host's next action, whatever state the host is in (log entry 15); the
bytes after a packet stay at the port (log entry 22); a wire word runs by itself (log entry 13), and bytes on a wire
that are not exactly one word of it are refused (log entry 21). -/
def Obligations.StepRunsDecodedInstruction : Prop :=
  (∀ (s : State) (i : Instr) (rest : List Byte), s.fatal = none → s.wire = none →
    decode s.cfg .command s.cmd = .ok (i, rest) → step s = exec i { s with cmd := rest }) ∧
  (∀ (s : State) (link : Link) (bytes : List Byte) (i : Instr), s.fatal = none →
    s.wire = some (link, bytes) →
    (decode s.cfg link bytes = .ok (i, []) → step s = exec i { s with wire := none }) ∧
    ((∀ j, decode s.cfg link bytes ≠ .ok (j, [])) → step s = .refused .illegalWireWord)) ∧
  (∀ s : State, s.fatal = none → s.wire = none → s.cmd = [] → step s = hostStep s)

/-- Exactly the packets of 30_encoding.md R88 (a) to (d) spell no operation, every other begins with a legal one,
and such a packet is refused: `IllegalCommand` (the spec's own decision D29; where a packet ends is log entry
22, and that it is named so even while an operation is in progress is the model's choice, log entry 17). -/
def Obligations.IllegalPacketsAreRefused : Prop :=
  (∀ (cfg : Config) (bytes : List Byte), bytes ≠ [] →
    ((∃ e, decode cfg .command bytes = .error e) ↔ SpellsNothing bytes)) ∧
  (∀ s : State, s.fatal = none → s.wire = none → SpellsNothing s.cmd → step s = .refused .illegalCommand)

/-- Words written out from the encodings of the spec decode to what they stand for (30_encoding.md R82, R86, R87).
That the bytes after a packet are the next packet is log entry 22. -/
def Obligations.SpecWordsDecode : Prop :=
  ∀ cfg : Config,
    decode cfg .command [0x01#8] = .ok (.init, []) ∧
    decode cfg .command [0x02#8, 0x0F#8, 0x55#8] = .ok (.wreg 0xF#4 0x55#8, []) ∧
    decode cfg .command [0x03#8, 0x87#8, 0x38#8] = .ok (.rchar 7#3 0x38 true, []) ∧
    decode cfg .command [0x04#8, 0x02#8, 0x31#8, 0x2E#8, 0x05#8] = .ok (.rstr [0x31, 0x2E], [0x05#8]) ∧
    decode cfg .command [0x10#8, 0x40#8] = .ok (.sopen 0x40#8, []) ∧
    decode cfg .command [0x12#8] = .ok (.rdhum, []) ∧
    decode cfg .display [0x03#8, 0x6D#8] = .ok (.dframe 0x3#4 0x6D#8, []) ∧
    decode cfg .busRead [0x63#8, 0x38#8] = .ok (.sdata 0x6338#16, [])

/-- Decoding an encoded instruction gives it back, for every instruction whose operands fit its packet (every
well-formed one does), every operand and any bytes after it (30_encoding.md R81 to R83, R86, R87). That the bytes
after a packet are the next packet is log entry 22; that a packet carries one byte for each character whatever CHARW
is, is log entry 9. -/
def Obligations.DecodeEncodeAgree : Prop :=
  (∀ (cfg : Config) (i : Instr), i.wf cfg = true → i.fits = true) ∧
  ∀ (cfg : Config) (i : Instr) (rest : List Byte), cfg.cmdTrigT ≠ cfg.cmdTrigRh → i.fits = true →
    decode cfg i.link (encode cfg i ++ rest) = .ok (i, rest)

/-- Every accepted word has one meaning: what the decoder accepts is the encoding of what it answers, on that
link, and the bytes after it are untouched (30_encoding.md R81 to R83, R86, R87). Where a character code has a byte's
width and a packet any length its length byte can say, as 30_encoding.md R84 and R81 have it, it is well formed. That
the bytes after a packet are the next packet is log entry 22; what the widths CHARW and MAXLEN make of a packet is log
entry 9. -/
def Obligations.AcceptedBytesAreTheEncoding : Prop :=
  ∀ (cfg : Config) (link : Link) (bytes : List Byte) (i : Instr) (rest : List Byte),
    decode cfg link bytes = .ok (i, rest) →
    i.link = link ∧ i.fits = true ∧ encode cfg i ++ rest = bytes ∧
      (8 ≤ cfg.charW → lenMax ≤ cfg.maxLen → i.wf cfg = true)

/-- How a decoder tells the length (30_encoding.md R83, the spec's own decision D2): the packet it accepts has the
length its opcode and, for `RSTR`, its length byte give; any other byte is a reserved opcode, reported as such, with
that one byte consumed. What a refused packet consumes is log entry 22. -/
def Obligations.DecoderTellsTheLength : Prop :=
  ∀ (cfg : Config) (b0 : Byte) (bytes : List Byte),
    (∀ i rest, decode cfg .command (b0 :: bytes) = .ok (i, rest) →
      ∃ packet, packet ++ rest = b0 :: bytes ∧
        ((b0.toNat ∈ [0x01, 0x05, 0x11, 0x12] ∧ packet.length = 1) ∨ (b0 = 0x10#8 ∧ packet.length = 2) ∨
          (b0.toNat ∈ [0x02, 0x03] ∧ packet.length = 3) ∨
          (b0 = 0x04#8 ∧ ∃ len, bytes.head? = some len ∧ packet.length = 2 + len.toNat))) ∧
    (b0.toNat ∉ [0x01, 0x02, 0x03, 0x04, 0x05, 0x10, 0x11, 0x12] →
      decode cfg .command (b0 :: bytes) = .error ⟨.reservedOpcode b0, bytes⟩)

/-! ### Display operations -/

/-- `WREG` (40_display_encoder.md R113): exactly three events, the register takes the byte, no other register
changes, and nothing else of the state. -/
def Obligations.WregWritesOneRegister : Prop :=
  ∀ (s : State) (a : RegAddr) (d : Data), DisplayReady s →
    ∃ t, exec (.wreg a d) s = .next t ∧
      t.tr = s.tr ++ [.csAssert, .xfer #v[0#4 ++ a, d], .csRelease] ∧
      t.reg a = d ∧ (∀ b, b ≠ a → t.reg b = s.reg b) ∧
      t = { s with tr := t.tr, x := t.x }

/-- `INIT` (40_display_encoder.md R111): thirteen frames, always, in the listed order; the five configuration
registers hold the five values, the digits are zero, every other register is unchanged, and nothing else of
the state changes. The order is that of R111's pseudocode (R112, the spec's own decision D10,
log entry 20). -/
def Obligations.InitWritesThirteenFrames : Prop :=
  ∀ s : State, DisplayReady s → s.cfg.LitWf → s.cfg.RegsWf →
    ∃ t, exec .init s = .next t ∧
      t.tr = s.tr ++ writeEvents (initWrites s.cfg) ∧ frameCount (writeEvents (initWrites s.cfg)) = 13 ∧
      t.reg s.cfg.regDecode = s.cfg.valDecodeOff ∧ t.reg s.cfg.regScan = s.cfg.valScanAll8 ∧
      t.reg s.cfg.regIntensity = s.cfg.valIntensityMedium ∧ t.reg s.cfg.regMode = s.cfg.valModeNormal ∧
      t.reg s.cfg.regTest = s.cfg.valTestOff ∧
      (∀ k < s.cfg.lit.nSlot, t.reg (slotReg s.cfg k) = 0x00#8) ∧
      (∀ a : RegAddr, a ∉ s.cfg.configRegs → (∀ k < s.cfg.lit.nSlot, a ≠ slotReg s.cfg k) → t.reg a = s.reg a) ∧
      t = { s with tr := t.tr, x := t.x }

/-- `INIT` (40_display_encoder.md R111) where the five configuration registers break the constraint of 00_scope.md R10:
it still completes with its thirteen frames, and the digits, written last, end blank. The order of the frames is the
spec's own decision D10 (R112, log entry 20). -/
def Obligations.InitBlanksUnderAnyParameters : Prop :=
  ∀ s : State, DisplayReady s → s.cfg.LitWf →
    ∃ t, exec .init s = .next t ∧ t.tr = s.tr ++ writeEvents (initWrites s.cfg) ∧
      (∀ k < s.cfg.lit.nSlot, t.reg (slotReg s.cfg k) = 0x00#8) ∧ t = { s with tr := t.tr, x := t.x }

/-- `CLEAR` (40_display_encoder.md R130): eight frames, ascending; the digits are zero, every other register is
unchanged, and nothing else of the state. It does not depend on the font. The order is the spec's own decision D10. -/
def Obligations.ClearZeroesTheDigits : Prop :=
  ∀ s : State, DisplayReady s → s.cfg.LitWf →
    ∃ t, exec .clear s = .next t ∧
      t.tr = s.tr ++ writeEvents (clearWrites s.cfg) ∧ frameCount (writeEvents (clearWrites s.cfg)) = 8 ∧
      (∀ k < s.cfg.lit.nSlot, t.reg (slotReg s.cfg k) = 0x00#8) ∧
      (∀ a : RegAddr, (∀ k < s.cfg.lit.nSlot, a ≠ slotReg s.cfg k) → t.reg a = s.reg a) ∧
      t = { s with tr := t.tr, x := t.x }

/-- `RCHAR` (40_display_encoder.md R117, R119): a supported character gives exactly the register write
`(slot + 1, pattern)`, ORed with the decimal-point bit when requested; an unsupported one gives exactly the
report of its ordinal, no frame, and no register changes. -/
def Obligations.RcharWritesOrReports : Prop :=
  ∀ (s : State) (k : Slot) (c : Code) (dp : Bool), DisplayReady s → s.cfg.LitWf →
    (∀ p, s.cfg.glyph c = some p →
      let r : RegAddr := BitVec.ofNat AW (k.toNat + 1)
      let d := if dp then p ||| s.cfg.dpBit else p
      ∃ t, exec (.rchar k c dp) s = .next t ∧
        t.tr = s.tr ++ [.csAssert, .xfer #v[0#4 ++ r, d], .csRelease] ∧
        t.reg r = d ∧ (∀ b, b ≠ r → t.reg b = s.reg b) ∧
        t = { s with tr := t.tr, x := t.x }) ∧
    (s.cfg.glyph c = none →
      exec (.rchar k c dp) s = .next { s with tr := s.tr ++ [.unsupported c] })

/-- The period and the space in `RCHAR` (40_display_encoder.md R120 (b), (c), (d)): a period is never written, a
space blanks the digit, a space with the point shows a lone decimal point. -/
def Obligations.RcharPeriodAndSpace : Prop :=
  ∀ (s : State) (k : Slot), DisplayReady s → s.cfg.Wf →
    (∀ dp, exec (.rchar k s.cfg.period dp) s =
      .next { s with tr := s.tr ++ [.unsupported s.cfg.period] }) ∧
    (∃ t, exec (.rchar k s.cfg.space false) s = .next t ∧
      t.tr = s.tr ++ frameEvents (slotReg s.cfg k.toNat) 0x00#8 ∧ t.reg (slotReg s.cfg k.toNat) = 0x00#8) ∧
    (∃ t, exec (.rchar k s.cfg.space true) s = .next t ∧
      t.tr = s.tr ++ frameEvents (slotReg s.cfg k.toNat) s.cfg.dpBit ∧ t.reg (slotReg s.cfg k.toNat) = s.cfg.dpBit)

/-- `RSTR` (40_display_encoder.md R123): the cursor walk shows the text's rendering units, one per slot and blanks
after them: each slot gets one frame or one report, in slot order; its register takes the pattern or keeps
what it held; no other register and nothing else of the state changes. For a text of any length (10_state.md
R27). -/
def Obligations.RstrShowsTheUnits : Prop :=
  ∀ (s : State) (text : List Code), DisplayReady s → s.cfg.LitWf →
    ∃ t, exec (.rstr text) s = .next t ∧
      t.tr = s.tr ++ textEvents s.cfg text ∧
      (∀ k < s.cfg.lit.nSlot, t.reg (slotReg s.cfg k) =
        match s.cfg.glyph (unitAt s.cfg text k).1 with
        | some p => if (unitAt s.cfg text k).2 then p ||| s.cfg.dpBit else p
        | none => s.reg (slotReg s.cfg k)) ∧
      (∀ a : RegAddr, (∀ k < s.cfg.lit.nSlot, a ≠ slotReg s.cfg k) → t.reg a = s.reg a) ∧
      t = { s with tr := t.tr, x := t.x }

/-- Every slot of `RSTR` gives one frame or one report: the frames and the reports are eight together
(40_display_encoder.md R129 (d)). -/
def Obligations.RstrFramesAndReportsAreEight : Prop :=
  ∀ (s t : State) (text : List Code), DisplayReady s → s.cfg.LitWf → exec (.rstr text) s = .next t →
    ∃ evs, t.tr = s.tr ++ evs ∧ frameCount evs + unsupportedCount evs = 8

/-- Exhausted text (40_display_encoder.md R124): every slot after the last unit is blanked, and an empty text does
what `CLEAR` does. -/
def Obligations.RstrBlanksExhaustedSlots : Prop :=
  ∀ s : State, DisplayReady s → s.cfg.Wf →
    exec (.rstr []) s = exec .clear s ∧
    ∀ (text : List Code) (k : Nat), k < s.cfg.lit.nSlot → (units s.cfg text).length ≤ k →
      ∃ t, exec (.rstr text) s = .next t ∧ t.reg (slotReg s.cfg k) = 0x00#8

/-- Truncation (40_display_encoder.md R126): at most sixteen characters of the text are examined, so what follows
them changes nothing; and a ninth rendering unit is never shown. -/
def Obligations.RstrIgnoresExcessText : Prop :=
  (∀ (s : State) (text : List Code), s.cfg.LitWf → exec (.rstr text) s = exec (.rstr (text.take 16)) s) ∧
  (∀ (s : State) (text text' : List Code), s.cfg.LitWf → (units s.cfg text).take 8 = (units s.cfg text').take 8 →
    exec (.rstr text) s = exec (.rstr text') s)

/-- Stray periods (40_display_encoder.md R127 (a) to (d)): a leading period, a second period after a character,
two or three periods, a single period. `p` is the period; the events are listed slot by slot, and a slot that a
period costs keeps its old content. -/
def Obligations.RstrStrayPeriods : Prop :=
  ∀ s : State, DisplayReady s → s.cfg.Wf →
    let p := s.cfg.period
    let u : Event := .unsupported p
    let after (text : List Code) (evs : List Event) (kept : Nat) : Prop :=
      ∃ t, exec (.rstr text) s = .next t ∧ t.tr = s.tr ++ evs ∧ t.reg (slotReg s.cfg kept) = s.reg (slotReg s.cfg kept)
    (∀ c, c ≠ p → after [p, c] ([u] ++ slotEvents s.cfg 1 (c, false) ++ blanksFrom s.cfg 2) 0) ∧
    (∀ a c, c ≠ p →
      after [a, p, p, c] (slotEvents s.cfg 0 (a, true) ++ [u] ++ slotEvents s.cfg 2 (c, false) ++ blanksFrom s.cfg 3)
        1) ∧
    after [p, p] ([u] ++ blanksFrom s.cfg 1) 0 ∧
    (∀ a, after [a, p, p, p] (slotEvents s.cfg 0 (a, true) ++ [u] ++ blanksFrom s.cfg 2) 1) ∧
    after [p] ([u] ++ blanksFrom s.cfg 1) 0

/-- The operations that never reach beyond their registers (10_state.md R22, 40_display_encoder.md R129 (f)): an
address that is neither a digit (of a slot below `NSLOT`, or of a slot operand, which are the same eight with the
document's literals) nor a configuration register is changed by no operation but `WREG` and the bare frame, and
`RCHAR`, `RSTR`, `CLEAR` change digits only. That a bare frame, `DFRAME`, is an operation at all, and so an exception
beside `WREG`, is the model's choice, which R22 and R129 do not mention (log entry 13). -/
def Obligations.OnlyWregReachesOtherRegisters : Prop :=
  ∀ (i : Instr) (s t : State) (a : RegAddr), exec i s = .next t → (∀ k < s.cfg.lit.nSlot, a ≠ slotReg s.cfg k) →
    (∀ k : Slot, a ≠ slotReg s.cfg k.toNat) →
    (∀ d, i ≠ .wreg a d) → (∀ d, i ≠ .dframe a d) → (i = .init → a ∉ s.cfg.configRegs) →
    t.reg a = s.reg a

/-- A display operation, or a bare frame, while the serial channel is not open is refused (40_display_encoder.md
R110 (b), 60_exceptions.md R219, the spec's own decision D14; the bare frame is log entry 13). -/
def Obligations.DisplayRefusedWhileSerialClosed : Prop :=
  ∀ (s : State) (i : Instr), Accepting s → s.ser = none →
    (i = .init ∨ (∃ a d, i = .wreg a d) ∨ (∃ k c dp, i = .rchar k c dp) ∨ (∃ text, i = .rstr text) ∨ i = .clear ∨
      ∃ a d, i = .dframe a d) →
    exec i s = .refused .serialNotOpen

/-! ### Sensor operations -/

/-- `SOPEN` (41_sensor_engine.md R151, R152, 60_exceptions.md R217): the transport's answer is recorded; a handle
that is not negative is kept in `SH`; a negative one is the fatal stop with exit code 2, `SH` stays absent, and
the other handle keeps what it held. Nothing else changes. -/
def Obligations.SopenKeepsTheHandleOrStops : Prop :=
  ∀ (s : State) (addr : Byte), SessionClosed s → s.cfg.LitWf →
    let h := s.nextBusHandle addr
    ((0 : Int) ≤ h →
      exec (.sopen addr) s =
        .next { s with sh := some h, tr := s.tr ++ [.busOpen addr h], env := s.dropBusHandle.env }) ∧
    (h < (0 : Int) →
      exec (.sopen addr) s =
        .next { s with
          fatal := some .bus
          hs := .stopped
          tr := s.tr ++ [.busOpen addr h, .diag .busInitError, .fatal 2, .exit 2]
          env := s.dropBusHandle.env })

/-- A measurement, or a bare bus word, with no session, and a second `SOPEN`, are refused (41_sensor_engine.md
R150, 60_exceptions.md R219, the spec's own decision D15; the bare words are log entry 13). -/
def Obligations.SensorRefusedByItsHandle : Prop :=
  ∀ s : State, Accepting s →
    (s.sh = none → exec .rdtemp s = .refused .sensorNotOpen ∧ exec .rdhum s = .refused .sensorNotOpen ∧
      exec .scmdT s = .refused .sensorNotOpen ∧ exec .scmdRh s = .refused .sensorNotOpen ∧
      ∀ raw, exec (.sdata raw) s = .refused .sensorNotOpen) ∧
    (s.sh ≠ none → ∀ addr, exec (.sopen addr) s = .refused .sensorAlreadyOpen)

/-- `RDTEMP` (41_sensor_engine.md R153, R154, R156): the command, the wait, two bytes, the high one first, and the
converted value; two answers of the environment are consumed and nothing else of the state changes (R163: no
reading is kept). -/
def Obligations.RdtempMeasuresAndConverts : Prop :=
  ∀ (s : State) (h : Handle), SensorReady s h → s.cfg.LitWf →
    let b0 := s.nextByte h
    let b1 := s.dropByte.nextByte h
    exec .rdtemp s =
      .next { s with
        tr := s.tr ++ [.busCmd s.cfg.cmdTrigT, .wait 100, .busRead b0, .busRead b1, .result .t (convT s.cfg (b0 ++ b1))]
        env := s.dropByte.dropByte.env }

/-- `RDHUM` (41_sensor_engine.md R153, R155, R156), the same shape with its own command byte and conversion. -/
def Obligations.RdhumMeasuresAndConverts : Prop :=
  ∀ (s : State) (h : Handle), SensorReady s h → s.cfg.LitWf →
    let b0 := s.nextByte h
    let b1 := s.dropByte.nextByte h
    exec .rdhum s =
      .next { s with
        tr := s.tr ++ [.busCmd s.cfg.cmdTrigRh, .wait 100, .busRead b0, .busRead b1, .result .rh (convRh s.cfg (b0 ++ b1))]
        env := s.dropByte.dropByte.env }

/-- The humidity conversion is exact (41_sensor_engine.md R159, which the spec marks as derived): its value is
`(125 * raw - 393216) / 65536`. The binary64 arithmetic is the spec's own decision D20 (log entry 19). -/
def Obligations.HumidityConversionIsExact : Prop :=
  ∀ (cfg : Config) (raw : Raw), cfg.LitWf → cfg.ConvWf →
    isFinite64 (convRh cfg raw) = true ∧ value64 (convRh cfg raw) = (125 * (raw.toNat : ℚ) - 393216) / 65536

/-- The temperature conversion is within 10^-13 degrees of `T_exact(raw)` at every raw value. Derived from the
evaluation of 41_sensor_engine.md R158 (the spec's own decision D20, log entry 19), which gives the smaller bound
1.82e-14 for the distance to the nearest binary64 number, by a computation over all raw values. -/
def Obligations.TemperatureConversionIsNearExact : Prop :=
  ∀ (cfg : Config) (raw : Raw), cfg.LitWf → cfg.ConvWf →
    |value64 (convT cfg raw) - (4393 * (raw.toNat : ℚ) - 76759040) / 1638400| ≤ 1 / 10 ^ 13

/-- The ends of both conversions (41_sensor_engine.md R162 (c), (d), which the spec marks as derived). The binary64
arithmetic is the spec's own decision D20 (log entry 19). -/
def Obligations.ConversionEndpoints : Prop :=
  ∀ cfg : Config, cfg.LitWf → cfg.ConvWf →
    convT cfg 0x0000#16 = 0xC0476CCCCCCCCCCD#64 ∧ convT cfg 0xFFFF#16 = 0x40601BC113333333#64 ∧
    convRh cfg 0x0000#16 = 0xC018000000000000#64 ∧ convRh cfg 0xFFFF#16 = 0x405DBFE0C0000000#64

/-- Both conversions increase strictly and every result is finite (41_sensor_engine.md R162 (b), (f), which the
spec marks as derived; 30_encoding.md R89). The binary64 arithmetic is the spec's own decision D20 (log entry 19). -/
def Obligations.ConversionsIncreaseStrictly : Prop :=
  ∀ cfg : Config, cfg.LitWf → cfg.ConvWf →
    (∀ raw : Raw, isFinite64 (convT cfg raw) = true ∧ isFinite64 (convRh cfg raw) = true) ∧
    (∀ r r' : Raw, r.toNat < r'.toNat →
      value64 (convT cfg r) < value64 (convT cfg r') ∧ value64 (convRh cfg r) < value64 (convRh cfg r'))

/-- Where the results change sign (41_sensor_engine.md R154, R155, corner cases): the temperature is below zero up
to `raw` = 0x4441 and above from 0x4442 on, the humidity below up to 0x0C49 and above from 0x0C4A on; neither is
ever exactly zero. The binary64 arithmetic is the spec's own decision D20 (log entry 19). -/
def Obligations.ConversionSignChanges : Prop :=
  ∀ (cfg : Config) (raw : Raw), cfg.LitWf → cfg.ConvWf →
    (raw.toNat ≤ 0x4441 → value64 (convT cfg raw) < 0) ∧ (0x4442 ≤ raw.toNat → 0 < value64 (convT cfg raw)) ∧
    (raw.toNat ≤ 0x0C49 → value64 (convRh cfg raw) < 0) ∧ (0x0C4A ≤ raw.toNat → 0 < value64 (convRh cfg raw))

/-! ### The words of the wires -/

/-- `DFRAME` (30_encoding.md R86, 40_display_encoder.md R113): the two bytes `0000aaaa dddddddd`, framed by the
chip-select, and the register they address; nothing else changes. That it runs by itself is the model's choice
(log entry 13). -/
def Obligations.DframePutsOneFrame : Prop :=
  ∀ (s : State) (a : RegAddr) (d : Data), DisplayReady s →
    ∃ t, exec (.dframe a d) s = .next t ∧
      t.tr = s.tr ++ [.csAssert, .xfer #v[0#4 ++ a, d], .csRelease] ∧
      t.reg a = d ∧ (∀ b, b ≠ a → t.reg b = s.reg b) ∧
      t = { s with tr := t.tr, x := t.x }

/-- `SCMD_T`, `SCMD_RH` and `SDATA` (30_encoding.md R87, 20_memory.md R57): the command bytes are the two
parameters, the high byte of a raw value is read first; nothing else changes. That they run by themselves is
the model's choice (log entry 13). -/
def Obligations.BusWordsPutTheirBytes : Prop :=
  ∀ (s : State) (h : Handle), SensorReady s h →
    exec .scmdT s = .next { s with tr := s.tr ++ [.busCmd s.cfg.cmdTrigT] } ∧
    exec .scmdRh s = .next { s with tr := s.tr ++ [.busCmd s.cfg.cmdTrigRh] } ∧
    ∀ raw : Raw, exec (.sdata raw) s =
      .next { s with
        tr := s.tr ++ [.busRead (BitVec.ofNat 8 (raw.toNat / 256)), .busRead (BitVec.ofNat 8 (raw.toNat % 256))] }

/-- A measurement is its wire words and its wait (30_encoding.md R87, 41_sensor_engine.md R153): `RDTEMP` leaves the
trace of `SCMD_T`, then the settle wait, then `SDATA` of the raw value, then the result; `RDHUM` that of `SCMD_RH` and
the rest. That a wire word runs by itself is the model's choice (log entry 13). -/
def Obligations.MeasurementIsItsWireWords : Prop :=
  ∀ (s t c d : State) (h : Handle), SensorReady s h → s.cfg.LitWf →
    let raw : Raw := s.nextByte h ++ s.dropByte.nextByte h
    (exec .rdtemp s = .next t → exec .scmdT s = .next c → exec (.sdata raw) (c.pause 100) = .next d →
      t.tr = d.tr ++ [.result .t (convT s.cfg raw)]) ∧
    (exec .rdhum s = .next t → exec .scmdRh s = .next c → exec (.sdata raw) (c.pause 100) = .next d →
      t.tr = d.tr ++ [.result .rh (convRh s.cfg raw)])

/-! ### The fatal stop, busy, and the rules of the whole machine -/

/-- The `FATAL` latch (10_state.md R30): while it is set no event is emitted and every command is ignored, with no
state change (the spec's own decision D22). That the ignored command's bytes stay at the port, so that the step answers
the very same state, is log entry 16 (DEDUCED); that the wire words are among the operations is log entry 13. -/
def Obligations.FatalLatchIgnoresEverything : Prop :=
  ∀ (s : State) (k : FatalCode), s.fatal = some k → step s = .next s ∧ ∀ i, exec i s = .next s

/-- Busy (60_exceptions.md R219): any command handed over while another is running is refused, after the `FATAL`
test and before any other (R216; that order, and an asserted chip-select counting as busy, are log entry 17). That the
wire words are operations at all is log entry 13. -/
def Obligations.BusyCommandIsRefused : Prop :=
  ∀ (s : State) (i : Instr), s.fatal = none → (s.seq ≠ Sequencer.idle ∨ s.cs = .asserted) →
    exec i s = .refused .busy

/-- A step keeps the invariant, from every state that meets it (10_state.md R20, R28, R29; 70_reset_and_hazards.md
R245; 60_exceptions.md R217). That an answered serial handle is not negative is log entry 8 (DEDUCED); that a step may
run a wire word by itself is log entry 13. -/
def Obligations.StepKeepsInvariant : Prop :=
  ∀ s t : State, Inv s → step s = .next t → Inv t

/-- The trace only grows, and the display controller's registers change only by the transfers that a step adds to
it (10_state.md R33, R37, 20_memory.md R64 (d); the plain register file is the spec's own decision D9). That a step
may run a wire word by itself is log entry 13. -/
def Obligations.RegistersFollowTheTrace : Prop :=
  ∀ s t : State, step s = .next t → ∃ evs, t.tr = s.tr ++ evs ∧ t.x = replay s.x evs

/-- No step changes the font or any other compiled-in constant (10_state.md R23, R24). -/
def Obligations.ParametersNeverChange : Prop :=
  ∀ s t : State, step s = .next t → t.cfg = s.cfg

/-- Nothing but reset clears the sensor session's handle, and only `SOPEN` sets it (10_state.md R29): an operation
that is no `SOPEN`, and any action of the host, leaves it as it was (the spec's own decisions D14, D15). That the wire
words are among the operations is log entry 13. -/
def Obligations.SessionHandleIsKept : Prop :=
  (∀ (s t : State) (h : Handle), s.sh = some h → step s = .next t → t.sh = some h) ∧
  (∀ (i : Instr) (s t : State), exec i s = .next t → (∀ addr, i ≠ .sopen addr) → t.sh = s.sh) ∧
  (∀ s t : State, hostStep s = .next t → t.sh = s.sh)

/-- The fatal entry (60_exceptions.md R217, R212, R213): a step that sets the latch ends its trace with the
diagnostic, `Fatal(k)` and `Exit(k)`, stops the host, and leaves both handles, the registers and the chip-select
as they were. -/
def Obligations.FatalEntryStopsTheHost : Prop :=
  ∀ (s t : State) (k : FatalCode), s.fatal = none → step s = .next t → t.fatal = some k →
    t.hs = .stopped ∧ t.ser = s.ser ∧ t.sh = s.sh ∧ t.x = s.x ∧ t.cs = s.cs ∧
    (s.cfg.LitWf → k.code s.cfg.lit = match k with | .serial => 1 | .bus => 2) ∧
    ∃ pre ev, t.tr = s.tr ++ pre ++ [ev, .fatal (k.code s.cfg.lit), .exit (k.code s.cfg.lit)] ∧
      ev = match k with | .serial => .diag .serialInitError | .bus => .diag .busInitError

/-- Sensor operations do not use the serial channel and touch neither the chip-select nor a display register
(41_sensor_engine.md R150); display operations leave the sensor session alone (10_state.md R29) and read no pin, bus or
serial open (20_memory.md R52), so they consume none of the environment's answers. That the bytes the serial transfer
returns are not drawn at all is log entry 23 (40_display_encoder.md R114); the wire words are log entry 13. -/
def Obligations.DriversKeepToTheirTransports : Prop :=
  ∀ (i : Instr) (s t : State), exec i s = .next t →
    ((∃ addr, i = .sopen addr) ∨ i = .rdtemp ∨ i = .rdhum ∨ i = .scmdT ∨ i = .scmdRh ∨ (∃ raw, i = .sdata raw) →
      t.x = s.x ∧ t.cs = s.cs ∧ t.ser = s.ser) ∧
    (i = .init ∨ (∃ a d, i = .wreg a d) ∨ (∃ k c dp, i = .rchar k c dp) ∨ (∃ text, i = .rstr text) ∨ i = .clear ∨
      (∃ a d, i = .dframe a d) → t.sh = s.sh ∧ t.env = s.env ∧ t.fatal = s.fatal ∧ t.hs = s.hs)

/-! ### The host -/

/-- `BUZZ` (42_host_sequence.md R181): high, 100 ms, low. -/
def Obligations.HostBuzzPulse : Prop :=
  ∀ s : State, HostNext s .buzz → s.cfg.LitWf →
    step s = .next { s with
      tr := s.tr ++ [.pinWrite s.cfg.buzzPin .high, .wait 100, .pinWrite s.cfg.buzzPin .low]
      buzzer := .low
      hpos := s.hpos + 1 }

/-- `SEROPEN` (42_host_sequence.md R182, 60_exceptions.md R212): a handle is recorded and kept in `SER`; an error
is the fatal stop with exit code 1. -/
def Obligations.HostSerialOpen : Prop :=
  ∀ s : State, HostNext s .serOpen → s.cfg.LitWf →
    (∀ h, s.nextSerial = some h →
      step s = .next { s with
        ser := some h
        tr := s.tr ++ [.serOpen (some h)]
        env := s.dropSerial.env
        hpos := s.hpos + 1 }) ∧
    (s.nextSerial = none →
      step s = .next { s with
        fatal := some .serial
        hs := .stopped
        tr := s.tr ++ [.serOpen none, .diag .serialInitError, .fatal 1, .exit 1]
        env := s.dropSerial.env
        hpos := s.hpos + 1 })

/-- `SERCLOSE` (42_host_sequence.md R183): the channel is closed and the top-level handle released; the sensor
session stays open. -/
def Obligations.HostSerialClose : Prop :=
  ∀ s : State, HostNext s .serClose →
    step s = .next { s with ser := none, tr := s.tr ++ [.serClose, .release], hpos := s.hpos + 1 }

/-- `PINSETUP` and `LEDREADY` (42_host_sequence.md R180, R184, 70_reset_and_hazards.md R242): every pin of the calls
configured to the direction of its use, the chip-select among them as an output; four LEDs at their ready level, each
written once. The order of either, and whether `PINSETUP` makes ten calls or eleven, is a parameter (log entries 10
and 11). -/
def Obligations.HostPinsAndLeds : Prop :=
  (∀ s : State, HostNext s .pinSetup →
    step s = .next { s with
      tr := s.tr ++ s.cfg.pinCalls.map fun p =>
        .pinCfg (pinId s.cfg p) (match p with | .key _ => .input | .cs => .output | .buzz => .output | .led _ => .output)
      hpos := s.hpos + 1 }) ∧
  (∀ s : State, HostNext s .pinSetup → s.cfg.Wf →
    ∃ t, step s = .next t ∧ ∃ evs, t.tr = s.tr ++ evs ∧ .pinCfg s.cfg.csPin .output ∈ evs) ∧
  (∀ s : State, HostNext s .ledReady → s.cfg.Wf → s.leds.length = s.cfg.lit.nLed →
    step s = .next { s with
      tr := s.tr ++ s.cfg.ledOrder.map fun i => .pinWrite (s.cfg.ledPin.getD i 0) s.cfg.ledReadyLevel
      leds := List.replicate 4 s.cfg.ledReadyLevel
      hpos := s.hpos + 1 })

/-- `SLEEP` (42_host_sequence.md R187): one wait of a second. -/
def Obligations.HostSleep : Prop :=
  ∀ s : State, HostNext s .sleep → s.cfg.LitWf →
    step s = .next { s with tr := s.tr ++ [.wait 1000], hpos := s.hpos + 1 }

/-- `KEYCHK` and the end of an iteration (42_host_sequence.md R185, R189): not pressed at the first read, no wait
and no second read; pressed, a 10 ms wait and a second read that decides. The loop goes on, or enters
`Finalizing`. That the second read is skipped is the spec's own decision D28. That decision is named in log entry 20. -/
def Obligations.HostKeyCheck : Prop :=
  ∀ s : State, HostNext s .keyCheck → s.cfg.LitWf →
    let pin := s.cfg.keyPin.getD s.cfg.termKey 0
    let l1 := s.nextLevel pin
    let l2 := s.dropLevel.nextLevel pin
    (l1 ≠ s.cfg.keyPressedLevel →
      step s = .next { s with
        tr := s.tr ++ [.pinRead pin l1], env := s.dropLevel.env, hs := .running, hpos := 0 }) ∧
    (l1 = s.cfg.keyPressedLevel →
      step s = .next { s with
        tr := s.tr ++ [.pinRead pin l1, .wait 10, .pinRead pin l2]
        env := s.dropLevel.dropLevel.env
        hs := if l2 = s.cfg.keyPressedLevel then .finalizing else .running
        hpos := 0 })

/-- The host's two readings (42_host_sequence.md R189, R186, 41_sensor_engine.md R163): after a measurement the host
takes the value its own command has just returned, never an older one; at the display it hands over the text of both in
one packet and keeps neither. That a reading is absent outside this stretch of an iteration is log entry 6; that the
text is cut to what a packet holds is log entry 12. -/
def Obligations.HostReadingsAreFresh : Prop :=
  (∀ s : State, HostNext s (.keep .t) →
    step s = .next { s with hostT := returned .t s.tr, hpos := s.hpos + 1 }) ∧
  (∀ s : State, HostNext s (.keep .rh) →
    step s = .next { s with hostH := returned .rh s.tr, hpos := s.hpos + 1 }) ∧
  (∀ (s : State) (kind : Kind) (v : Binary64), s.tr.getLast? = some (.result kind v) → returned kind s.tr = some v) ∧
  (∀ (s : State) (t h : Binary64), HostNext s .display → s.hostT = some t → s.hostH = some h →
    step s = .next { s with
      cmd := encode s.cfg (.rstr ((hostText s.cfg t h).take (min s.cfg.maxLen 255)))
      hostT := none
      hostH := none
      hpos := s.hpos + 1 })

/-- One iteration of `Running` (42_host_sequence.md R189, R194, 20_memory.md R65): temperature before humidity,
both before the display, one text, one sleep, then the key: ten steps of the machine, and the loop goes on
unless the key is pressed at both reads; no reading is kept (41_sensor_engine.md R163). The text is what one packet
holds of the host's text (log entry 12), under all parameters the spec allows. That a first key read at another level
ends the check is the spec's own decision D28 (log entry 20); where the readings live is log entry 6. -/
def Obligations.RunningIteration : Prop :=
  ∀ (s : State) (h : Handle), Accepting s → s.ser ≠ none → s.sh = some h → s.wire = none → s.cmd = [] →
    s.hs = .running → s.hpos = 0 → s.cfg.Wf →
    let s1 := s.dropByte
    let s2 := s1.dropByte
    let s3 := s2.dropByte
    let s4 := s3.dropByte
    let t := convT s.cfg (s.nextByte h ++ s1.nextByte h)
    let rh := convRh s.cfg (s2.nextByte h ++ s3.nextByte h)
    let pin := s.cfg.keyPin.getD s.cfg.termKey 0
    let l1 := s4.nextLevel pin
    let l2 := s4.dropLevel.nextLevel pin
    let down := s.cfg.keyPressedLevel
    ∃ u, stepsFrom 10 s = .next u ∧
      u.tr = s.tr ++ measureEvents s.cfg s.cfg.cmdTrigT (s.nextByte h) (s1.nextByte h) .t t ++
        measureEvents s.cfg s.cfg.cmdTrigRh (s2.nextByte h) (s3.nextByte h) .rh rh ++
        textEvents s.cfg ((hostText s.cfg t rh).take (min s.cfg.maxLen 255)) ++ [.wait 1000] ++
        (if l1 = down then [.pinRead pin l1, .wait 10, .pinRead pin l2] else [.pinRead pin l1]) ∧
      u.hs = (if l1 = down ∧ l2 = down then .finalizing else .running) ∧ u.hpos = 0 ∧ u.cmd = [] ∧
      u.ser = s.ser ∧ u.sh = s.sh ∧ u.fatal = none ∧ u.hostT = none ∧ u.hostH = none

/-- `Finalizing` (42_host_sequence.md R190, 70_reset_and_hazards.md R243): the third pulse, the display cleared, the
serial channel closed and released, exit code 0: five steps, after which the digits are blank, every other
register is as it was, the sensor session is not closed (10_state.md R29, 42_host_sequence.md R183), and the machine is
stopped for good: a further step answers the same state, which the model reads from 42_host_sequence.md R191 (log
entry 18). The order of CLEAR's frames is the spec's own decision D10 (log entry 20). -/
def Obligations.FinalizingRunsOnce : Prop :=
  ∀ s : State, Accepting s → s.ser ≠ none → s.wire = none → s.cmd = [] → s.hs = .finalizing → s.hpos = 0 →
    s.cfg.LitWf →
    ∃ u, stepsFrom 5 s = .next u ∧
      u.tr = s.tr ++ [.pinWrite s.cfg.buzzPin .high, .wait 100, .pinWrite s.cfg.buzzPin .low] ++
        writeEvents (clearWrites s.cfg) ++ [.serClose, .release, .exit 0] ∧
      (∀ k < s.cfg.lit.nSlot, u.reg (slotReg s.cfg k) = 0x00#8) ∧
      (∀ a : RegAddr, (∀ k < s.cfg.lit.nSlot, a ≠ slotReg s.cfg k) → u.reg a = s.reg a) ∧
      u.hs = .stopped ∧ u.ser = none ∧ u.sh = s.sh ∧ u.fatal = none ∧ step u = .next u

/-- `Init` (42_host_sequence.md R188): from reset, with both transports opened, ten steps leave the whole
sequence in the trace and the host in `Running`, whatever the display controller held. That the serial channel is
opened first is the spec's own decision D25 (log entry 20); that with nothing placed the host runs its Init from reset
is log entry 15. -/
def Obligations.InitSequenceFromReset : Prop :=
  ∀ (cfg : Config) (x : Registers) (env : Env) (v : Nat) (vs : List (Option Nat)) (w : Int) (ws : List Int),
    cfg.LitWf → env.serials = some v :: vs → env.busHandles = w :: ws → (0 : Int) ≤ busHandle cfg w →
    let s : State := { State.resetWith cfg x with env := env }
    let pulse : List Event := [.pinWrite cfg.buzzPin .high, .wait 100, .pinWrite cfg.buzzPin .low]
    ∃ u, stepsFrom 10 s = .next u ∧
      u.tr = cfg.pinCalls.map (fun p => .pinCfg (pinId cfg p) (pinDir p)) ++ pulse ++
        [.serOpen (some (serialHandle cfg v)), .busOpen cfg.sensorAddr (busHandle cfg w)] ++ writeEvents (initWrites cfg) ++ pulse ++
        cfg.ledOrder.map (fun i => .pinWrite (cfg.ledPin.getD i 0) cfg.ledReadyLevel) ∧
      u.hs = .running ∧ u.hpos = 0 ∧ u.cmd = [] ∧ u.ser = some (serialHandle cfg v) ∧ u.sh = some (busHandle cfg w) ∧ u.fatal = none

/-- `Stopped` is terminal (42_host_sequence.md R191): with no command from outside nothing happens after it. -/
def Obligations.StoppedIsTerminal : Prop :=
  ∀ s : State, Accepting s → s.wire = none → s.cmd = [] → s.hs = .stopped → step s = .next s

/-- The host's own run never ends in a refusal or a fault (42_host_sequence.md R195, R188 to R190): from every
state of its invariant a step gives a next state of the invariant. That a stopped machine steps to itself is log entry
18, that it does so after a fatal stop is log entry 16, that a serial handle is not negative is log entry 8, and where
the readings live is log entry 6 (all DEDUCED). -/
def Obligations.HostLoopNeverRefused : Prop :=
  ∀ s : State, LoopInv s → ∃ t, step s = .next t ∧ LoopInv t

/-- The host's text of the spec's own readings (42_host_sequence.md R186, 95_test_vectors.md H5, H6): `" 21.3
54.7910156250"` with the literal precision, `" 21.3 54.8"` with the intended one. -/
def Obligations.HostTextOfTheExample : Prop :=
  hostText { Config.reference with pRh := 10 } 0x4035411E66666666#64 0x404B654000000000#64 =
    [0x20, 0x32, 0x31, 0x2E, 0x33, 0x20, 0x35, 0x34, 0x2E, 0x37, 0x39, 0x31, 0x30, 0x31,
      0x35, 0x36, 0x32, 0x35, 0x30] ∧
  hostText { Config.reference with pRh := 1 } 0x4035411E66666666#64 0x404B654000000000#64 =
    [0x20, 0x32, 0x31, 0x2E, 0x33, 0x20, 0x35, 0x34, 0x2E, 0x38]
end

