-- ==== Sys2Proof/Laws/Decode.lean ====
section
/-! SUPPORT. The fields of an encoded byte give back what was put in them, and the shape of every encoding. -/

namespace Sys2Proof

/-! ### The document's widths (00_scope.md R7), as numbers -/

theorem two_pow_aw : 2 ^ AW = 16 := rfl
theorem two_pow_dw : 2 ^ DW = 256 := rfl
theorem two_pow_frame : 2 ^ (AW + DW) = 4096 := rfl
theorem frame_bytes : FRAME_BYTES = 2 := rfl

/-! ### Packets -/

@[simp] theorem highBits_addrByte (a : RegAddr) : highBits (addrByte a) = 0#(8 - AW) := by
  revert a; decide

@[simp] theorem addrField_addrByte (a : RegAddr) : addrField (addrByte a) = a := by
  revert a; decide

/-- The document's address byte is `0b0000 ++ a` (30_encoding.md R85). -/
theorem addrByte_eq (a : RegAddr) : addrByte a = 0#4 ++ a := by
  revert a; decide

@[simp] theorem dataField_dataToByte (d : Data) : dataField (dataToByte d) = d := by
  simp [dataField, dataToByte]

@[simp] theorem dataToByte_dataField (b : Byte) : dataToByte (dataField b) = b := by
  simp [dataField, dataToByte]

@[simp] theorem slotReserved_append (k : Slot) (dp : Bool) :
    slotReserved (BitVec.ofBool dp ++ 0#4 ++ k) = 0#4 := by
  revert k dp; decide

@[simp] theorem slotField_append (k : Slot) (dp : Bool) : slotField (BitVec.ofBool dp ++ 0#4 ++ k) = k := by
  revert k dp; decide

@[simp] theorem dpField_append (k : Slot) (dp : Bool) : dpField (BitVec.ofBool dp ++ 0#4 ++ k) = dp := by
  revert k dp; decide

/-- A byte whose bits above the address are clear is its address. -/
theorem addrByte_addrField {b : Byte} (h : highBits b = 0#(8 - AW)) : addrByte (addrField b) = b := by
  revert h; revert b; decide

/-- A byte with clear reserved bits is its point and its slot. -/
theorem eq_of_slotReserved_zero {b : Byte} (h : slotReserved b = 0#4) :
    BitVec.ofBool (dpField b) ++ 0#4 ++ slotField b = b := by
  revert h; revert b; decide

/-! ### The raw value -/

/-- The document's raw value is the first byte joined before the second (41_sensor_engine.md R156). -/
theorem rawOf_eq (b0 b1 : Byte) : rawOf b0 b1 = b0 ++ b1 := BitVec.setWidth_eq (b0 ++ b1)

/-- A raw value is `256 * b0 + b1` (41_sensor_engine.md R156). -/
theorem raw_toNat (b0 b1 : Byte) : (rawOf b0 b1).toNat = 256 * b0.toNat + b1.toNat := by
  rw [rawOf_eq]
  have h := BitVec.toNat_append (x := b0) (y := b1)
  rw [show (b0 ++ b1 : Raw).toNat = _ from h, ← Nat.shiftLeft_add_eq_or_of_lt b1.isLt, Nat.shiftLeft_eq]
  omega

theorem rawHigh_toNat (raw : Raw) : (rawHigh raw).toNat = raw.toNat / 256 := by
  have h : raw.toNat < 65536 := raw.isLt
  simp only [rawHigh, BitVec.extractLsb'_toNat, Nat.shiftRight_eq_div_pow]
  omega

theorem rawLow_toNat (raw : Raw) : (rawLow raw).toNat = raw.toNat % 256 := by
  simp [rawLow]

@[simp] theorem rawHigh_rawOf (b0 b1 : Byte) : rawHigh (rawOf b0 b1) = b0 := by
  apply BitVec.eq_of_toNat_eq
  rw [rawHigh_toNat, raw_toNat]
  have := b1.isLt
  omega

@[simp] theorem rawLow_rawOf (b0 b1 : Byte) : rawLow (rawOf b0 b1) = b1 := by
  apply BitVec.eq_of_toNat_eq
  rw [rawLow_toNat, raw_toNat]
  have := b1.isLt
  omega

/-- A raw value is its two bytes. -/
@[simp] theorem rawOf_high_low (raw : Raw) : rawOf (rawHigh raw) (rawLow raw) = raw := by
  apply BitVec.eq_of_toNat_eq
  rw [raw_toNat, rawHigh_toNat, rawLow_toNat]
  omega

/-! ### The frame -/

/-- The document's frame is the address byte, then the data byte (30_encoding.md R86). -/
theorem frameOf_eq (a : RegAddr) (d : Data) : frameOf a d = #v[0#4 ++ a, d] := by
  have ha : a.toNat < 16 := a.isLt
  have hd : d.toNat < 256 := d.isLt
  apply Vector.ext
  intro i hi
  have hi2 : i < 2 := hi
  apply BitVec.eq_of_toNat_eq
  interval_cases i
  · rw [← addrByte_eq]
    simp [frameOf, addrByte, two_pow_dw, frame_bytes]
    omega
  · simp [frameOf, two_pow_dw, frame_bytes]
    omega

/-- The number two bytes spell. -/
theorem numberOf_pair (b0 b1 : Byte) : numberOf [b0, b1] = 256 * b0.toNat + b1.toNat := by
  simp [numberOf]; omega

/-- The number a frame spells. -/
theorem numberOf_frame (f : FrameWord) : numberOf f.toList = 256 * f[0].toNat + f[1].toNat := by
  have h : f = #v[f[0], f[1]] := by
    apply Vector.ext
    intro i hi
    have hi2 : i < 2 := hi
    interval_cases i <;> rfl
  conv_lhs => rw [h]
  exact numberOf_pair _ _

theorem numberOf_frameOf (a : RegAddr) (d : Data) : numberOf (frameOf a d).toList = 256 * a.toNat + d.toNat := by
  have ha : a.toNat < 16 := a.isLt
  rw [frameOf_eq, ← addrByte_eq]
  refine (numberOf_pair (addrByte a) d).trans ?_
  simp [addrByte]
  omega

@[simp] theorem frameClear_frameOf (a : RegAddr) (d : Data) : frameClear (frameOf a d) = true := by
  have ha : a.toNat < 16 := a.isLt
  have hd : d.toNat < 256 := d.isLt
  simp only [frameClear, numberOf_frameOf, two_pow_frame, decide_eq_true_eq]
  omega

@[simp] theorem frameAddr_frameOf (a : RegAddr) (d : Data) : frameAddr (frameOf a d) = a := by
  have ha : a.toNat < 16 := a.isLt
  have hd : d.toNat < 256 := d.isLt
  apply BitVec.eq_of_toNat_eq
  simp only [frameAddr, numberOf_frameOf, BitVec.toNat_ofNat, two_pow_aw, two_pow_dw]
  omega

@[simp] theorem frameData_frameOf (a : RegAddr) (d : Data) : frameData (frameOf a d) = d := by
  have hd : d.toNat < 256 := d.isLt
  apply BitVec.eq_of_toNat_eq
  simp only [frameData, numberOf_frameOf, BitVec.toNat_ofNat, two_pow_dw]
  omega

/-- A frame whose bits above the address are clear is its address and its data byte. -/
theorem frameOf_frameAddr {f : FrameWord} (h : frameClear f = true) : frameOf (frameAddr f) (frameData f) = f := by
  have h1 : f[1].toNat < 256 := f[1].isLt
  simp only [frameClear, numberOf_frame, two_pow_frame, decide_eq_true_eq] at h
  have ha : (frameAddr f).toNat = f[0].toNat := by
    simp only [frameAddr, numberOf_frame, BitVec.toNat_ofNat, two_pow_aw, two_pow_dw]; omega
  have hd : (frameData f).toNat = f[1].toNat := by
    simp only [frameData, numberOf_frame, BitVec.toNat_ofNat, two_pow_dw]; omega
  rw [frameOf_eq, ← addrByte_eq]
  apply Vector.ext
  intro i hi
  have hi2 : i < 2 := hi
  apply BitVec.eq_of_toNat_eq
  interval_cases i
  · have h0 : f[0].toNat < 256 := f[0].isLt
    refine (BitVec.toNat_setWidth 8 _).trans ?_
    rw [ha]
    exact Nat.mod_eq_of_lt h0
  · exact hd

/-- The decoder of the display link on two bytes or more (30_encoding.md R86). -/
theorem decodeFrame_pair (b0 b1 : Byte) (rest : List Byte) :
    decodeFrame (b0 :: b1 :: rest) =
      if frameClear #v[b0, b1] then .ok (.dframe (frameAddr #v[b0, b1]) (frameData #v[b0, b1]), rest)
      else .error ⟨.reservedBits b0, rest⟩ := by
  have hf : (Vector.ofFn fun i : Fin FRAME_BYTES => (b0 :: b1 :: rest)[i.val]'(by
      have := i.isLt; simp [frame_bytes] at *; omega)) = #v[b0, b1] := by
    apply Vector.ext
    intro i hi
    have hi2 : i < 2 := hi
    interval_cases i <;> rfl
  unfold decodeFrame
  rw [dif_pos (by simp [frame_bytes])]
  simp only [hf]
  rfl

/-- The decoder of the display link on fewer bytes than a frame has. -/
theorem decodeFrame_short {bytes : List Byte} (h : bytes.length < 2) : decodeFrame bytes = .error ⟨.short, []⟩ := by
  unfold decodeFrame
  rw [dif_neg (by simpa [frame_bytes] using h)]

/-- No encoding is empty: there is always an opcode, or a wire byte (30_encoding.md R81). -/
theorem encode_ne_nil (cfg : Config) (i : Instr) : encode cfg i ≠ [] := by
  cases i <;> simp [encode]

end Sys2Proof
end

