-- ==== Sys2Proof/Laws/State.lean ====
section
/-! SUPPORT. One lemma per field per update of State, true by rfl, so that no proof unfolds a record update. -/

namespace Sys2Proof.Machine

/-! ### State.emit -/

@[simp] theorem State.emit_cfg (s : State) (ev : Event) : (s.emit ev).cfg = s.cfg := rfl
@[simp] theorem State.emit_x (s : State) (ev : Event) : (s.emit ev).x = s.x := rfl
@[simp] theorem State.emit_seq (s : State) (ev : Event) : (s.emit ev).seq = s.seq := rfl
@[simp] theorem State.emit_cs (s : State) (ev : Event) : (s.emit ev).cs = s.cs := rfl
@[simp] theorem State.emit_ser (s : State) (ev : Event) : (s.emit ev).ser = s.ser := rfl
@[simp] theorem State.emit_sh (s : State) (ev : Event) : (s.emit ev).sh = s.sh := rfl
@[simp] theorem State.emit_fatal (s : State) (ev : Event) : (s.emit ev).fatal = s.fatal := rfl
@[simp] theorem State.emit_tr (s : State) (ev : Event) : (s.emit ev).tr = s.tr ++ [ev] := rfl
@[simp] theorem State.emit_hs (s : State) (ev : Event) : (s.emit ev).hs = s.hs := rfl
@[simp] theorem State.emit_hpos (s : State) (ev : Event) : (s.emit ev).hpos = s.hpos := rfl
@[simp] theorem State.emit_hostT (s : State) (ev : Event) : (s.emit ev).hostT = s.hostT := rfl
@[simp] theorem State.emit_hostH (s : State) (ev : Event) : (s.emit ev).hostH = s.hostH := rfl
@[simp] theorem State.emit_buzzer (s : State) (ev : Event) : (s.emit ev).buzzer = s.buzzer := rfl
@[simp] theorem State.emit_leds (s : State) (ev : Event) : (s.emit ev).leds = s.leds := rfl
@[simp] theorem State.emit_cmd (s : State) (ev : Event) : (s.emit ev).cmd = s.cmd := rfl
@[simp] theorem State.emit_wire (s : State) (ev : Event) : (s.emit ev).wire = s.wire := rfl
@[simp] theorem State.emit_env (s : State) (ev : Event) : (s.emit ev).env = s.env := rfl

/-! ### State.pause -/

@[simp] theorem State.pause_cfg (s : State) (ms : Nat) : (s.pause ms).cfg = s.cfg := rfl
@[simp] theorem State.pause_x (s : State) (ms : Nat) : (s.pause ms).x = s.x := rfl
@[simp] theorem State.pause_seq (s : State) (ms : Nat) : (s.pause ms).seq = s.seq := rfl
@[simp] theorem State.pause_cs (s : State) (ms : Nat) : (s.pause ms).cs = s.cs := rfl
@[simp] theorem State.pause_ser (s : State) (ms : Nat) : (s.pause ms).ser = s.ser := rfl
@[simp] theorem State.pause_sh (s : State) (ms : Nat) : (s.pause ms).sh = s.sh := rfl
@[simp] theorem State.pause_fatal (s : State) (ms : Nat) : (s.pause ms).fatal = s.fatal := rfl
@[simp] theorem State.pause_tr (s : State) (ms : Nat) : (s.pause ms).tr = s.tr ++ [.wait ms] := rfl
@[simp] theorem State.pause_hs (s : State) (ms : Nat) : (s.pause ms).hs = s.hs := rfl
@[simp] theorem State.pause_hpos (s : State) (ms : Nat) : (s.pause ms).hpos = s.hpos := rfl
@[simp] theorem State.pause_hostT (s : State) (ms : Nat) : (s.pause ms).hostT = s.hostT := rfl
@[simp] theorem State.pause_hostH (s : State) (ms : Nat) : (s.pause ms).hostH = s.hostH := rfl
@[simp] theorem State.pause_buzzer (s : State) (ms : Nat) : (s.pause ms).buzzer = s.buzzer := rfl
@[simp] theorem State.pause_leds (s : State) (ms : Nat) : (s.pause ms).leds = s.leds := rfl
@[simp] theorem State.pause_cmd (s : State) (ms : Nat) : (s.pause ms).cmd = s.cmd := rfl
@[simp] theorem State.pause_wire (s : State) (ms : Nat) : (s.pause ms).wire = s.wire := rfl
@[simp] theorem State.pause_env (s : State) (ms : Nat) : (s.pause ms).env = s.env := rfl

/-! ### State.setReg -/

@[simp] theorem State.setReg_cfg (s : State) (a : RegAddr) (d : Data) : (s.setReg a d).cfg = s.cfg := rfl
@[simp] theorem State.setReg_x (s : State) (a : RegAddr) (d : Data) : (s.setReg a d).x = s.x.set a.toNat d := rfl
@[simp] theorem State.setReg_seq (s : State) (a : RegAddr) (d : Data) : (s.setReg a d).seq = s.seq := rfl
@[simp] theorem State.setReg_cs (s : State) (a : RegAddr) (d : Data) : (s.setReg a d).cs = s.cs := rfl
@[simp] theorem State.setReg_ser (s : State) (a : RegAddr) (d : Data) : (s.setReg a d).ser = s.ser := rfl
@[simp] theorem State.setReg_sh (s : State) (a : RegAddr) (d : Data) : (s.setReg a d).sh = s.sh := rfl
@[simp] theorem State.setReg_fatal (s : State) (a : RegAddr) (d : Data) : (s.setReg a d).fatal = s.fatal := rfl
@[simp] theorem State.setReg_tr (s : State) (a : RegAddr) (d : Data) : (s.setReg a d).tr = s.tr := rfl
@[simp] theorem State.setReg_hs (s : State) (a : RegAddr) (d : Data) : (s.setReg a d).hs = s.hs := rfl
@[simp] theorem State.setReg_hpos (s : State) (a : RegAddr) (d : Data) : (s.setReg a d).hpos = s.hpos := rfl
@[simp] theorem State.setReg_hostT (s : State) (a : RegAddr) (d : Data) : (s.setReg a d).hostT = s.hostT := rfl
@[simp] theorem State.setReg_hostH (s : State) (a : RegAddr) (d : Data) : (s.setReg a d).hostH = s.hostH := rfl
@[simp] theorem State.setReg_buzzer (s : State) (a : RegAddr) (d : Data) : (s.setReg a d).buzzer = s.buzzer := rfl
@[simp] theorem State.setReg_leds (s : State) (a : RegAddr) (d : Data) : (s.setReg a d).leds = s.leds := rfl
@[simp] theorem State.setReg_cmd (s : State) (a : RegAddr) (d : Data) : (s.setReg a d).cmd = s.cmd := rfl
@[simp] theorem State.setReg_wire (s : State) (a : RegAddr) (d : Data) : (s.setReg a d).wire = s.wire := rfl
@[simp] theorem State.setReg_env (s : State) (a : RegAddr) (d : Data) : (s.setReg a d).env = s.env := rfl

/-! ### State.endOp -/

@[simp] theorem State.endOp_cfg (s : State) : s.endOp.cfg = s.cfg := rfl
@[simp] theorem State.endOp_x (s : State) : s.endOp.x = s.x := rfl
@[simp] theorem State.endOp_seq (s : State) : s.endOp.seq = Sequencer.idle := rfl
@[simp] theorem State.endOp_cs (s : State) : s.endOp.cs = s.cs := rfl
@[simp] theorem State.endOp_ser (s : State) : s.endOp.ser = s.ser := rfl
@[simp] theorem State.endOp_sh (s : State) : s.endOp.sh = s.sh := rfl
@[simp] theorem State.endOp_fatal (s : State) : s.endOp.fatal = s.fatal := rfl
@[simp] theorem State.endOp_tr (s : State) : s.endOp.tr = s.tr := rfl
@[simp] theorem State.endOp_hs (s : State) : s.endOp.hs = s.hs := rfl
@[simp] theorem State.endOp_hpos (s : State) : s.endOp.hpos = s.hpos := rfl
@[simp] theorem State.endOp_hostT (s : State) : s.endOp.hostT = s.hostT := rfl
@[simp] theorem State.endOp_hostH (s : State) : s.endOp.hostH = s.hostH := rfl
@[simp] theorem State.endOp_buzzer (s : State) : s.endOp.buzzer = s.buzzer := rfl
@[simp] theorem State.endOp_leds (s : State) : s.endOp.leds = s.leds := rfl
@[simp] theorem State.endOp_cmd (s : State) : s.endOp.cmd = s.cmd := rfl
@[simp] theorem State.endOp_wire (s : State) : s.endOp.wire = s.wire := rfl
@[simp] theorem State.endOp_env (s : State) : s.endOp.env = s.env := rfl

/-! ### State.dropByte -/

@[simp] theorem State.dropByte_cfg (s : State) : s.dropByte.cfg = s.cfg := rfl
@[simp] theorem State.dropByte_x (s : State) : s.dropByte.x = s.x := rfl
@[simp] theorem State.dropByte_seq (s : State) : s.dropByte.seq = s.seq := rfl
@[simp] theorem State.dropByte_cs (s : State) : s.dropByte.cs = s.cs := rfl
@[simp] theorem State.dropByte_ser (s : State) : s.dropByte.ser = s.ser := rfl
@[simp] theorem State.dropByte_sh (s : State) : s.dropByte.sh = s.sh := rfl
@[simp] theorem State.dropByte_fatal (s : State) : s.dropByte.fatal = s.fatal := rfl
@[simp] theorem State.dropByte_tr (s : State) : s.dropByte.tr = s.tr := rfl
@[simp] theorem State.dropByte_hs (s : State) : s.dropByte.hs = s.hs := rfl
@[simp] theorem State.dropByte_hpos (s : State) : s.dropByte.hpos = s.hpos := rfl
@[simp] theorem State.dropByte_hostT (s : State) : s.dropByte.hostT = s.hostT := rfl
@[simp] theorem State.dropByte_hostH (s : State) : s.dropByte.hostH = s.hostH := rfl
@[simp] theorem State.dropByte_buzzer (s : State) : s.dropByte.buzzer = s.buzzer := rfl
@[simp] theorem State.dropByte_leds (s : State) : s.dropByte.leds = s.leds := rfl
@[simp] theorem State.dropByte_cmd (s : State) : s.dropByte.cmd = s.cmd := rfl
@[simp] theorem State.dropByte_wire (s : State) : s.dropByte.wire = s.wire := rfl

/-! ### State.dropBusHandle -/

@[simp] theorem State.dropBusHandle_cfg (s : State) : s.dropBusHandle.cfg = s.cfg := rfl
@[simp] theorem State.dropBusHandle_x (s : State) : s.dropBusHandle.x = s.x := rfl
@[simp] theorem State.dropBusHandle_seq (s : State) : s.dropBusHandle.seq = s.seq := rfl
@[simp] theorem State.dropBusHandle_cs (s : State) : s.dropBusHandle.cs = s.cs := rfl
@[simp] theorem State.dropBusHandle_ser (s : State) : s.dropBusHandle.ser = s.ser := rfl
@[simp] theorem State.dropBusHandle_sh (s : State) : s.dropBusHandle.sh = s.sh := rfl
@[simp] theorem State.dropBusHandle_fatal (s : State) : s.dropBusHandle.fatal = s.fatal := rfl
@[simp] theorem State.dropBusHandle_tr (s : State) : s.dropBusHandle.tr = s.tr := rfl
@[simp] theorem State.dropBusHandle_hs (s : State) : s.dropBusHandle.hs = s.hs := rfl
@[simp] theorem State.dropBusHandle_hpos (s : State) : s.dropBusHandle.hpos = s.hpos := rfl
@[simp] theorem State.dropBusHandle_hostT (s : State) : s.dropBusHandle.hostT = s.hostT := rfl
@[simp] theorem State.dropBusHandle_hostH (s : State) : s.dropBusHandle.hostH = s.hostH := rfl
@[simp] theorem State.dropBusHandle_buzzer (s : State) : s.dropBusHandle.buzzer = s.buzzer := rfl
@[simp] theorem State.dropBusHandle_leds (s : State) : s.dropBusHandle.leds = s.leds := rfl
@[simp] theorem State.dropBusHandle_cmd (s : State) : s.dropBusHandle.cmd = s.cmd := rfl
@[simp] theorem State.dropBusHandle_wire (s : State) : s.dropBusHandle.wire = s.wire := rfl

/-! ### State.dropSerial -/

@[simp] theorem State.dropSerial_cfg (s : State) : s.dropSerial.cfg = s.cfg := rfl
@[simp] theorem State.dropSerial_x (s : State) : s.dropSerial.x = s.x := rfl
@[simp] theorem State.dropSerial_seq (s : State) : s.dropSerial.seq = s.seq := rfl
@[simp] theorem State.dropSerial_cs (s : State) : s.dropSerial.cs = s.cs := rfl
@[simp] theorem State.dropSerial_ser (s : State) : s.dropSerial.ser = s.ser := rfl
@[simp] theorem State.dropSerial_sh (s : State) : s.dropSerial.sh = s.sh := rfl
@[simp] theorem State.dropSerial_fatal (s : State) : s.dropSerial.fatal = s.fatal := rfl
@[simp] theorem State.dropSerial_tr (s : State) : s.dropSerial.tr = s.tr := rfl
@[simp] theorem State.dropSerial_hs (s : State) : s.dropSerial.hs = s.hs := rfl
@[simp] theorem State.dropSerial_hpos (s : State) : s.dropSerial.hpos = s.hpos := rfl
@[simp] theorem State.dropSerial_hostT (s : State) : s.dropSerial.hostT = s.hostT := rfl
@[simp] theorem State.dropSerial_hostH (s : State) : s.dropSerial.hostH = s.hostH := rfl
@[simp] theorem State.dropSerial_buzzer (s : State) : s.dropSerial.buzzer = s.buzzer := rfl
@[simp] theorem State.dropSerial_leds (s : State) : s.dropSerial.leds = s.leds := rfl
@[simp] theorem State.dropSerial_cmd (s : State) : s.dropSerial.cmd = s.cmd := rfl
@[simp] theorem State.dropSerial_wire (s : State) : s.dropSerial.wire = s.wire := rfl

/-! ### State.dropLevel -/

@[simp] theorem State.dropLevel_cfg (s : State) : s.dropLevel.cfg = s.cfg := rfl
@[simp] theorem State.dropLevel_x (s : State) : s.dropLevel.x = s.x := rfl
@[simp] theorem State.dropLevel_seq (s : State) : s.dropLevel.seq = s.seq := rfl
@[simp] theorem State.dropLevel_cs (s : State) : s.dropLevel.cs = s.cs := rfl
@[simp] theorem State.dropLevel_ser (s : State) : s.dropLevel.ser = s.ser := rfl
@[simp] theorem State.dropLevel_sh (s : State) : s.dropLevel.sh = s.sh := rfl
@[simp] theorem State.dropLevel_fatal (s : State) : s.dropLevel.fatal = s.fatal := rfl
@[simp] theorem State.dropLevel_tr (s : State) : s.dropLevel.tr = s.tr := rfl
@[simp] theorem State.dropLevel_hs (s : State) : s.dropLevel.hs = s.hs := rfl
@[simp] theorem State.dropLevel_hpos (s : State) : s.dropLevel.hpos = s.hpos := rfl
@[simp] theorem State.dropLevel_hostT (s : State) : s.dropLevel.hostT = s.hostT := rfl
@[simp] theorem State.dropLevel_hostH (s : State) : s.dropLevel.hostH = s.hostH := rfl
@[simp] theorem State.dropLevel_buzzer (s : State) : s.dropLevel.buzzer = s.buzzer := rfl
@[simp] theorem State.dropLevel_leds (s : State) : s.dropLevel.leds = s.leds := rfl
@[simp] theorem State.dropLevel_cmd (s : State) : s.dropLevel.cmd = s.cmd := rfl
@[simp] theorem State.dropLevel_wire (s : State) : s.dropLevel.wire = s.wire := rfl

@[simp] theorem State.dropByte_env_bytes (s : State) : s.dropByte.env.bytes = s.env.bytes.tail := rfl
@[simp] theorem State.dropByte_env_busHandles (s : State) : s.dropByte.env.busHandles = s.env.busHandles := rfl
@[simp] theorem State.dropByte_env_serials (s : State) : s.dropByte.env.serials = s.env.serials := rfl
@[simp] theorem State.dropByte_env_levels (s : State) : s.dropByte.env.levels = s.env.levels := rfl
@[simp] theorem State.dropByte_env_drawn (s : State) : s.dropByte.env.drawn = s.env.drawn + 1 := rfl
@[simp] theorem State.dropBusHandle_env_bytes (s : State) : s.dropBusHandle.env.bytes = s.env.bytes := rfl
@[simp] theorem State.dropBusHandle_env_busHandles (s : State) : s.dropBusHandle.env.busHandles = s.env.busHandles.tail := rfl
@[simp] theorem State.dropBusHandle_env_serials (s : State) : s.dropBusHandle.env.serials = s.env.serials := rfl
@[simp] theorem State.dropBusHandle_env_levels (s : State) : s.dropBusHandle.env.levels = s.env.levels := rfl
@[simp] theorem State.dropBusHandle_env_drawn (s : State) : s.dropBusHandle.env.drawn = s.env.drawn + 1 := rfl
@[simp] theorem State.dropSerial_env_bytes (s : State) : s.dropSerial.env.bytes = s.env.bytes := rfl
@[simp] theorem State.dropSerial_env_busHandles (s : State) : s.dropSerial.env.busHandles = s.env.busHandles := rfl
@[simp] theorem State.dropSerial_env_serials (s : State) : s.dropSerial.env.serials = s.env.serials.tail := rfl
@[simp] theorem State.dropSerial_env_levels (s : State) : s.dropSerial.env.levels = s.env.levels := rfl
@[simp] theorem State.dropSerial_env_drawn (s : State) : s.dropSerial.env.drawn = s.env.drawn + 1 := rfl
@[simp] theorem State.dropLevel_env_bytes (s : State) : s.dropLevel.env.bytes = s.env.bytes := rfl
@[simp] theorem State.dropLevel_env_busHandles (s : State) : s.dropLevel.env.busHandles = s.env.busHandles := rfl
@[simp] theorem State.dropLevel_env_serials (s : State) : s.dropLevel.env.serials = s.env.serials := rfl
@[simp] theorem State.dropLevel_env_levels (s : State) : s.dropLevel.env.levels = s.env.levels.tail := rfl
@[simp] theorem State.dropLevel_env_drawn (s : State) : s.dropLevel.env.drawn = s.env.drawn + 1 := rfl

/-! ### What the updates do to a register -/

@[simp] theorem State.reg_setReg_same (s : State) (a : RegAddr) (d : Data) : (s.setReg a d).reg a = d := by
  simp [State.reg, State.setReg]

@[simp] theorem State.reg_setReg_other (s : State) (a b : RegAddr) (d : Data) (h : b ≠ a) :
    (s.setReg a d).reg b = s.reg b := by
  have hne : a.toNat ≠ b.toNat := fun e => h (BitVec.eq_of_toNat_eq e.symm)
  simp [State.reg, State.setReg, Vector.getElem_set_ne _ _ hne]

/-- Two states with the same registers read the same. -/
theorem State.reg_congr {s t : State} (h : t.x = s.x) (a : RegAddr) : t.reg a = s.reg a := by
  simp [State.reg, h]

/-! ### The answers of the environment depend on `env` (and, for a handle, on the parameters) alone -/

theorem State.nextByte_congr {s t : State} (h : t.env = s.env) (hd : Handle) : t.nextByte hd = s.nextByte hd := by
  simp [State.nextByte, h]

theorem State.nextBusHandle_congr {s t : State} (hc : t.cfg = s.cfg) (h : t.env = s.env) (addr : Byte) :
    t.nextBusHandle addr = s.nextBusHandle addr := by
  simp [State.nextBusHandle, h, hc]

theorem State.nextSerial_congr {s t : State} (hc : t.cfg = s.cfg) (h : t.env = s.env) :
    t.nextSerial = s.nextSerial := by
  simp [State.nextSerial, h, hc]

theorem State.nextLevel_congr {s t : State} (h : t.env = s.env) (pin : Nat) : t.nextLevel pin = s.nextLevel pin := by
  simp [State.nextLevel, h]

theorem State.dropByte_env_congr {s t : State} (h : t.env = s.env) : t.dropByte.env = s.dropByte.env := by
  simp [State.dropByte, h]

theorem State.dropLevel_env_congr {s t : State} (h : t.env = s.env) : t.dropLevel.env = s.dropLevel.env := by
  simp [State.dropLevel, h]

end Sys2Proof.Machine
end

