-- ==== Sys2Proof/Laws/Ops.lean ====
section
/-! SUPPORT. One lemma for each shared operation that says everything it does: the frame, the conditions, Render,
Measure, the slot loop, and the tests before an operation. -/

namespace Sys2Proof.Machine

/-! ### The tests before an operation -/

theorem State.quiet_iff (s : State) : s.quiet = true ↔ s.seq = Sequencer.idle ∧ s.cs = .released := by
  simp [State.quiet]

theorem whenAccepted_of_fatal {s : State} (h : s.fatal.isSome) (k) : whenAccepted s k = .next s := by
  simp [whenAccepted, h]

theorem whenAccepted_of_accepting {s : State} (h : Accepting s) (k) : whenAccepted s k = k s := by
  obtain ⟨hf, hq, hc⟩ := h
  simp [whenAccepted, State.quiet, hf, hq, hc]

theorem whenAccepted_of_busy {s : State} (hf : s.fatal = none) (h : s.quiet = false) (k) :
    whenAccepted s k = .refused .busy := by
  simp [whenAccepted, hf, h]

/-- Everything an accepted test can answer a next state with: the same state after a fatal stop, or the
operation's own answer in an accepting state. -/
theorem whenAccepted_next {s t : State} {k} (h : whenAccepted s k = .next t) :
    (s.fatal.isSome ∧ t = s) ∨ (Accepting s ∧ k s = .next t) := by
  unfold whenAccepted at h
  split at h
  · rename_i hf
    exact .inl ⟨hf, by simpa using h.symm⟩
  · rename_i hf
    split at h
    · rename_i hq
      exact .inr ⟨⟨by simpa using hf, (s.quiet_iff.mp hq)⟩, h⟩
    · simp at h

theorem whenSerialOpen_of_ready {s : State} (h : DisplayReady s) (k) : whenSerialOpen s k = .next (k s) := by
  rw [whenSerialOpen, whenAccepted_of_accepting h.1, if_pos (Option.isSome_iff_ne_none.mpr h.2)]

theorem whenSerialOpen_next {s t : State} {k} (h : whenSerialOpen s k = .next t) :
    (s.fatal.isSome ∧ t = s) ∨ (DisplayReady s ∧ t = k s) := by
  rcases whenAccepted_next h with h | ⟨ha, h⟩
  · exact .inl h
  · split at h
    · rename_i hs
      exact .inr ⟨⟨ha, Option.isSome_iff_ne_none.mp hs⟩, by simpa using h.symm⟩
    · simp at h

theorem whenSensorOpen_of_ready {s : State} {hd : Handle} (h : SensorReady s hd) (k) :
    whenSensorOpen s k = .next (k hd s) := by
  rw [whenSensorOpen, whenAccepted_of_accepting h.1, h.2]

theorem whenSensorOpen_next {s t : State} {k} (h : whenSensorOpen s k = .next t) :
    (s.fatal.isSome ∧ t = s) ∨ ∃ hd, SensorReady s hd ∧ t = k hd s := by
  rcases whenAccepted_next h with h | ⟨ha, h⟩
  · exact .inl h
  · split at h
    · rename_i hd hs
      exact .inr ⟨hd, ⟨ha, hs⟩, by simpa using h.symm⟩
    · simp at h

theorem whenSensorClosed_of_closed {s : State} (h : SessionClosed s) (k) :
    whenSensorClosed s k = .next (k s) := by
  rw [whenSensorClosed, whenAccepted_of_accepting h.1]
  simp [h.2]

theorem whenSensorClosed_next {s t : State} {k} (h : whenSensorClosed s k = .next t) :
    (s.fatal.isSome ∧ t = s) ∨ (SessionClosed s ∧ t = k s) := by
  rcases whenAccepted_next h with h | ⟨ha, h⟩
  · exact .inl h
  · split at h
    · simp at h
    · rename_i hs
      exact .inr ⟨⟨ha, by simpa using hs⟩, by simpa using h.symm⟩

/-! ### The frame -/

/-- Everything a frame does. -/
theorem frame_eq (a : RegAddr) (d : Data) (s : State) :
    frame a d s =
      { s with
        tr := s.tr ++ frameEvents a d
        x := s.x.set a.toNat d
        cs := .released
        seq := { s.seq with a := some a, d := some d } } := by
  simp [frame, csRelease, transfer, csAssert, latchFrame, State.setReg, State.emit, frameEvents]

/-- What a list of frames does to everything but the operand latches. -/
theorem frames_eq (ws : List (RegAddr × Data)) (s : State) (hc : s.cs = .released) :
    ∃ seq, ws.foldl (fun s w => frame w.1 w.2 s) s =
      { s with
        tr := s.tr ++ writeEvents ws
        x := ws.foldl (fun x w => x.set w.1.toNat w.2) s.x
        seq := seq } := by
  induction ws generalizing s with
  | nil => exact ⟨s.seq, by simp [writeEvents]⟩
  | cons w ws ih =>
    obtain ⟨seq, h⟩ := ih (frame w.1 w.2 s) (by simp [frame_eq])
    exact ⟨seq, by rw [List.foldl_cons, h]; simp [frame_eq, writeEvents, hc]⟩

/-! ### Conditions -/

@[simp] theorem raise_unsupported (c : Code) (s : State) :
    raise (.unsupported c) s = { s with tr := s.tr ++ [.unsupported c] } := rfl

@[simp] theorem raise_busInitError (s : State) :
    raise .busInitError s =
      { s with
        fatal := some .bus
        hs := .stopped
        tr := s.tr ++ [.diag .busInitError, .fatal s.cfg.lit.exitBus, .exit s.cfg.lit.exitBus] } := by
  simp [raise, fatalEntry, State.emit, FatalCode.code]

@[simp] theorem raise_serialInitError (s : State) :
    raise .serialInitError s =
      { s with
        fatal := some .serial
        hs := .stopped
        tr := s.tr ++ [.diag .serialInitError, .fatal s.cfg.lit.exitSerial, .exit s.cfg.lit.exitSerial] } := by
  simp [raise, fatalEntry, State.emit, FatalCode.code]

/-! ### Render -/

theorem digitAddr_eq_slotReg (cfg : Config) (k : Nat) : digitAddr cfg k = slotReg cfg k := rfl

/-- The registers of two slots that are fewer than `2 ^ AW` apart are two registers. -/
theorem slotReg_injective {cfg : Config} {k k' : Nat} (hk : k < 2 ^ AW) (hk' : k' < 2 ^ AW)
    (h : slotReg cfg k = slotReg cfg k') : k = k' := by
  have e := congrArg BitVec.toNat h
  simp only [slotReg, BitVec.toNat_ofNat, two_pow_aw] at e hk hk'
  omega

/-- What the pattern of a slot does to the registers: one write when the character is supported. -/
def slotWrite (cfg : Config) (k : Nat) (u : Code × Bool) (x : Registers) : Registers :=
  match cfg.glyph u.1 with
  | some p => x.set (slotReg cfg k).toNat (if u.2 then p ||| cfg.dpBit else p)
  | none => x

/-- Everything `Render` does: the slot's events, the slot's register when the character is supported, and the
sequencer's latches. -/
theorem render_eq (k : Nat) (c : Code) (dp : Bool) (s : State) (hc : s.cs = .released) :
    ∃ seq, seq.txt = s.seq.txt ∧ seq.cur = s.seq.cur ∧ seq.s = s.seq.s ∧ render k c dp s =
      { s with
        tr := s.tr ++ slotEvents s.cfg k (c, dp)
        x := slotWrite s.cfg k (c, dp) s.x
        seq := seq } := by
  cases h : s.cfg.glyph c with
  | none =>
    refine ⟨(latchRender k c dp s).seq, rfl, rfl, rfl, ?_⟩
    simp [render, latchRender, h, slotEvents, slotWrite]
  | some p =>
    refine ⟨(frame (digitAddr s.cfg k) (dataByte s.cfg p dp) (latchRender k c dp s)).seq, rfl, rfl, rfl, ?_⟩
    simp [render, latchRender, h, slotEvents, slotWrite, frame_eq, digitAddr_eq_slotReg, dataByte, hc]

/-! ### Measure -/

theorem measureRaw_tr (h : Handle) (cmd : Byte) (s : State) :
    (measureRaw h cmd s).tr = s.tr ++ [.busCmd cmd, .wait s.cfg.lit.tSettle, .busRead (s.nextByte h), .busRead (s.dropByte.nextByte h)] := by
  simp [measureRaw, busCommand, takeFirst, takeSecond, State.nextByte, State.dropByte, State.pause, State.emit]

theorem measureRaw_raw (h : Handle) (cmd : Byte) (s : State) :
    (measureRaw h cmd s).seq.raw = some (rawOf (s.nextByte h) (s.dropByte.nextByte h)) := by
  simp [measureRaw, busCommand, takeFirst, takeSecond, State.nextByte, State.dropByte, State.pause, State.emit]

/-- Everything a measurement does but to the sequencer. -/
theorem measureRaw_eq (h : Handle) (cmd : Byte) (s : State) :
    measureRaw h cmd s =
      { s with
        tr := s.tr ++ [.busCmd cmd, .wait s.cfg.lit.tSettle, .busRead (s.nextByte h), .busRead (s.dropByte.nextByte h)]
        env := s.dropByte.dropByte.env
        seq := (measureRaw h cmd s).seq } := by
  simp [measureRaw, busCommand, takeFirst, takeSecond, State.nextByte, State.dropByte, State.pause, State.emit]

/-- A measurement changes no parameter. -/
@[simp] theorem measureRaw_cfg (h : Handle) (cmd : Byte) (s : State) : (measureRaw h cmd s).cfg = s.cfg := by
  rw [measureRaw_eq]

end Sys2Proof.Machine
end

