-- ==== Sys2Proof/Laws/Display.lean ====
section
/-! SUPPORT. The sequences of the display operations: the slot loop, the configuration writes, and one slot
iteration of `RSTR` in terms of the text's rendering units. -/

namespace Sys2Proof.Machine

/-- A write to one register leaves every other one alone (10_state.md R37). -/
theorem set_reg_ne {x : Registers} {a b : RegAddr} (d : Data) (h : b ≠ a) :
    (x.set a.toNat d)[b.toNat] = x[b.toNat] :=
  Vector.getElem_set_ne _ _ fun e => h (BitVec.eq_of_toNat_eq e.symm)

/-- A list of writes leaves a register alone that none of them addresses. -/
theorem writes_other (ws : List (RegAddr × Data)) (x : Registers) (a : RegAddr) (h : ∀ w ∈ ws, w.1 ≠ a) :
    (ws.foldl (fun x w => x.set w.1.toNat w.2) x)[a.toNat] = x[a.toNat] := by
  induction ws generalizing x with
  | nil => rfl
  | cons w ws ih =>
    rw [List.foldl_cons, ih _ fun w hw => h w (List.mem_cons_of_mem _ hw)]
    exact set_reg_ne _ (h w (by simp)).symm

/-- A list of writes of one value leaves it in every register that one of them addresses. -/
theorem writes_all (ws : List (RegAddr × Data)) (d : Data) (x : Registers) (a : RegAddr) (hd : ∀ w ∈ ws, w.2 = d)
    (ha : ∃ w ∈ ws, w.1 = a) : (ws.foldl (fun x w => x.set w.1.toNat w.2) x)[a.toNat] = d := by
  induction ws generalizing x with
  | nil => simp at ha
  | cons w ws ih =>
    rw [List.foldl_cons]
    by_cases h : ∃ w' ∈ ws, w'.1 = a
    · exact ih _ (fun w' hw => hd w' (List.mem_cons_of_mem _ hw)) h
    · have hw : w.1 = a := by
        obtain ⟨w', hw', e⟩ := ha
        rcases List.mem_cons.mp hw' with rfl | hm
        · exact e
        · exact absurd ⟨w', hm, e⟩ h
      rw [writes_other _ _ _ fun w' hw' e => h ⟨w', hw', e⟩]
      simp [hw, hd w]

/-- The document's digit registers are 1 to 8 (00_scope.md R7 `DIGIT_BASE`). -/
theorem slotReg_document {cfg : Config} (h : cfg.LitWf) (k : Nat) : slotReg cfg k = BitVec.ofNat AW (k + 1) := by
  rw [slotReg, h]
  rfl

/-- The document's slots are 0 to 7 (00_scope.md R7 `NSLOT`). -/
theorem allSlots_document {cfg : Config} (h : cfg.LitWf) : allSlots cfg = [0, 1, 2, 3, 4, 5, 6, 7] := by
  rw [allSlots, h]
  rfl

/-- The document's blanking writes go to the registers 1 to 8. -/
theorem clearWrites_document {cfg : Config} (h : cfg.LitWf) :
    clearWrites cfg =
      [(1#AW, 0#DW), (2#AW, 0#DW), (3#AW, 0#DW), (4#AW, 0#DW), (5#AW, 0#DW), (6#AW, 0#DW), (7#AW, 0#DW), (8#AW, 0#DW)] := by
  rw [clearWrites, allSlots_document h]
  simp only [slotReg_document h]
  rfl

theorem mem_allSlots {cfg : Config} {k : Nat} : k ∈ allSlots cfg ↔ k < cfg.lit.nSlot := List.mem_range

theorem slots_eq_allSlots (cfg : Config) : slots cfg = allSlots cfg := rfl

/-- The blanking writes leave zero in every digit. -/
theorem clearWrites_slot (cfg : Config) (x : Registers) {k : Nat} (hk : k < cfg.lit.nSlot) :
    ((clearWrites cfg).foldl (fun x w => x.set w.1.toNat w.2) x)[(slotReg cfg k).toNat] = 0#DW := by
  apply writes_all
  · intro w hw
    obtain ⟨j, -, rfl⟩ := List.mem_map.mp hw
    rfl
  · exact ⟨(slotReg cfg k, 0#DW), List.mem_map.mpr ⟨k, mem_allSlots.mpr hk, rfl⟩, rfl⟩

/-- The blanking writes address digits only. -/
theorem clearWrites_other (cfg : Config) (x : Registers) (a : RegAddr)
    (ha : ∀ k < cfg.lit.nSlot, a ≠ slotReg cfg k) :
    ((clearWrites cfg).foldl (fun x w => x.set w.1.toNat w.2) x)[a.toNat] = x[a.toNat] := by
  apply writes_other
  intro w hw
  obtain ⟨k, hk, rfl⟩ := List.mem_map.mp hw
  exact (ha k (mem_allSlots.mp hk)).symm

/-- A list of slots blanked: their frames of zero, and nothing else but the sequencer. -/
theorem blankSlots_eq (ks : List Nat) (s : State) (hc : s.cs = .released) :
    ∃ seq, ks.foldl (fun s k => frame (digitAddr (latchSlot k s).cfg k) 0#DW
        (latchSlot k s)) s =
      { s with
        tr := s.tr ++ writeEvents (ks.map fun k => (slotReg s.cfg k, 0#DW))
        x := (ks.map fun k => (slotReg s.cfg k, 0#DW)).foldl (fun x w => x.set w.1.toNat w.2) s.x
        seq := seq } := by
  induction ks generalizing s with
  | nil => exact ⟨s.seq, by simp [writeEvents]⟩
  | cons k ks ih =>
    obtain ⟨seq, h⟩ := ih (frame (digitAddr (latchSlot k s).cfg k) 0#DW (latchSlot k s))
      (by simp [frame_eq])
    exact ⟨seq, by rw [List.foldl_cons, h]; simp [frame_eq, writeEvents, latchSlot, digitAddr_eq_slotReg, hc]⟩

/-- The digits blanked: a frame of zero for each, and nothing else but the sequencer. -/
theorem blankDigits_eq (s : State) (hc : s.cs = .released) :
    ∃ seq, blankDigits s =
      { s with
        tr := s.tr ++ writeEvents (clearWrites s.cfg)
        x := (clearWrites s.cfg).foldl (fun x w => x.set w.1.toNat w.2) s.x
        seq := seq } := by
  obtain ⟨seq, h⟩ := blankSlots_eq (slots s.cfg) s hc
  exact ⟨{ seq with s := some s.cfg.lit.nSlot }, by rw [blankDigits, forSlots, h]; rfl⟩

/-- The configuration writes of `INIT`: five frames, and nothing else but the sequencer. -/
theorem configure_eq (s : State) (hc : s.cs = .released) :
    ∃ seq, configure s =
      { s with
        tr := s.tr ++ writeEvents (configWrites s.cfg)
        x := (configWrites s.cfg).foldl (fun x w => x.set w.1.toNat w.2) s.x
        seq := seq } :=
  frames_eq (configWrites s.cfg) s hc

/-- The look-ahead of the cursor is the period at the head of what follows the character. -/
theorem lookAhead_eq (cfg : Config) (text : List Code) (n : Nat) :
    lookAhead cfg text n = ((text.drop (n + 1)).head? = some cfg.period : Bool) := by
  simp only [lookAhead, List.head?_drop]
  rcases h : text[n + 1]? with _ | c
  · simp
  · have : n + 1 < text.length := (List.getElem?_eq_some_iff.mp h).1
    simp [this]

/-- The units of a text after its first character, by the character that follows. -/
theorem units_cons (cfg : Config) (c : Code) (rest : List Code) :
    units cfg (c :: rest) =
      if rest.head? = some cfg.period then (c, true) :: units cfg rest.tail else (c, false) :: units cfg rest := by
  cases rest with
  | nil => simp [units]
  | cons n rest => by_cases h : n = cfg.period <;> simp [units, h]

/-- Everything one slot iteration of `RSTR` does: the slot shows the first unit of what is left of the text, or a
blank, and the cursor moves to what is left after that unit. -/
theorem renderNext_eq (k : Nat) (s : State) (text : List Code) (n : Nat) (hc : s.cs = .released)
    (ht : s.seq.txt = some text) (hn : s.seq.cur = some n) :
    let us := units s.cfg (text.drop n)
    let u := us.head?.getD (s.cfg.space, false)
    ∃ seq n', seq.txt = some text ∧ seq.cur = some n' ∧ units s.cfg (text.drop n') = us.tail ∧
      renderNext k s =
        { s with tr := s.tr ++ slotEvents s.cfg k u, x := slotWrite s.cfg k u s.x, seq := seq } := by
  intro us u
  rcases h : text[n]? with _ | c
  · have hd : text.drop n = [] := List.drop_eq_nil_iff.mpr (List.getElem?_eq_none_iff.mp h)
    obtain ⟨seq, h1, h2, -, h4⟩ := render_eq k s.cfg.space false s hc
    refine ⟨seq, n, h1.trans ht, h2.trans hn, by simp [us, hd, units], ?_⟩
    simp [renderNext, ht, hn, h, h4, u, us, hd, units]
  · have hlt : n < text.length := (List.getElem?_eq_some_iff.mp h).1
    have hd : text.drop n = c :: text.drop (n + 1) := by
      rw [List.drop_eq_getElem_cons hlt, (List.getElem?_eq_some_iff.mp h).2]
    have hl := lookAhead_eq s.cfg text n
    have hu : us = _ := congrArg (units s.cfg) hd |>.trans (units_cons s.cfg c _)
    by_cases hp : (text.drop (n + 1)).head? = some s.cfg.period
    · obtain ⟨seq, h1, -, -, h4⟩ := render_eq k c true s hc
      rw [if_pos hp] at hu
      refine ⟨{ seq with cur := some (n + 2) }, n + 2, h1.trans ht, rfl, by simp [hu], ?_⟩
      simp only [renderNext, ht, hn, h, hl, hp, h4, u, hu, setCur, Option.getD_some, decide_true, if_true, List.head?_cons]
    · obtain ⟨seq, h1, -, -, h4⟩ := render_eq k c false s hc
      rw [if_neg hp] at hu
      refine ⟨{ seq with cur := some (n + 1) }, n + 1, h1.trans ht, rfl, by simp [hu], ?_⟩
      simp only [renderNext, ht, hn, h, hl, hp, h4, u, hu, setCur, Option.getD_some, decide_false, if_false,
        Bool.false_eq_true, List.head?_cons]

/-! ### The walk of `RSTR` over the slots -/

/-- The registers after the slots of a list each show what a function gives them. -/
def showAll (cfg : Config) (f : Nat → Code × Bool) (ks : List Nat) (x : Registers) : Registers :=
  ks.foldl (fun x k => slotWrite cfg k (f k) x) x

/-- A slot changes no register but its own. -/
theorem slotWrite_other (cfg : Config) (k : Nat) (u : Code × Bool) (x : Registers) (a : RegAddr)
    (h : a ≠ slotReg cfg k) : (slotWrite cfg k u x)[a.toNat] = x[a.toNat] := by
  unfold slotWrite
  split
  · exact set_reg_ne _ h
  · rfl

/-- A register that belongs to none of the slots keeps its value. -/
theorem showAll_other (cfg : Config) (f : Nat → Code × Bool) (ks : List Nat) (x : Registers) (a : RegAddr)
    (h : ∀ k ∈ ks, a ≠ slotReg cfg k) : (showAll cfg f ks x)[a.toNat] = x[a.toNat] := by
  unfold showAll
  induction ks generalizing x with
  | nil => rfl
  | cons k ks ih =>
    rw [List.foldl_cons, ih _ fun k hk => h k (List.mem_cons_of_mem _ hk)]
    exact slotWrite_other _ _ _ _ _ (h k (by simp))

/-- Each slot's register shows what the function gives it, or keeps its value. -/
theorem showAll_slot (cfg : Config) (f : Nat → Code × Bool) (ks : List Nat) (hnd : ks.Nodup)
    (hlt : ∀ k ∈ ks, k < 2 ^ AW) (x : Registers) (k : Nat) (hk : k ∈ ks) :
    (showAll cfg f ks x)[(slotReg cfg k).toNat] =
      match cfg.glyph (f k).1 with
      | some p => if (f k).2 then p ||| cfg.dpBit else p
      | none => x[(slotReg cfg k).toNat] := by
  induction ks generalizing x with
  | nil => simp at hk
  | cons j ks ih =>
    rw [List.nodup_cons] at hnd
    have inj {k' : Nat} (hk' : k' ∈ ks) (e : slotReg cfg j = slotReg cfg k') : j = k' :=
      slotReg_injective (hlt j (by simp)) (hlt k' (List.mem_cons_of_mem _ hk')) e
    change (showAll cfg f ks (slotWrite cfg j (f j) x))[(slotReg cfg k).toNat] = _
    rcases List.mem_cons.mp hk with rfl | hk'
    · rw [showAll_other _ _ _ _ _ fun k' hk' e => hnd.1 (by rw [inj hk' e]; exact hk')]
      unfold slotWrite
      cases cfg.glyph (f k).1 <;> simp
    · rw [ih hnd.2 (fun k' hm => hlt k' (List.mem_cons_of_mem _ hm)) _ hk']
      have hne : slotReg cfg k ≠ slotReg cfg j := fun e => hnd.1 (by rw [inj hk' e.symm]; exact hk')
      rw [slotWrite_other _ _ _ _ _ hne]

/-- The events and the registers of a list of slots, each showing the next unit or a blank. -/
def walk (cfg : Config) : List Nat → List (Code × Bool) → Registers → List Event × Registers
  | [], _, x => ([], x)
  | k :: ks, us, x =>
    let u := us.head?.getD (cfg.space, false)
    let r := walk cfg ks us.tail (slotWrite cfg k u x)
    (slotEvents cfg k u ++ r.1, r.2)

/-- The iterations of a list of slots show the units that are left, one per slot. -/
theorem renderSlots_eq (ks : List Nat) (s : State) (text : List Code) (n : Nat) (hc : s.cs = .released)
    (ht : s.seq.txt = some text) (hn : s.seq.cur = some n) :
    ∃ seq, ks.foldl (fun s k => renderNext k (latchSlot k s)) s =
      { s with
        tr := s.tr ++ (walk s.cfg ks (units s.cfg (text.drop n)) s.x).1
        x := (walk s.cfg ks (units s.cfg (text.drop n)) s.x).2
        seq := seq } := by
  induction ks generalizing s n with
  | nil => exact ⟨s.seq, by simp [walk]⟩
  | cons k ks ih =>
    obtain ⟨seq, n', h1, h2, h3, h4⟩ := renderNext_eq k (latchSlot k s) text n hc ht hn
    rw [List.foldl_cons, h4]
    obtain ⟨seq', e⟩ := ih { latchSlot k s with
        tr := _
        x := _
        seq := seq } n' hc h1 h2
    refine ⟨seq', ?_⟩
    rw [e]
    simp only [latchSlot] at h3 ⊢
    simp [walk, h3]

/-- The walk over slots in ascending order shows in each the unit with the slot's number. -/
theorem walk_range (cfg : Config) (us : List (Code × Bool)) (n a : Nat) (x : Registers) :
    walk cfg (List.range' a n) (us.drop a) x =
      ((List.range' a n).flatMap fun k => slotEvents cfg k ((us[k]?).getD (cfg.space, false)),
        showAll cfg (fun k => (us[k]?).getD (cfg.space, false)) (List.range' a n) x) := by
  induction n generalizing a x with
  | zero => rfl
  | succ n ih =>
    simp only [List.range'_succ, walk, List.tail_drop, ih (a + 1), List.head?_drop, List.flatMap_cons, showAll,
      List.foldl_cons]

/-- The walk over the slots shows the unit with the slot's number in each. -/
theorem walk_slots (cfg : Config) (us : List (Code × Bool)) (x : Registers) :
    walk cfg (allSlots cfg) us x =
      ((allSlots cfg).flatMap fun k => slotEvents cfg k ((us[k]?).getD (cfg.space, false)),
        showAll cfg (fun k => (us[k]?).getD (cfg.space, false)) (allSlots cfg) x) := by
  rw [allSlots, List.range_eq_range']
  exact walk_range cfg us _ 0 x

/-- The whole walk of `RSTR`, whatever the number of slots: a trace of slots, the registers as it says, and nothing else
but the sequencer. -/
theorem walkText_eq (text : List Code) (s : State) (hc : s.cs = .released) :
    ∃ seq, forSlots renderNext (latchText text s) =
      { s with
        tr := s.tr ++ (walk s.cfg (allSlots s.cfg) (units s.cfg text) s.x).1
        x := (walk s.cfg (allSlots s.cfg) (units s.cfg text) s.x).2
        seq := seq } := by
  obtain ⟨seq, e⟩ := renderSlots_eq (slots s.cfg) (latchText text s) text 0 hc rfl rfl
  refine ⟨{ seq with s := some s.cfg.lit.nSlot }, ?_⟩
  unfold forSlots
  rw [show (latchText text s).cfg = s.cfg from rfl, e]
  rfl

/-- The whole walk of `RSTR`: the text's events, each slot showing its unit, and nothing else but the
sequencer. -/
theorem showText_eq (text : List Code) (s : State) (hc : s.cs = .released) :
    ∃ seq, forSlots renderNext (latchText text s) =
      { s with
        tr := s.tr ++ textEvents s.cfg text
        x := showAll s.cfg (unitAt s.cfg text) (allSlots s.cfg) s.x
        seq := seq } := by
  obtain ⟨seq, e⟩ := walkText_eq text s hc
  refine ⟨seq, ?_⟩
  rw [e, walk_slots]
  rfl

end Sys2Proof.Machine
end

