-- ==== Sys2Proof/Laws/Step.lean ====
section
/-! SUPPORT. What an operation and a step can do: one inversion lemma for `exec`, one for the fetch, one for the
host's action, one for the step. -/

namespace Sys2Proof.Machine

/-! ### The arms of `exec`, each its meaning written out -/

theorem exec_init (s : State) :
    exec .init s = whenSerialOpen s fun s => (blankDigits (configure s)).endOp := rfl
theorem exec_wreg (a : RegAddr) (d : Byte) (s : State) :
    exec (.wreg a d) s = whenSerialOpen s fun s => (frame a d s).endOp := rfl
theorem exec_rchar (k : Slot) (c : Code) (dp : Bool) (s : State) :
    exec (.rchar k c dp) s = whenSerialOpen s fun s => (render k.toNat c dp s).endOp := rfl
theorem exec_rstr (text : List Code) (s : State) :
    exec (.rstr text) s = whenSerialOpen s fun s => (forSlots renderNext (latchText text s)).endOp := rfl
theorem exec_clear (s : State) : exec .clear s = whenSerialOpen s fun s => (blankDigits s).endOp := rfl
theorem exec_sopen (addr : Byte) (s : State) :
    exec (.sopen addr) s = whenSensorClosed s fun s => (openSession addr s).endOp := rfl
theorem exec_rdtemp (s : State) :
    exec .rdtemp s = whenSensorOpen s fun h s => (deliver .t (measureRaw h s.cfg.cmdTrigT s)).endOp := rfl
theorem exec_rdhum (s : State) :
    exec .rdhum s = whenSensorOpen s fun h s => (deliver .rh (measureRaw h s.cfg.cmdTrigRh s)).endOp := rfl
theorem exec_dframe (a : RegAddr) (d : Byte) (s : State) :
    exec (.dframe a d) s = whenSerialOpen s fun s => (frame a d s).endOp := rfl
theorem exec_scmdT (s : State) :
    exec .scmdT s = whenSensorOpen s fun _ s => (busCommand s.cfg.cmdTrigT s).endOp := rfl
theorem exec_scmdRh (s : State) :
    exec .scmdRh s = whenSensorOpen s fun _ s => (busCommand s.cfg.cmdTrigRh s).endOp := rfl
theorem exec_sdata (raw : Raw) (s : State) :
    exec (.sdata raw) s =
      whenSensorOpen s fun _ s => (takeSecond (rawLow raw) (takeFirst (rawHigh raw) s)).endOp := rfl

/-- Everything an operation can answer a next state with: nothing after a fatal stop, else its own effect in a
state that meets its conditions. -/
theorem exec_next {i : Instr} {s t : State} (h : exec i s = .next t) :
    (s.fatal.isSome ∧ t = s) ∨ (Accepting s ∧
      match i with
      | .init => s.ser ≠ none ∧ t = (blankDigits (configure s)).endOp
      | .wreg a d => s.ser ≠ none ∧ t = (frame a d s).endOp
      | .rchar k c dp => s.ser ≠ none ∧ t = (render k.toNat c dp s).endOp
      | .rstr text => s.ser ≠ none ∧ t = (forSlots renderNext (latchText text s)).endOp
      | .clear => s.ser ≠ none ∧ t = (blankDigits s).endOp
      | .sopen addr => s.sh = none ∧ t = (openSession addr s).endOp
      | .rdtemp => ∃ hd, s.sh = some hd ∧ t = (deliver .t (measureRaw hd s.cfg.cmdTrigT s)).endOp
      | .rdhum => ∃ hd, s.sh = some hd ∧ t = (deliver .rh (measureRaw hd s.cfg.cmdTrigRh s)).endOp
      | .dframe a d => s.ser ≠ none ∧ t = (frame a d s).endOp
      | .scmdT => s.sh ≠ none ∧ t = (busCommand s.cfg.cmdTrigT s).endOp
      | .scmdRh => s.sh ≠ none ∧ t = (busCommand s.cfg.cmdTrigRh s).endOp
      | .sdata raw => s.sh ≠ none ∧ t = (takeSecond (rawLow raw) (takeFirst (rawHigh raw) s)).endOp) := by
  have serial {k : State → State} (h : whenSerialOpen s k = .next t) :
      (s.fatal.isSome ∧ t = s) ∨ (Accepting s ∧ s.ser ≠ none ∧ t = k s) :=
    (whenSerialOpen_next h).imp_right fun ⟨⟨ha, hs⟩, ht⟩ => ⟨ha, hs, ht⟩
  have sensor {k : State → State} (h : whenSensorOpen s (fun _ => k) = .next t) :
      (s.fatal.isSome ∧ t = s) ∨ (Accepting s ∧ s.sh ≠ none ∧ t = k s) :=
    (whenSensorOpen_next h).imp_right fun ⟨_, ⟨ha, hs⟩, ht⟩ => ⟨ha, by simp [hs], ht⟩
  have reading {k : Handle → State → State} (h : whenSensorOpen s k = .next t) :
      (s.fatal.isSome ∧ t = s) ∨ (Accepting s ∧ ∃ hd, s.sh = some hd ∧ t = k hd s) :=
    (whenSensorOpen_next h).imp_right fun ⟨hd, ⟨ha, hs⟩, ht⟩ => ⟨ha, hd, hs, ht⟩
  cases i with
  | init => rw [exec_init] at h; have h := serial h; exact h
  | wreg a d => rw [exec_wreg] at h; have h := serial h; exact h
  | rchar k c dp => rw [exec_rchar] at h; have h := serial h; exact h
  | rstr text => rw [exec_rstr] at h; have h := serial h; exact h
  | clear => rw [exec_clear] at h; have h := serial h; exact h
  | sopen addr =>
    rw [exec_sopen] at h
    rcases whenSensorClosed_next h with h | ⟨⟨ha, hs⟩, ht⟩
    · exact .inl h
    · exact .inr ⟨ha, hs, ht⟩
  | rdtemp => rw [exec_rdtemp] at h; have h := reading h; exact h
  | rdhum => rw [exec_rdhum] at h; have h := reading h; exact h
  | dframe a d => rw [exec_dframe] at h; have h := serial h; exact h
  | scmdT => rw [exec_scmdT] at h; have h := sensor h; exact h
  | scmdRh => rw [exec_scmdRh] at h; have h := sensor h; exact h
  | sdata raw => rw [exec_sdata] at h; have h := sensor h; exact h

/-- Everything the fetch can answer an operation with: the one word of a wire, or the packet at the head of the command
port, taken. -/
theorem fetch_run {s s' : State} {i : Instr} (h : fetch s = .run i s') :
    (∃ link bytes, s.wire = some (link, bytes) ∧ decode s.cfg link bytes = .ok (i, []) ∧
      s' = { s with wire := none }) ∨
    (s.wire = none ∧ ∃ rest, decode s.cfg .command s.cmd = .ok (i, rest) ∧ s' = { s with cmd := rest }) := by
  unfold fetch at h
  split at h
  · rename_i link bytes hw
    split at h
    · rename_i hd
      simp only [Fetched.run.injEq] at h
      exact .inl ⟨link, bytes, hw, by rw [hd, h.1], h.2.symm⟩
    · simp at h
    · simp at h
  · rename_i hw
    split at h
    · simp at h
    · rename_i b bs hc
      split at h
      · rename_i hd
        simp only [Fetched.run.injEq] at h
        exact .inr ⟨hw, _, by rw [hc, hd, h.1], h.2.symm⟩
      · simp at h

/-- The fetch answers nothing exactly when nothing waits at a port. -/
theorem fetch_nothing {s : State} : fetch s = .nothing ↔ s.wire = none ∧ s.cmd = [] := by
  constructor
  · intro h
    unfold fetch at h
    split at h
    · split at h <;> simp at h
    · rename_i hw
      split at h
      · rename_i hc
        exact ⟨hw, hc⟩
      · split at h <;> simp at h
  · rintro ⟨hw, hc⟩
    simp [fetch, hw, hc]

/-- Everything the host can do in a step: its next action, or nothing when its sequence has ended. -/
theorem hostStep_next {s t : State} (h : hostStep s = .next t) :
    s.quiet = true ∧
    ((∃ act, (hostScript s.cfg s.hs)[s.hpos]? = some act ∧ t = hostAct act { s with hpos := s.hpos + 1 }) ∨
      ((hostScript s.cfg s.hs)[s.hpos]? = none ∧ t = s)) := by
  unfold hostStep at h
  split at h
  · rename_i hq
    refine ⟨hq, ?_⟩
    split at h
    · rename_i act ha
      exact .inl ⟨act, ha, by simpa using h.symm⟩
    · rename_i ha
      exact .inr ⟨ha, by simpa using h.symm⟩
  · simp at h

/-- Everything a step can do: nothing after a fatal stop, an operation that waits at a port, or an action of the
host. -/
theorem step_next {s t : State} (h : step s = .next t) :
    (s.fatal.isSome ∧ t = s) ∨
    (s.fatal = none ∧ ∃ i s', fetch s = .run i s' ∧ exec i s' = .next t) ∨
    (s.fatal = none ∧ s.wire = none ∧ s.cmd = [] ∧ hostStep s = .next t) := by
  unfold step at h
  split at h
  · rename_i hf
    exact .inl ⟨hf, by simpa using h.symm⟩
  · rename_i hf
    have hf : s.fatal = none := by simpa using hf
    split at h
    · rename_i i s' hr
      exact .inr (.inl ⟨hf, i, s', hr, h⟩)
    · rename_i hn
      exact .inr (.inr ⟨hf, (fetch_nothing.mp hn).1, (fetch_nothing.mp hn).2, h⟩)
    · simp at h

/-- The host's next action, when nothing waits at a port. -/
theorem step_of_hostNext {s : State} {act : HostAct} (h : HostNext s act) :
    step s = .next (hostAct act { s with hpos := s.hpos + 1 }) := by
  obtain ⟨⟨hf, hq, hc⟩, hw, hcmd, ha⟩ := h
  simp [step, hf, fetch_nothing.mpr ⟨hw, hcmd⟩, hostStep, State.quiet, hq, hc, ha]

/-! ### Runs -/

theorem stepsFrom_zero (s : State) : stepsFrom 0 s = .next s := rfl

/-- A run of any machine goes on from the state its first step leads to. -/
theorem run_succ (M : Host.Core) {s t : M.State} (n : Nat) (h : M.step s = .next t) :
    M.run (n + 1) s = M.run n t := by
  simp [Host.Core.run, h]

/-- A run goes on from the state its first step leads to. -/
theorem stepsFrom_succ {s t : State} (n : Nat) (h : step s = .next t) : stepsFrom (n + 1) s = stepsFrom n t :=
  run_succ Sys2Proof.core n h

end Sys2Proof.Machine
end

