-- ==== Sys2Proof/Laws/Trace.lean ====
section
/-! SUPPORT. Traces: whole frames put together stay whole, and what the display registers take from them. -/

namespace Sys2Proof.Machine

/-! ### Whole frames -/

theorem wellFramed_append {a b : List Event} (ha : WellFramed a) (hb : WellFramed b) : WellFramed (a ++ b) := by
  unfold WellFramed at *
  rw [List.foldl_append, ha, hb]

theorem wellFramed_frame (a : RegAddr) (d : Data) : WellFramed (frameEvents a d) := by
  simp [WellFramed, frameEvents, FramePhase.next, FramePhase.onAssert, FramePhase.onXfer, FramePhase.onRelease]

theorem wellFramed_writes (ws : List (RegAddr × Data)) : WellFramed (writeEvents ws) := by
  induction ws with
  | nil => rfl
  | cons w ws ih =>
    rw [show writeEvents (w :: ws) = frameEvents w.1 w.2 ++ writeEvents ws from rfl]
    exact wellFramed_append (wellFramed_frame _ _) ih

theorem wellFramed_slot (cfg : Config) (k : Nat) (u : Code × Bool) : WellFramed (slotEvents cfg k u) := by
  unfold slotEvents
  split
  · rfl
  · exact wellFramed_frame _ _

theorem wellFramed_flatMap {α : Type} (f : α → List Event) (h : ∀ a, WellFramed (f a)) (l : List α) :
    WellFramed (l.flatMap f) := by
  induction l with
  | nil => rfl
  | cons a l ih => exact wellFramed_append (h a) ih

/-! ### What the registers take from a trace -/

theorem replay_append (x : Registers) (a b : List Event) : replay x (a ++ b) = replay (replay x a) b := by
  induction a generalizing x with
  | nil => rfl
  | cons e a ih => cases e <;> simp [replay, ih]

theorem replay_frame (x : Registers) (a : RegAddr) (d : Data) :
    replay x (frameEvents a d) = x.set a.toNat d := by
  simp only [frameEvents, replay, frameAddr_frameOf, frameData_frameOf]

theorem replay_writes (ws : List (RegAddr × Data)) (x : Registers) :
    replay x (writeEvents ws) = ws.foldl (fun x w => x.set w.1.toNat w.2) x := by
  induction ws generalizing x with
  | nil => rfl
  | cons w ws ih =>
    rw [show writeEvents (w :: ws) = frameEvents w.1 w.2 ++ writeEvents ws from rfl, replay_append, replay_frame,
      ih, List.foldl_cons]

theorem replay_slot (cfg : Config) (k : Nat) (u : Code × Bool) (x : Registers) :
    replay x (slotEvents cfg k u) = slotWrite cfg k u x := by
  unfold slotEvents slotWrite
  split
  · rename_i h; rw [h]; rfl
  · rename_i h; rw [h]; exact replay_frame _ _ _

theorem wellFramed_walk (cfg : Config) (ks : List Nat) (us : List (Code × Bool)) (x : Registers) :
    WellFramed (walk cfg ks us x).1 := by
  induction ks generalizing us x with
  | nil => rfl
  | cons k ks ih => exact wellFramed_append (wellFramed_slot _ _ _) (ih _ _)

theorem replay_walk (cfg : Config) (ks : List Nat) (us : List (Code × Bool)) (x : Registers) :
    replay x (walk cfg ks us x).1 = (walk cfg ks us x).2 := by
  induction ks generalizing us x with
  | nil => rfl
  | cons k ks ih => simp only [walk, replay_append, replay_slot, ih]

theorem replay_slots (cfg : Config) (f : Nat → Code × Bool) (ks : List Nat) (x : Registers) :
    replay x (ks.flatMap fun k => slotEvents cfg k (f k)) = showAll cfg f ks x := by
  induction ks generalizing x with
  | nil => rfl
  | cons k ks ih =>
    rw [List.flatMap_cons, replay_append, replay_slot, ih]
    rfl

end Sys2Proof.Machine
end

