-- ==== Sys2Proof/Laws/Effect.lean ====
section
/-! SUPPORT. Everything an operation, and an action of the host, can do to the state: one lemma each, from which an
invariant of every step follows by cases. -/

namespace Sys2Proof.Machine

/-- What an operation leaves of the handles and the latch: as they were, or, for `SOPEN`, a handle kept or the fatal
entry. -/
def SessionEffect (i : Instr) (s : State) (evs : List Event) (x : Registers) (sh : Option Handle)
    (fatal : Option FatalCode) (hs : HostState) : Prop :=
  (sh = s.sh ∧ fatal = none ∧ hs = s.hs) ∨
  ∃ addr hd, i = .sopen addr ∧ s.sh = none ∧ x = s.x ∧
    ((StoredHandle s.cfg hd ∧ sh = some hd ∧ fatal = none ∧ hs = s.hs) ∨
      (sh = none ∧ fatal = some .bus ∧ hs = .stopped ∧
        evs = [.busOpen addr hd, .diag .busInitError, .fatal s.cfg.lit.exitBus, .exit s.cfg.lit.exitBus]))

/-- An answer read as a handle of `HANDLEW` bits can be stored if it is not negative. -/
theorem busHandle_stored {cfg : Config} {v : Int} (h : 0 ≤ busHandle cfg v) : StoredHandle cfg (busHandle cfg v) := by
  refine ⟨h, ?_⟩
  have h2 : busHandle cfg v < (((2 ^ cfg.handleW : Nat) : Int) + 1) / 2 := by
    have := Int.bmod_lt (x := v) (m := 2 ^ cfg.handleW) (Nat.pow_pos (by decide))
    exact this
  rcases Nat.eq_zero_or_pos cfg.handleW with e | e
  · rw [e] at h2 ⊢
    simpa using h2
  · obtain ⟨n, hn⟩ : ∃ n, cfg.handleW = n + 1 := ⟨cfg.handleW - 1, by omega⟩
    rw [hn] at h2 ⊢
    have e2 : (((2 ^ (n + 1) : Nat) : Int) + 1) / 2 = 2 ^ n := by
      push_cast [pow_succ]
      generalize (2 : Int) ^ n = m
      omega
    rw [e2] at h2
    exact h2

/-- The answer of `openBusSession` is an answer read as a handle. -/
theorem nextBusHandle_eq (s : State) (addr : Byte) : ∃ v, s.nextBusHandle addr = busHandle s.cfg v := by
  unfold State.nextBusHandle
  split <;> exact ⟨_, rfl⟩

/-- A handle of the serial channel can be stored. -/
theorem serialHandle_stored (cfg : Config) (v : Nat) : StoredHandle cfg (serialHandle cfg v) := by
  refine ⟨Int.natCast_nonneg _, ?_⟩
  have h : v % 2 ^ (cfg.handleW - 1) < 2 ^ (cfg.handleW - 1) := Nat.mod_lt _ (Nat.pow_pos (by decide))
  unfold serialHandle
  exact_mod_cast h

/-- Everything an operation can do: nothing after a fatal stop; else whole frames and other events in the trace, the
registers as the trace says, its session effect, answers consumed, and nothing else. -/
theorem exec_effect {i : Instr} {s t : State} (h : exec i s = .next t) :
    (s.fatal.isSome ∧ t = s) ∨ (Accepting s ∧ ∃ evs x sh fatal hs env,
      t = { s with tr := s.tr ++ evs, x := x, sh := sh, fatal := fatal, hs := hs, env := env } ∧
      x = replay s.x evs ∧ WellFramed evs ∧ SessionEffect i s evs x sh fatal hs) := by
  rcases exec_next h with h' | ⟨ha, hb⟩
  · exact .inl h'
  refine .inr ⟨ha, ?_⟩
  obtain ⟨hf, hq, hc⟩ := ha
  have keep {evs : List Event} {x : Registers} {env : Env}
      (ht : t = { s with tr := s.tr ++ evs, x := x, env := env }) (hx : replay s.x evs = x) (hw : WellFramed evs) :
      ∃ evs x sh fatal hs env,
        t = { s with tr := s.tr ++ evs, x := x, sh := sh, fatal := fatal, hs := hs, env := env } ∧
        x = replay s.x evs ∧ WellFramed evs ∧ SessionEffect i s evs x sh fatal hs :=
    ⟨evs, x, s.sh, s.fatal, s.hs, env, ht, hx.symm, hw, .inl ⟨rfl, hf, rfl⟩⟩
  cases i with
  | init =>
    obtain ⟨_, rfl⟩ := hb
    obtain ⟨seq, h1⟩ := configure_eq s hc
    obtain ⟨seq', h2⟩ := blankDigits_eq (configure s) (by rw [h1]; exact hc)
    refine keep (evs := writeEvents (configWrites s.cfg ++ clearWrites s.cfg)) (env := s.env) ?_ (replay_writes _ _)
      (wellFramed_writes _)
    rw [h2, h1]
    simp [State.endOp, ← hq, writeEvents]
  | wreg a d =>
    obtain ⟨_, rfl⟩ := hb
    refine keep (env := s.env) ?_ (replay_frame s.x a d) (wellFramed_frame a d)
    rw [frame_eq]
    simp [State.endOp, ← hq, hc]
  | rchar k c dp =>
    obtain ⟨_, rfl⟩ := hb
    obtain ⟨seq, -, -, -, hr⟩ := render_eq k.toNat c dp s hc
    refine keep (env := s.env) ?_ (replay_slot s.cfg k.toNat (c, dp) s.x) (wellFramed_slot s.cfg k.toNat (c, dp))
    rw [hr]
    simp [State.endOp, ← hq]
  | rstr text =>
    obtain ⟨_, rfl⟩ := hb
    obtain ⟨seq, hr⟩ := walkText_eq text s hc
    refine keep (env := s.env) ?_ (replay_walk s.cfg (allSlots s.cfg) (units s.cfg text) s.x)
      (wellFramed_walk s.cfg (allSlots s.cfg) (units s.cfg text) s.x)
    rw [hr]
    simp [State.endOp, ← hq]
  | clear =>
    obtain ⟨_, rfl⟩ := hb
    obtain ⟨seq, hr⟩ := blankDigits_eq s hc
    refine keep (env := s.env) ?_ (replay_writes (clearWrites s.cfg) s.x) (wellFramed_writes (clearWrites s.cfg))
    rw [hr]
    simp [State.endOp, ← hq]
  | sopen addr =>
    obtain ⟨hs, rfl⟩ := hb
    by_cases hn : s.nextBusHandle addr < 0
    · refine ⟨[.busOpen addr (s.nextBusHandle addr), .diag .busInitError, .fatal s.cfg.lit.exitBus,
        .exit s.cfg.lit.exitBus], s.x, none, some .bus,
        .stopped, s.dropBusHandle.env, ?_, rfl, rfl,
        .inr ⟨addr, s.nextBusHandle addr, rfl, hs, rfl, .inr ⟨rfl, rfl, rfl, rfl⟩⟩⟩
      simp [openSession, handleFailed, hn, State.endOp, ← hq, State.emit, State.dropBusHandle, hs]
    · have hstored : StoredHandle s.cfg (s.nextBusHandle addr) := by
        obtain ⟨v, e⟩ := nextBusHandle_eq s addr
        rw [e] at hn ⊢
        exact busHandle_stored (not_lt.mp hn)
      refine ⟨[.busOpen addr (s.nextBusHandle addr)], s.x, some (s.nextBusHandle addr), none, s.hs,
        s.dropBusHandle.env, ?_, rfl, rfl,
        .inr ⟨addr, s.nextBusHandle addr, rfl, hs, rfl, .inl ⟨hstored, rfl, rfl, rfl⟩⟩⟩
      simp only [openSession, handleFailed, hn, State.endOp, ← hq, decide_false, Bool.false_eq_true, if_false, ← hf]
      simp [State.emit, State.dropBusHandle]
  | rdtemp =>
    obtain ⟨hd, hs, rfl⟩ := hb
    refine keep (evs := measureEvents s.cfg s.cfg.cmdTrigT (s.nextByte hd) (s.dropByte.nextByte hd) .t
      (convT s.cfg (rawOf (s.nextByte hd) (s.dropByte.nextByte hd)))) (x := s.x) (env := s.dropByte.dropByte.env) ?_ rfl rfl
    simp only [deliver, measureRaw_raw]
    rw [measureRaw_eq]
    simp [State.endOp, State.emit, measureEvents, ← hq]
  | rdhum =>
    obtain ⟨hd, hs, rfl⟩ := hb
    refine keep (evs := measureEvents s.cfg s.cfg.cmdTrigRh (s.nextByte hd) (s.dropByte.nextByte hd) .rh
      (convRh s.cfg (rawOf (s.nextByte hd) (s.dropByte.nextByte hd)))) (x := s.x) (env := s.dropByte.dropByte.env) ?_ rfl rfl
    simp only [deliver, measureRaw_raw]
    rw [measureRaw_eq]
    simp [State.endOp, State.emit, measureEvents, ← hq]
  | dframe a d =>
    obtain ⟨_, rfl⟩ := hb
    refine keep (env := s.env) ?_ (replay_frame s.x a d) (wellFramed_frame a d)
    rw [frame_eq]
    simp [State.endOp, ← hq, hc]
  | scmdT =>
    obtain ⟨_, rfl⟩ := hb
    refine keep (evs := [.busCmd s.cfg.cmdTrigT]) (x := s.x) (env := s.env) ?_ rfl rfl
    simp [busCommand, State.emit, State.endOp, ← hq]
  | scmdRh =>
    obtain ⟨_, rfl⟩ := hb
    refine keep (evs := [.busCmd s.cfg.cmdTrigRh]) (x := s.x) (env := s.env) ?_ rfl rfl
    simp [busCommand, State.emit, State.endOp, ← hq]
  | sdata raw =>
    obtain ⟨_, rfl⟩ := hb
    refine keep (evs := [.busRead (rawHigh raw), .busRead (rawLow raw)]) (x := s.x) (env := s.env) ?_ rfl rfl
    simp [takeSecond, takeFirst, State.emit, State.endOp, ← hq]

/-! ### The host -/

/-- `PINSETUP`: the events of its calls, in their order, and nothing else. -/
theorem pinSetup_eq (s : State) :
    pinSetup s = { s with tr := s.tr ++ s.cfg.pinCalls.map fun p => .pinCfg (pinId s.cfg p) (pinDir p) } := by
  have h (cfg : Config) (ps : List HostPin) : ∀ s : State, s.cfg = cfg →
      ps.foldl (fun s p => s.emit (.pinCfg (pinId s.cfg p) (pinDir p))) s =
        { s with tr := s.tr ++ ps.map fun p => .pinCfg (pinId cfg p) (pinDir p) } := by
    induction ps with
    | nil => intro s _; simp
    | cons p ps ih =>
      intro s hs
      rw [List.foldl_cons, ih (s.emit (.pinCfg (pinId s.cfg p) (pinDir p))) hs]
      simp [State.emit, hs]
  exact h s.cfg s.cfg.pinCalls s rfl

/-- `LEDREADY`: one write per LED of its order, and nothing else. -/
theorem ledReady_eq (s : State) :
    ledReady s = { s with
      tr := s.tr ++ s.cfg.ledOrder.map fun i => .pinWrite (s.cfg.ledPin.getD i 0) s.cfg.ledReadyLevel
      leds := s.cfg.ledOrder.foldl (fun l i => l.set i s.cfg.ledReadyLevel) s.leds } := by
  have h (ps : List Nat) : ∀ s : State, ps.foldl (fun s i => writeLed i s) s = { s with
      tr := s.tr ++ ps.map fun i => .pinWrite (s.cfg.ledPin.getD i 0) s.cfg.ledReadyLevel
      leds := ps.foldl (fun l i => l.set i s.cfg.ledReadyLevel) s.leds } := by
    induction ps with
    | nil => intro s; simp
    | cons p ps ih => intro s; rw [List.foldl_cons, ih _]; simp [writeLed, State.emit, pinId]
  exact h s.cfg.ledOrder s

/-- Writing levels keeps the number of LEDs. -/
theorem leds_length (l : Level) (ps : List Nat) (v : List Level) :
    (ps.foldl (fun v i => v.set i l) v).length = v.length := by
  induction ps generalizing v with
  | nil => rfl
  | cons p ps ih => rw [List.foldl_cons, ih, List.length_set]

/-- The level of a LED after writes of one level: that level if it was written, else what it was. -/
theorem leds_after (l : Level) (ps : List Nat) (v : List Level) (i : Nat) (hi : i < v.length) :
    (ps.foldl (fun v i => v.set i l) v)[i]? = some (if i ∈ ps then l else v[i]) := by
  induction ps generalizing v with
  | nil => simp [hi]
  | cons p ps ih =>
    rw [List.foldl_cons, ih _ (by simpa using hi)]
    by_cases h : i ∈ ps
    · simp [h]
    · by_cases hp : i = p
      · subst hp; simp [h]
      · simp [h, hp, List.getElem_set_ne (Ne.symm hp)]

/-- Every LED written: all at the one level. -/
theorem leds_all (l : Level) (ps : List Nat) (v : List Level) (h : ps.Perm (List.range v.length)) :
    ps.foldl (fun v i => v.set i l) v = List.replicate v.length l := by
  apply List.ext_getElem?
  intro i
  by_cases hi : i < v.length
  · rw [leds_after l ps v i hi, if_pos (h.mem_iff.mpr (List.mem_range.mpr hi))]
    simp [hi]
  · rw [List.getElem?_eq_none (by rw [leds_length]; omega), List.getElem?_eq_none (by simp; omega)]

/-- What an action of the host leaves of the serial handle and the latch. -/
def SerialEffect (act : HostAct) (s : State) (evs : List Event) (ser : Option Handle) (fatal : Option FatalCode)
    (hs : HostState) : Prop :=
  (act ≠ .serOpen ∧ fatal = s.fatal ∧ (ser = s.ser ∨ ser = none)) ∨
  (act = .serOpen ∧
    ((∃ v : Nat, ser = some (serialHandle s.cfg v) ∧ fatal = s.fatal) ∨
      (ser = s.ser ∧ fatal = some .serial ∧ hs = .stopped ∧
        evs = [.serOpen none, .diag .serialInitError, .fatal s.cfg.lit.exitSerial, .exit s.cfg.lit.exitSerial])))

/-- Everything an action of the host can do: events that are no frame, its own fields, the serial handle, a command
handed over, answers consumed; the parameters, the display registers, the chip-select, the sequencer, the sensor
session and the wires stay as they are. -/
theorem hostAct_effect (act : HostAct) (s : State) :
    ∃ evs ser fatal hs hpos hostT hostH buzzer leds cmd env,
      hostAct act s = { s with
        tr := s.tr ++ evs, ser := ser, fatal := fatal, hs := hs, hpos := hpos, hostT := hostT, hostH := hostH,
        buzzer := buzzer, leds := leds, cmd := cmd, env := env } ∧
      WellFramed evs ∧ (∀ x, replay x evs = x) ∧ leds.length = s.leds.length ∧
      SerialEffect act s evs ser fatal hs := by
  cases act with
  | pinSetup =>
    refine ⟨_, _, _, _, _, _, _, _, _, _, _, pinSetup_eq s, ?_, fun x => ?_, rfl, .inl ⟨by simp, rfl, .inl rfl⟩⟩
    · induction s.cfg.pinCalls with
      | nil => rfl
      | cons p ps ih => exact ih
    · induction s.cfg.pinCalls with
      | nil => rfl
      | cons p ps ih => exact ih
  | buzz =>
    exact ⟨[.pinWrite s.cfg.buzzPin .high, .wait s.cfg.lit.tBuzz, .pinWrite s.cfg.buzzPin .low], s.ser, s.fatal, s.hs, s.hpos,
      s.hostT, s.hostH, .low, s.leds, s.cmd, s.env,
      by simp [hostAct, buzz, writeBuzzer, State.emit, State.pause], rfl, fun _ => rfl, rfl,
      .inl ⟨by simp, rfl, .inl rfl⟩⟩
  | serOpen =>
    have hv : s.nextSerial = none ∨ ∃ v : Nat, s.nextSerial = some (serialHandle s.cfg v) := by
      unfold State.nextSerial
      split
      · rename_i h _ _; cases h <;> simp
      · cases Config.freeSerial s.cfg.serChannel s.cfg.serClockHz s.cfg.serMode s.env.drawn <;> simp
    rcases hv with hv | ⟨v, hv⟩
    · exact ⟨[.serOpen none, .diag .serialInitError, .fatal s.cfg.lit.exitSerial, .exit s.cfg.lit.exitSerial], s.ser, some .serial, .stopped, s.hpos,
        s.hostT, s.hostH, s.buzzer, s.leds, s.cmd, s.dropSerial.env,
        by simp [hostAct, serOpen, hv, State.emit, State.dropSerial], rfl, fun _ => rfl, rfl,
        .inr ⟨rfl, .inr ⟨rfl, rfl, rfl, rfl⟩⟩⟩
    · exact ⟨[.serOpen (some (serialHandle s.cfg v))], some (serialHandle s.cfg v), s.fatal, s.hs, s.hpos, s.hostT, s.hostH,
        s.buzzer, s.leds, s.cmd, s.dropSerial.env, by simp [hostAct, serOpen, hv, State.emit, State.dropSerial], rfl,
        fun _ => rfl, rfl, .inr ⟨rfl, .inl ⟨v, rfl, rfl⟩⟩⟩
  | call i =>
    exact ⟨[], s.ser, s.fatal, s.hs, s.hpos, s.hostT, s.hostH, s.buzzer, s.leds, s.cmd ++ encode s.cfg i, s.env,
      by simp [hostAct, handOver], rfl, fun _ => rfl, rfl, .inl ⟨by simp, rfl, .inl rfl⟩⟩
  | keep k =>
    cases k <;>
      exact ⟨[], s.ser, s.fatal, s.hs, s.hpos, _, _, s.buzzer, s.leds, s.cmd, s.env,
        by simp only [hostAct, keepReading, List.append_nil]; rfl, rfl, fun _ => rfl, rfl,
        .inl ⟨by simp, rfl, .inl rfl⟩⟩
  | display =>
    obtain ⟨cmd, env, h⟩ : ∃ cmd env, display s = { s with hostT := none, hostH := none, cmd := cmd, env := env } := by
      unfold display
      split <;> exact ⟨_, _, rfl⟩
    exact ⟨[], s.ser, s.fatal, s.hs, s.hpos, none, none, s.buzzer, s.leds, cmd, env,
      by simp only [hostAct, h, List.append_nil], rfl, fun _ => rfl, rfl, .inl ⟨by simp, rfl, .inl rfl⟩⟩
  | ledReady =>
    refine ⟨_, _, _, _, _, _, _, _, _, _, _, ledReady_eq s, ?_, fun x => ?_, leds_length _ _ _, .inl ⟨by simp, rfl, .inl rfl⟩⟩
    · induction s.cfg.ledOrder with
      | nil => rfl
      | cons p ps ih => exact ih
    · induction s.cfg.ledOrder with
      | nil => rfl
      | cons p ps ih => exact ih
  | sleep =>
    exact ⟨[.wait s.cfg.lit.tRefresh], s.ser, s.fatal, s.hs, s.hpos, s.hostT, s.hostH, s.buzzer, s.leds, s.cmd, s.env,
      by simp [hostAct, hostSleep, State.emit, State.pause], rfl, fun _ => rfl, rfl,
      .inl ⟨by simp, rfl, .inl rfl⟩⟩
  | keyCheck =>
    simp only [hostAct, keyCheck]
    split_ifs <;> simp only [enterHost, readKey, State.emit, State.dropLevel, State.pause, List.append_assoc] <;>
      refine ⟨_, s.ser, s.fatal, _, _, s.hostT, s.hostH, s.buzzer, s.leds, s.cmd, _, rfl, rfl, fun _ => rfl, rfl,
        .inl ⟨by simp, rfl, .inl rfl⟩⟩
  | serClose =>
    exact ⟨[.serClose, .release], none, s.fatal, s.hs, s.hpos, s.hostT, s.hostH, s.buzzer, s.leds, s.cmd, s.env,
      by simp [hostAct, serClose, State.emit], rfl, fun _ => rfl, rfl, .inl ⟨by simp, rfl, .inr rfl⟩⟩
  | enter h =>
    exact ⟨[], s.ser, s.fatal, h, 0, s.hostT, s.hostH, s.buzzer, s.leds, s.cmd, s.env,
      by simp [hostAct, enterHost], rfl, fun _ => rfl, rfl, .inl ⟨by simp, rfl, .inl rfl⟩⟩
  | exit =>
    exact ⟨[.exit s.cfg.lit.exitOk], s.ser, s.fatal, .stopped, 0, s.hostT, s.hostH, s.buzzer, s.leds, s.cmd, s.env,
      by simp [hostAct, enterHost, State.emit], rfl, fun _ => rfl, rfl, .inl ⟨by simp, rfl, .inl rfl⟩⟩

/-- The fetch takes bytes from a port and changes nothing else. -/
theorem fetch_frame {s s' : State} {i : Instr} (h : fetch s = .run i s') :
    ∃ cmd wire, s' = { s with cmd := cmd, wire := wire } := by
  rcases fetch_run h with ⟨_, _, _, _, _, rfl⟩ | ⟨_, _, _, rfl⟩ <;> exact ⟨_, _, rfl⟩

end Sys2Proof.Machine
end

