-- ==== Sys2Proof/Laws/Float.lean ====
section
/-! SUPPORT. What the binary64 operations do: each gives its exact result rounded once to the nearest number
(41_sensor_engine.md R157), off by at most one part in 2^53, and exact when 53 bits hold it. -/

namespace Sys2Proof.Machine

/-- The nearest number differs from the quotient by at most a half. -/
theorem roundNearest_near (n d : Nat) (hd : 0 < d) : |(roundNearest n d : ℚ) - n / d| ≤ 1 / 2 := by
  have hdq : (0 : ℚ) < d := by exact_mod_cast hd
  have hlt := Nat.mod_lt n hd
  have key : 2 * (roundNearest n d * d : Int) ≤ 2 * n + d ∧ 2 * (n : Int) - d ≤ 2 * (roundNearest n d * d : Int) := by
    have := Nat.div_add_mod n d
    unfold roundNearest
    dsimp only
    generalize n / d = Q at *
    generalize n % d = R at *
    have e : (Q : Int) * d + R = n := by rw [mul_comm]; exact_mod_cast this
    split_ifs <;> push_cast <;> constructor <;> nlinarith
  obtain ⟨h1, h2⟩ := key
  have h1' : 2 * ((roundNearest n d : ℚ) * d) ≤ 2 * n + d := by exact_mod_cast h1
  have h2' : 2 * (n : ℚ) - d ≤ 2 * (roundNearest n d * d) := by exact_mod_cast h2
  rw [abs_le]
  constructor
  · rw [neg_le_sub_iff_le_add, div_le_iff₀ hdq]; linarith
  · rw [sub_le_iff_le_add', ← sub_le_iff_le_add, le_div_iff₀ hdq]; linarith

theorem roundNearest_floor (n d : Nat) : n / d ≤ roundNearest n d ∧ roundNearest n d ≤ n / d + 1 := by
  unfold roundNearest; dsimp only; split_ifs <;> omega

theorem roundNearest_dvd (n d m : Nat) (hd : 0 < d) (h : n = m * d) : roundNearest n d = m := by
  have h1 : n / d = m := by rw [h, Nat.mul_div_cancel _ hd]
  have h2 : n % d = 0 := by rw [h, Nat.mul_mod_left]
  unfold roundNearest; dsimp only; rw [h1, h2]; simp [hd]

theorem two_zpow_split (k : ℤ) : (2 : ℚ) ^ k = 2 ^ k.toNat / 2 ^ (-k).toNat := by
  rcases le_total 0 k with h | h
  · obtain ⟨m, rfl⟩ := Int.eq_ofNat_of_zero_le h
    simp
  · obtain ⟨m, hm⟩ := Int.eq_ofNat_of_zero_le (Int.neg_nonneg_of_nonpos h)
    obtain rfl : k = -(m : ℤ) := by omega
    simp

/-- A comparison of scaled natural numbers is one of the fraction with a power of two. -/
theorem scale_lt (n d : Nat) (hd : 0 < d) (k : ℤ) (c : Nat) :
    n * 2 ^ (-k).toNat < c * (d * 2 ^ k.toNat) ↔ (n : ℚ) / d < c * 2 ^ k := by
  have hdq : (0 : ℚ) < d := by exact_mod_cast hd
  rw [two_zpow_split, div_lt_iff₀ hdq, mul_div_assoc', div_mul_eq_mul_div, lt_div_iff₀ (by positivity)]
  constructor
  · intro h
    have : ((n * 2 ^ (-k).toNat : ℕ) : ℚ) < ((c * (d * 2 ^ k.toNat) : ℕ) : ℚ) := by exact_mod_cast h
    push_cast at this; linarith
  · intro h
    have : ((n * 2 ^ (-k).toNat : ℕ) : ℚ) < ((c * (d * 2 ^ k.toNat) : ℕ) : ℚ) := by push_cast; linarith
    exact_mod_cast this

theorem log2_bounds (n : Nat) (hn : 0 < n) : (2 : ℚ) ^ (Nat.log2 n : ℤ) ≤ n ∧ (n : ℚ) < 2 ^ ((Nat.log2 n : ℤ) + 1) := by
  have h1 : 2 ^ Nat.log2 n ≤ n := Nat.log2_self_le (by omega)
  have h2 : n < 2 ^ (Nat.log2 n + 1) := Nat.lt_log2_self
  constructor
  · rw [zpow_natCast]; exact_mod_cast h1
  · have : ((Nat.log2 n : ℤ) + 1) = ((Nat.log2 n + 1 : ℕ) : ℤ) := by push_cast; rfl
    rw [this, zpow_natCast]; exact_mod_cast h2

/-- The exponent of the last place puts the fraction between 2^52 and 2^53 units. -/
theorem ulpExponent_spec (n d : Nat) (hn : 0 < n) (hd : 0 < d) (hlow : (2 : ℚ) ^ (-1000 : ℤ) ≤ (n : ℚ) / d) :
    -1074 < ulpExponent n d ∧ 2 ^ 52 * (2 : ℚ) ^ ulpExponent n d ≤ (n : ℚ) / d ∧ (n : ℚ) / d < 2 ^ 53 * 2 ^ ulpExponent n d := by
  obtain ⟨n1, n2⟩ := log2_bounds n hn
  obtain ⟨d1, d2⟩ := log2_bounds d hd
  have hdq : (0 : ℚ) < d := by exact_mod_cast hd
  have hnq : (0 : ℚ) < n := by exact_mod_cast hn
  set a : ℤ := (Nat.log2 n : ℤ) with ha
  set b : ℤ := (Nat.log2 d : ℤ) with hb
  have hr2 : (n : ℚ) / d < 2 ^ (a - b + 1) := by
    rw [div_lt_iff₀ hdq]
    calc (n : ℚ) < 2 ^ (a + 1) := n2
      _ = 2 ^ (a - b + 1) * 2 ^ b := by rw [← zpow_add₀ (by norm_num)]; ring_nf
      _ ≤ _ := by gcongr
  have hr1 : (2 : ℚ) ^ (a - b - 1) < (n : ℚ) / d := by
    rw [lt_div_iff₀ hdq]
    calc (2 : ℚ) ^ (a - b - 1) * d < 2 ^ (a - b - 1) * 2 ^ (b + 1) := by gcongr
      _ = 2 ^ a := by rw [← zpow_add₀ (by norm_num)]; ring_nf
      _ ≤ _ := n1
  have pw : ∀ (m : ℕ) (k : ℤ), (2 : ℚ) ^ m * 2 ^ k = 2 ^ ((m : ℤ) + k) := by
    intro m k; rw [zpow_add₀ (by norm_num), zpow_natCast]
  have key : ∀ k : ℤ, (2 : ℚ) ^ 52 * 2 ^ k ≤ (n : ℚ) / d → (n : ℚ) / d < 2 ^ 53 * 2 ^ k → -1074 < k := by
    intro k _ h
    by_contra hk
    have : (2 : ℚ) ^ 53 * 2 ^ k ≤ 2 ^ (-1000 : ℤ) := by
      rw [pw]; apply zpow_le_zpow_right₀ (by norm_num); push_cast; omega
    linarith
  have main : ∀ k : ℤ, k = (if n * 2 ^ (-(a - b - 52)).toNat < 2 ^ 52 * (d * 2 ^ (a - b - 52).toNat) then a - b - 52 - 1 else a - b - 52) →
      (2 : ℚ) ^ 52 * 2 ^ k ≤ (n : ℚ) / d ∧ (n : ℚ) / d < 2 ^ 53 * 2 ^ k := by
    intro k hk
    split_ifs at hk with hlt
    · rw [scale_lt n d hd] at hlt
      subst hk
      simp only [Nat.cast_pow, Nat.cast_ofNat] at hlt
      rw [pw] at hlt ⊢
      rw [pw]
      push_cast at hlt ⊢
      rw [show (52 : ℤ) + (a - b - 52 - 1) = a - b - 1 by ring, show (53 : ℤ) + (a - b - 52 - 1) = 52 + (a - b - 52) by ring]
      exact ⟨hr1.le, hlt⟩
    · rw [scale_lt n d hd, not_lt] at hlt
      subst hk
      simp only [Nat.cast_pow, Nat.cast_ofNat] at hlt
      refine ⟨hlt, ?_⟩
      rw [pw, show (53 : ℕ) + (a - b - 52) = a - b + 1 by push_cast; ring]
      exact hr2
  obtain ⟨m1, m2⟩ := main _ rfl
  have mk := key _ m1 m2
  have e : ulpExponent n d = (if n * 2 ^ (-(a - b - 52)).toNat < 2 ^ 52 * (d * 2 ^ (a - b - 52).toNat) then a - b - 52 - 1 else a - b - 52) := by
    unfold ulpExponent; dsimp only
    exact max_eq_left (le_of_lt mk)
  rw [e]
  exact ⟨mk, m1, m2⟩

/-- The value of a normal pattern from its fields. -/
theorem value64_normal (v : Binary64) (h : expField v ≠ 0) :
    value64 v = (if v.msb then -1 else 1) * ((2 ^ 52 + fracField v : ℕ) * 2 ^ ((expField v : ℤ) - 1075)) := by
  have hr : ratioOf v = ⟨v.msb, (2 ^ 52 + fracField v) * 2 ^ (expField v - 1075), 2 ^ (1075 - expField v)⟩ := by
    unfold ratioOf; dsimp only; rw [if_neg h]
  rw [value64, hr, two_zpow_split, show ((expField v : ℤ) - 1075).toNat = expField v - 1075 by omega,
    show (-((expField v : ℤ) - 1075)).toNat = 1075 - expField v by omega]
  generalize 2 ^ 52 + fracField v = m
  generalize expField v - 1075 = a
  generalize 1075 - expField v = b
  cases v.msb <;> simp [Ratio.signed] <;> ring

/-- The value of a pattern made of sign, exponent and fraction. -/
theorem value64_fields (neg : Bool) (K q : Nat) (hK : K < 2000) (h1 : 2 ^ 52 ≤ q) (h2 : q ≤ 2 ^ 53)
    (v : Binary64) (hv : v.toNat = (if neg then 2 ^ 63 else 0) + (K * 2 ^ 52 + q)) :
    isFinite64 v = true ∧ value64 v = (if neg then -1 else 1) * ((q : ℚ) * 2 ^ ((K : ℤ) - 1074)) := by
  have hexp : expField v = (v.toNat / 2 ^ 52) % 2 ^ 11 := by
    simp [expField, BitVec.extractLsb'_toNat, Nat.shiftRight_eq_div_pow]
  have hfrac : fracField v = v.toNat % 2 ^ 52 := by
    simp [fracField]
  have hmsb : v.msb = neg := by
    rw [BitVec.msb_eq_decide, hv]
    cases neg <;> simp <;> omega
  rcases Nat.lt_or_ge q (2 ^ 53) with hq | hq
  · have he : expField v = K + 1 := by
      rw [hexp, hv]; cases neg <;> simp <;> omega
    have hf : fracField v = q - 2 ^ 52 := by
      rw [hfrac, hv]; cases neg <;> simp <;> omega
    refine ⟨by simp [isFinite64, he]; omega, ?_⟩
    rw [value64_normal v (by omega), he, hf, hmsb, show 2 ^ 52 + (q - 2 ^ 52) = q by omega,
      show ((K + 1 : ℕ) : ℤ) - 1075 = (K : ℤ) - 1074 by push_cast; ring]
  · obtain rfl : q = 2 ^ 53 := by omega
    have he : expField v = K + 2 := by
      rw [hexp, hv]; cases neg <;> simp <;> omega
    have hf : fracField v = 0 := by
      rw [hfrac, hv]; cases neg <;> simp <;> omega
    refine ⟨by simp [isFinite64, he]; omega, ?_⟩
    rw [value64_normal v (by omega), he, hf, hmsb,
      show ((K + 2 : ℕ) : ℤ) - 1075 = 1 + ((K : ℤ) - 1074) by push_cast; ring, zpow_add₀ (by norm_num)]
    push_cast
    ring

/-- Everything rounding does, for a quotient in range: a finite pattern with the sign asked for. -/
theorem round64_spec (neg : Bool) (n d : Nat) (hn : 0 < n) (hd : 0 < d) (hlow : (2 : ℚ) ^ (-1000 : ℤ) ≤ (n : ℚ) / d)
    (hhigh : (n : ℚ) / d ≤ 2 ^ (800 : ℤ)) :
    ∃ (k : ℤ) (q : ℕ), isFinite64 (round64 neg n d) = true ∧
      value64 (round64 neg n d) = (if neg then -1 else 1) * ((q : ℚ) * 2 ^ k) ∧
      2 ^ 52 * (2 : ℚ) ^ k ≤ (n : ℚ) / d ∧ (n : ℚ) / d < 2 ^ 53 * 2 ^ k ∧
      |(q : ℚ) * 2 ^ k - n / d| ≤ 2 ^ k / 2 ∧ (∀ m : ℕ, (n : ℚ) / d = m * 2 ^ k → q = m) := by
  obtain ⟨hk, h1, h2⟩ := ulpExponent_spec n d hn hd hlow
  set k := ulpExponent n d with hkdef
  have hpos : (0 : ℚ) < 2 ^ k := by positivity
  have hku : k < 800 := by
    by_contra hc
    have : (2 : ℚ) ^ (800 : ℤ) ≤ 2 ^ k := zpow_le_zpow_right₀ (by norm_num) (by omega)
    have h3 : (2 : ℚ) ^ k < 2 ^ 52 * 2 ^ k := lt_mul_of_one_lt_left hpos (by norm_num)
    exact absurd (h1.trans hhigh) (not_le.mpr (lt_of_le_of_lt this h3))
  set N := n * 2 ^ (-k).toNat with hN
  set D := d * 2 ^ k.toNat with hD
  have hDpos : 0 < D := by positivity
  have hdq : (0 : ℚ) < d := by exact_mod_cast hd
  have hND : (N : ℚ) / D = (n : ℚ) / d / 2 ^ k := by
    rw [two_zpow_split, hN, hD]; push_cast; field_simp
  set q := roundNearest N D with hq
  have hq1 : 2 ^ 52 ≤ q := by
    have : 2 ^ 52 ≤ N / D := by
      rw [Nat.le_div_iff_mul_le hDpos]
      exact not_lt.mp ((scale_lt n d hd k (2 ^ 52)).not.mpr (by push_cast; exact not_lt.mpr h1))
    exact this.trans (roundNearest_floor N D).1
  have hq2 : q ≤ 2 ^ 53 := by
    have : N / D < 2 ^ 53 := by
      rw [Nat.div_lt_iff_lt_mul hDpos]
      exact (scale_lt n d hd k (2 ^ 53)).mpr (by push_cast; exact h2)
    have := (roundNearest_floor N D).2
    omega
  obtain ⟨K, hK⟩ : ∃ K : ℕ, (K : ℤ) = k + 1074 := ⟨(k + 1074).toNat, by omega⟩
  have hround : round64 neg n d = BitVec.ofNat 64 ((if neg then 2 ^ 63 else 0) + (K * 2 ^ 52 + q)) := by
    unfold round64
    simp only [← hkdef, ← hN, ← hD, ← hq]
    rw [if_neg hn.ne', show (k + 1074).toNat = K by omega, min_eq_left]
    have : K < 2000 := by omega
    omega
  have hv : (round64 neg n d).toNat = (if neg then 2 ^ 63 else 0) + (K * 2 ^ 52 + q) := by
    rw [hround, BitVec.toNat_ofNat]
    apply Nat.mod_eq_of_lt
    have : K < 2000 := by omega
    split_ifs <;> omega
  obtain ⟨f1, f2⟩ := value64_fields neg K q (by omega) hq1 hq2 _ hv
  refine ⟨k, q, f1, ?_, h1, h2, ?_, ?_⟩
  · refine f2.trans ?_; rw [show (K : ℤ) - 1074 = k by omega]
  · have := roundNearest_near N D hDpos
    rw [hND] at this
    have e : (q : ℚ) * 2 ^ k - n / d = (q - n / d / 2 ^ k) * 2 ^ k := by field_simp
    rw [e, abs_mul, abs_of_pos hpos]
    nlinarith
  · intro m hm
    apply roundNearest_dvd N D m hDpos
    have : (N : ℚ) = m * D := by
      have hDq : (D : ℚ) ≠ 0 := by exact_mod_cast hDpos.ne'
      have : (N : ℚ) / D = m := by rw [hND, hm]; field_simp
      rwa [div_eq_iff hDq] at this
    exact_mod_cast this

/-- A number of at most 53 bits at any power of two in range is rounded to itself. -/
theorem round64_exact (neg : Bool) (n d m : Nat) (j : ℤ) (hm : 0 < m) (hm' : m < 2 ^ 53) (hd : 0 < d)
    (h : (n : ℚ) / d = m * 2 ^ j) (hlow : (2 : ℚ) ^ (-1000 : ℤ) ≤ (n : ℚ) / d) (hhigh : (n : ℚ) / d ≤ 2 ^ (800 : ℤ)) :
    isFinite64 (round64 neg n d) = true ∧ value64 (round64 neg n d) = (if neg then -1 else 1) * ((n : ℚ) / d) := by
  have hdq : (0 : ℚ) < d := by exact_mod_cast hd
  have hn : 0 < n := by
    by_contra h0
    obtain rfl : n = 0 := by omega
    have : (0 : ℚ) < m * 2 ^ j := by positivity
    rw [← h] at this
    simp at this
  obtain ⟨k, q, hf, hv, h1, h2, -, hq⟩ := round64_spec neg n d hn hd hlow hhigh
  have hkj : k ≤ j := by
    by_contra hc
    have hmq : (m : ℚ) < 2 ^ 53 := by exact_mod_cast hm'
    have h3 : (2 : ℚ) ^ (j + 1) ≤ 2 ^ k := zpow_le_zpow_right₀ (by norm_num) (by omega)
    rw [zpow_add₀ (by norm_num), zpow_one] at h3
    have hj : (0 : ℚ) < 2 ^ j := by positivity
    rw [h] at h1
    have h4 : (m : ℚ) * 2 ^ j < 2 ^ 53 * 2 ^ j := by gcongr
    have h5 : (2 : ℚ) ^ 52 * (2 ^ j * 2) ≤ 2 ^ 52 * 2 ^ k := by gcongr
    have h6 : (2 : ℚ) ^ 53 * 2 ^ j = 2 ^ 52 * (2 ^ j * 2) := by ring
    exact absurd (h5.trans h1) (not_le.mpr (h6 ▸ h4))
  obtain ⟨e, he⟩ := Int.eq_ofNat_of_zero_le (sub_nonneg.mpr hkj)
  have hj : (2 : ℚ) ^ j = 2 ^ e * 2 ^ k := by
    rw [show j = (e : ℤ) + k by omega, zpow_add₀ (by norm_num), zpow_natCast]
  have hqe : q = m * 2 ^ e := hq (m * 2 ^ e) (by rw [h, hj]; push_cast; ring)
  refine ⟨hf, ?_⟩
  rw [hv, h, hqe, hj]; push_cast; ring

/-- Rounding moves a number by at most one part in 2^53. -/
theorem round64_near (neg : Bool) (n d : Nat) (hn : 0 < n) (hd : 0 < d) (hlow : (2 : ℚ) ^ (-1000 : ℤ) ≤ (n : ℚ) / d)
    (hhigh : (n : ℚ) / d ≤ 2 ^ (800 : ℤ)) :
    isFinite64 (round64 neg n d) = true ∧
      |value64 (round64 neg n d) - (if neg then -1 else 1) * ((n : ℚ) / d)| ≤ (n : ℚ) / d / 2 ^ 53 := by
  obtain ⟨k, q, hf, hv, h1, -, h3, -⟩ := round64_spec neg n d hn hd hlow hhigh
  refine ⟨hf, ?_⟩
  rw [hv, ← mul_sub, abs_mul]
  have h0 : |(if neg then -1 else 1 : ℚ)| = 1 := by cases neg <;> simp
  rw [h0, one_mul]
  refine h3.trans ?_
  rw [div_le_div_iff₀ (by norm_num) (by norm_num)]
  have : (2 : ℚ) ^ 53 = 2 ^ 52 * 2 := by norm_num
  rw [this]
  generalize (2 : ℚ) ^ k = p at *
  generalize (n : ℚ) / d = r at *
  linarith

theorem round64_zero (neg : Bool) (d : Nat) :
    isFinite64 (round64 neg 0 d) = true ∧ value64 (round64 neg 0 d) = 0 := by
  have h : round64 neg 0 d = if neg then 0x8000000000000000#64 else 0#64 := by
    unfold round64; cases neg <;> simp
  have hp : ratioOf 0#64 = ⟨false, 0, 1⟩ := by decide
  have hm : ratioOf 0x8000000000000000#64 = ⟨true, 0, 1⟩ := by decide
  rw [h]
  cases neg
  · exact ⟨by decide, by simp [value64, hp, Ratio.signed]⟩
  · exact ⟨by decide, by simp [value64, hm, Ratio.signed]⟩

/-! ### The operations -/

/-- A pattern is a rational number rounded once. -/
def RoundsTo (v : Binary64) (x : ℚ) : Prop :=
  ∃ neg n d, 0 < d ∧ v = round64 neg n d ∧ (if neg then -1 else 1) * ((n : ℚ) / d) = x

theorem abs_of_sign (neg : Bool) (n d : Nat) : |(if neg then -1 else 1) * ((n : ℚ) / d)| = (n : ℚ) / d := by
  rw [abs_mul]
  have h : |((n : ℚ) / d)| = (n : ℚ) / d := abs_of_nonneg (by positivity)
  cases neg <;> simp [h]

/-- A rounded number in range, or zero, is finite and off by at most one part in 2^53. -/
theorem RoundsTo.near {v : Binary64} {x : ℚ} (h : RoundsTo v x)
    (hx : x = 0 ∨ (2 : ℚ) ^ (-1000 : ℤ) ≤ |x| ∧ |x| ≤ 2 ^ (800 : ℤ)) :
    isFinite64 v = true ∧ |value64 v - x| ≤ |x| / 2 ^ 53 := by
  obtain ⟨neg, n, d, hd, rfl, rfl⟩ := h
  rcases Nat.eq_zero_or_pos n with rfl | hn
  · obtain ⟨h1, h2⟩ := round64_zero neg d
    exact ⟨h1, by simp [h2]⟩
  · rw [abs_of_sign] at hx ⊢
    rcases hx with hx | ⟨h1, h2⟩
    · have hdq : (0 : ℚ) < d := by exact_mod_cast hd
      have hnq : (0 : ℚ) < n := by exact_mod_cast hn
      exact absurd (abs_of_sign neg n d) (by rw [hx]; simp; positivity)
    · exact round64_near neg n d hn hd h1 h2

/-- A number of at most 53 bits at any power of two in range, rounded, is itself. -/
theorem RoundsTo.exact {v : Binary64} {x : ℚ} (h : RoundsTo v x) {m : Nat} {j : ℤ} (hm : m < 2 ^ 53)
    (hx : |x| = m * 2 ^ j) (hlow : -1000 ≤ j) (hhigh : j ≤ 700) : isFinite64 v = true ∧ value64 v = x := by
  obtain ⟨neg, n, d, hd, rfl, rfl⟩ := h
  rw [abs_of_sign] at hx
  have hdq : (0 : ℚ) < d := by exact_mod_cast hd
  rcases Nat.eq_zero_or_pos m with rfl | hmp
  · obtain rfl : n = 0 := by
      have : (n : ℚ) / d = 0 := by simpa using hx
      rcases div_eq_zero_iff.mp this with h | h
      · exact_mod_cast h
      · exact absurd h hdq.ne'
    obtain ⟨h1, h2⟩ := round64_zero neg d
    exact ⟨h1, by simp [h2]⟩
  · have hj : (0 : ℚ) < 2 ^ j := by positivity
    refine round64_exact neg n d m j hmp hm hd hx ?_ ?_
    · rw [hx]
      have h1 : (2 : ℚ) ^ (-1000 : ℤ) ≤ 2 ^ j := zpow_le_zpow_right₀ (by norm_num) hlow
      have h2 : (1 : ℚ) ≤ m := by exact_mod_cast hmp
      exact h1.trans (le_mul_of_one_le_left hj.le h2)
    · rw [hx]
      have h1 : (2 : ℚ) ^ j ≤ 2 ^ (700 : ℤ) := zpow_le_zpow_right₀ (by norm_num) hhigh
      have h2 : (m : ℚ) ≤ 2 ^ (53 : ℤ) := by
        have : (m : ℚ) < 2 ^ 53 := by exact_mod_cast hm
        exact this.le
      calc (m : ℚ) * 2 ^ j ≤ 2 ^ (53 : ℤ) * 2 ^ (700 : ℤ) := mul_le_mul h2 h1 hj.le (by positivity)
        _ = 2 ^ (753 : ℤ) := by rw [← zpow_add₀ (by norm_num)]; rfl
        _ ≤ 2 ^ (800 : ℤ) := zpow_le_zpow_right₀ (by norm_num) (by norm_num)

theorem ratioOf_den_pos (v : Binary64) : 0 < (ratioOf v).den := by
  unfold ratioOf
  dsimp only
  split_ifs
  · exact Nat.one_pos
  · exact Nat.two_pow_pos 1074
  · exact Nat.two_pow_pos _

/-- The value of a pattern is its sign times its magnitude. -/
theorem value64_eq (v : Binary64) :
    value64 v = (if (ratioOf v).neg then -1 else 1) * ((ratioOf v).num / (ratioOf v).den : ℚ) := by
  unfold value64 Ratio.signed
  split_ifs <;> push_cast <;> ring

/-- The product is the exact product rounded once. -/
theorem mul64_rounds (a b : Binary64) : RoundsTo (mul64 a b) (value64 a * value64 b) := by
  refine ⟨_, _, _, Nat.mul_pos (ratioOf_den_pos a) (ratioOf_den_pos b), rfl, ?_⟩
  have hx : ((ratioOf a).den : ℚ) ≠ 0 := by exact_mod_cast (ratioOf_den_pos a).ne'
  have hy : ((ratioOf b).den : ℚ) ≠ 0 := by exact_mod_cast (ratioOf_den_pos b).ne'
  rw [value64_eq a, value64_eq b]
  cases (ratioOf a).neg <;> cases (ratioOf b).neg <;> push_cast <;> simp <;> field_simp

/-- The quotient by a number that is not zero is the exact quotient rounded once. -/
theorem div64_rounds (a b : Binary64) (hb : value64 b ≠ 0) : RoundsTo (div64 a b) (value64 a / value64 b) := by
  have hx : ((ratioOf a).den : ℚ) ≠ 0 := by exact_mod_cast (ratioOf_den_pos a).ne'
  have hy : ((ratioOf b).den : ℚ) ≠ 0 := by exact_mod_cast (ratioOf_den_pos b).ne'
  have hn : (ratioOf b).num ≠ 0 := by
    intro h; apply hb; rw [value64_eq, h]; simp
  have hnq : ((ratioOf b).num : ℚ) ≠ 0 := by exact_mod_cast hn
  refine ⟨_, _, _, Nat.mul_pos (ratioOf_den_pos a) (Nat.pos_of_ne_zero hn), rfl, ?_⟩
  rw [value64_eq a, value64_eq b]
  cases (ratioOf a).neg <;> cases (ratioOf b).neg <;> push_cast <;> simp <;> field_simp

/-- The difference is the exact difference rounded once. -/
theorem sub64_rounds (a b : Binary64) : RoundsTo (sub64 a b) (value64 a - value64 b) := by
  have hx : ((ratioOf a).den : ℚ) ≠ 0 := by exact_mod_cast (ratioOf_den_pos a).ne'
  have hy : ((ratioOf b).den : ℚ) ≠ 0 := by exact_mod_cast (ratioOf_den_pos b).ne'
  refine ⟨_, _, _, Nat.mul_pos (ratioOf_den_pos a) (ratioOf_den_pos b), rfl, ?_⟩
  unfold value64
  generalize (ratioOf a).signed = p
  generalize (ratioOf b).signed = q
  have e : (p : ℚ) / (ratioOf a).den - q / (ratioOf b).den =
      ((p * (ratioOf b).den - q * (ratioOf a).den : ℤ) : ℚ) / ((ratioOf a).den * (ratioOf b).den : ℕ) := by
    push_cast; field_simp
  rw [e]
  generalize p * (ratioOf b).den - q * (ratioOf a).den = N
  rcases lt_or_ge N 0 with h | h
  · obtain ⟨k, hk⟩ := Int.eq_ofNat_of_zero_le (Int.neg_nonneg_of_nonpos h.le)
    obtain rfl : N = -(k : ℤ) := by omega
    simp only [h, decide_true, if_true]
    push_cast; simp; ring
  · obtain ⟨k, rfl⟩ := Int.eq_ofNat_of_zero_le h
    simp

/-- A raw value becomes the number it is. -/
theorem cvt64_value (raw : Raw) : isFinite64 (cvt64 raw) = true ∧ value64 (cvt64 raw) = raw.toNat := by
  refine RoundsTo.exact (m := raw.toNat) (j := 0) ⟨false, raw.toNat, 1, Nat.one_pos, rfl, by simp⟩ ?_ (by simp)
    (by norm_num) (by norm_num)
  have : raw.toNat < 65536 := raw.isLt
  omega

/-! ### The two conversions -/

/-- A list that agrees with a function gives that function's value, listed or not. -/
theorem lookup_getD_of_agrees {l : List (Raw × Binary64)} {f : Raw → Binary64} (h : ∀ e ∈ l, e.2 = f e.1) (raw : Raw) :
    (l.lookup raw).getD (f raw) = f raw := by
  rcases e : l.lookup raw with _ | v
  · rfl
  · obtain ⟨l₁, l₂, rfl, -⟩ := List.lookup_eq_some_iff.mp e
    exact h (raw, v) (by simp)

/-- Under the constraint of 00_scope.md R9 the temperature conversion is the evaluation of 41_sensor_engine.md R158. -/
theorem convT_eq {cfg : Config} (h : cfg.ConvWf) (raw : Raw) : convT cfg raw = evalT cfg.lit raw :=
  lookup_getD_of_agrees h.1 raw

/-- Under the constraint of 00_scope.md R9 the humidity conversion is the evaluation of 41_sensor_engine.md R159. -/
theorem convRh_eq {cfg : Config} (h : cfg.ConvWf) (raw : Raw) : convRh cfg raw = evalRh cfg.lit raw :=
  lookup_getD_of_agrees h.2 raw

end Sys2Proof.Machine
end

