-- ==== Sys2Proof/Laws/PerInstr.lean ====
section
/-! SUPPORT. Statements for all instructions, one lemma per constructor. -/

namespace Sys2Proof.Laws

/-! ### PacketLength: an encoding is as long as its format says (30_encoding.md R81, R83, R86, R87) -/

/-- The length in bytes of an instruction's format: `OP` 1, `AD` and `SC` 3, `TX` 2 + `len`, `BA` 2; a frame 2, a
bus command 1, a reading 2. -/
def PacketLength.formatLength : Instr → Nat
  | .init => 1
  | .wreg _ _ => 3
  | .rchar _ _ _ => 3
  | .rstr text => 2 + text.length
  | .clear => 1
  | .sopen _ => 2
  | .rdtemp => 1
  | .rdhum => 1
  | .dframe _ _ => 2
  | .scmdT => 1
  | .scmdRh => 1
  | .sdata _ => 2

/-- Under all parameters, the encoding of the instruction has the length of its format. -/
def PacketLength.Statement (i : Instr) : Prop :=
  ∀ cfg : Config, (encode cfg i).length = PacketLength.formatLength i

theorem PacketLength.init : PacketLength.Statement .init := fun _ => rfl
theorem PacketLength.wreg (a : RegAddr) (d : Data) : PacketLength.Statement (.wreg a d) := fun _ => rfl
theorem PacketLength.rchar (slot : Slot) (c : Code) (dp : Bool) : PacketLength.Statement (.rchar slot c dp) :=
  fun _ => rfl
theorem PacketLength.rstr (text : List Code) : PacketLength.Statement (.rstr text) := fun _ => by
  simp [encode, PacketLength.formatLength]; omega
theorem PacketLength.clear : PacketLength.Statement .clear := fun _ => rfl
theorem PacketLength.sopen (addr : Byte) : PacketLength.Statement (.sopen addr) := fun _ => rfl
theorem PacketLength.rdtemp : PacketLength.Statement .rdtemp := fun _ => rfl
theorem PacketLength.rdhum : PacketLength.Statement .rdhum := fun _ => rfl
theorem PacketLength.dframe (a : RegAddr) (d : Data) : PacketLength.Statement (.dframe a d) := fun _ => rfl
theorem PacketLength.scmdT : PacketLength.Statement .scmdT := fun _ => rfl
theorem PacketLength.scmdRh : PacketLength.Statement .scmdRh := fun _ => rfl
theorem PacketLength.sdata (raw : Raw) : PacketLength.Statement (.sdata raw) := fun _ => rfl

end Sys2Proof.Laws
end

