-- ==== Sys2Proof/Tests/Slice0.lean ====
section
/-! SUPPORT. The model's own tests. Expected results come from the spec: its encodings (30_encoding.md), its worked
vectors (95_test_vectors.md, ids D, K, O, S, H), or hand calculation from its rules, as each comment says. The last
part shows, for each obligation with hypotheses, a concrete state and operands that meet them. -/

namespace Sys2Proof.Tests

open Sys2Proof Sys2Proof.Machine

/-! ### Helpers -/

/-- What a function says of the next state, if there is one. -/
def nextWith {α : Type} (o : Host.Outcome State Fault Refusal) (f : State → α) : Option α :=
  match o with
  | .next t => some (f t)
  | .fault _ => none
  | .refused _ => none

/-- The reason of a refusal, if it is one. -/
def refusalOf (o : Host.Outcome State Fault Refusal) : Option Refusal :=
  match o with
  | .next _ => none
  | .fault _ => none
  | .refused r => some r

/-- The spec's `S0`: after reset, with the serial channel open (95_test_vectors.md), every register 0xA5. -/
def s0 : State := { State.resetWith Config.reference (Vector.replicate 16 0xA5#8) with ser := some 5 }

/-- `S0` with the sensor session open and bytes to be read. -/
def sensing (bytes : List Byte) : State :=
  { s0 with
    sh := some 3
    env := { Env.free with bytes := bytes } }

/-- After reset, with the handle the bus session is answered. -/
def opening (h : Int) : State := { State.reset with env := { Env.free with busHandles := [h] } }

/-- The host at a place of its sequence, with the levels the key shows and the serial channel's answers. -/
def hostAt (hs : HostState) (hpos : Nat) (levels : List Level) (serials : List (Option Nat)) : State :=
  { sensing [0x63#8, 0x38#8, 0x7C#8, 0x80#8] with
    hs := hs
    hpos := hpos
    env :=
      { bytes := [0x63#8, 0x38#8, 0x7C#8, 0x80#8]
        busHandles := []
        serials := serials
        levels := levels
        drawn := 0 } }

/-- The host before its display, with two readings. -/
def atDisplay (t h : Binary64) : State := { hostAt .running 4 [] [] with hostT := some t, hostH := some h }

/-! ### Well-formedness: one ill-formed term for each check -/

/-- A text of 256 characters has no packet (10_state.md R27). -/
theorem test_wf_refuses_long_text : (Instr.rstr (List.replicate 256 0x31)).wf Config.reference = false := by
  simp only [Instr.wf, Instr.fits, List.length_replicate]
  decide
theorem test_wf_accepts_longest_text : (Instr.rstr (List.replicate 255 0x31)).wf Config.reference = true := by
  simp only [Instr.wf, Instr.fits, List.length_replicate, List.all_replicate]
  decide
/-- A text longer than `MAXLEN` (10_state.md R27), and codes that are not of `CHARW` bits or not of one byte (00_scope.md
R9, 30_encoding.md R81). -/
theorem test_wf_refuses_parameters :
    (Instr.rstr (List.replicate 9 0x31)).wf { Config.reference with maxLen := 8 } = false ∧
    (Instr.rstr [0x80]).wf { Config.reference with charW := 7 } = false ∧
    (Instr.rchar 0#3 0x80 false).wf { Config.reference with charW := 7 } = false ∧
    (Instr.rchar 0#3 0x100 false).fits = false ∧ (Instr.rstr [0x100]).fits = false ∧
    (Instr.rstr [0x7F]).wf { Config.reference with charW := 7 } = true := by decide

/-- The default parameters meet every constraint. -/
theorem reference_wf : Config.reference.Wf :=
  { lit := rfl
    widths := by decide
    codes := by decide
    font := ⟨by decide, by decide, by decide, by decide, by decide, ⟨7, by decide⟩⟩
    regs := by decide
    commands := by decide
    conv := ⟨by simp [Config.reference], by simp [Config.reference]⟩
    format := ⟨.inr rfl, by simp [Config.reference]⟩
    host := by decide }

/-- A literal that is not the document's (00_scope.md R8). -/
theorem test_wf_refuses_literal :
    ¬ Config.LitWf { Config.reference with lit := { Literals.document with tRefresh := 500 } } := by decide
/-- Widths and a limit below the least the spec allows (00_scope.md R9). -/
theorem test_wf_refuses_widths :
    ¬ Config.WidthsWf { Config.reference with charW := 6 } ∧ ¬ Config.WidthsWf { Config.reference with handleW := 1 } ∧
    ¬ Config.WidthsWf { Config.reference with maxLen := 7 } := by decide
/-- A period or a space that is no code of `CHARW` bits, or that no packet carries (log entry 9), and one code for both. -/
theorem test_wf_refuses_codes :
    ¬ Config.CodesWf { Config.reference with charW := 7, period := 0x80 } ∧
    ¬ Config.CodesWf { Config.reference with charW := 7, space := 0x80 } ∧
    ¬ Config.CodesWf { Config.reference with charW := 16, period := 0x3002 } ∧
    ¬ Config.CodesWf { Config.reference with charW := 16, space := 0x3000 } ∧
    ¬ Config.CodesWf { Config.reference with period := 0x20 } := by decide
/-- A conversion that is not the one of 41_sensor_engine.md R158 or R159. -/
theorem test_wf_refuses_conversion :
    ¬ Config.ConvWf { Config.reference with convTAt := [(0x0000#16, 0#64)] } ∧
    ¬ Config.ConvWf { Config.reference with convRhAt := [(0x0000#16, 0#64)] } :=
  ⟨fun h => absurd (h.1 (0x0000#16, 0#64) (by simp)) (by decide),
    fun h => absurd (h.2 (0x0000#16, 0#64) (by simp)) (by decide)⟩
/-- A text that has not the layout of 42_host_sequence.md R186: an empty one. -/
theorem test_wf_refuses_format : ¬ Config.FormatWf { Config.reference with hostFmtAt := [((0#64, 0#64), [])] } :=
  fun h => by
    obtain ⟨rT, rH, e⟩ := h.2 ((0#64, 0#64), []) (by simp)
    simp [layout] at e
/-- A character of the font that is no code of `CHARW` bits (00_scope.md R9). -/
theorem test_wf_refuses_wide_character :
    ¬ Config.FontWf { Config.reference with charW := 7, font := [(0x20, 0x00#8), (0x80, 0x01#8)] } :=
  fun h => absurd (h.2.1 (0x80, 0x01#8) (by decide)) (by decide)
/-- A font with two patterns for one character (10_state.md R23). -/
theorem test_wf_refuses_two_patterns :
    ¬ Config.FontWf { Config.reference with font := [(0x20, 0x00#8), (0x31, 0x30#8), (0x31, 0x06#8)] } :=
  fun h => absurd h.1 (by decide)
/-- A font whose space is not blank (R23 (b)). -/
theorem test_wf_refuses_inked_space : ¬ Config.FontWf { Config.reference with font := [(0x20, 0x01#8)] } :=
  fun h => absurd h.2.2.1 (by decide)
/-- A font that holds the period (R23 (c)). -/
theorem test_wf_refuses_period :
    ¬ Config.FontWf { Config.reference with font := [(0x20, 0x00#8), (0x2E, 0x01#8)] } :=
  fun h => absurd h.2.2.2.1 (by decide)
/-- A pattern with the decimal-point bit set (R23 (a)). -/
theorem test_wf_refuses_pattern_with_point :
    ¬ Config.FontWf { Config.reference with font := [(0x20, 0x00#8), (0x31, 0xB0#8)] } :=
  fun h => absurd (h.2.2.2.2.1 (0x31, 0xB0#8) (by decide)) (by decide)
/-- A mask of two bits (R23). -/
theorem test_wf_refuses_wide_mask : ¬ Config.FontWf { Config.reference with dpBit := 0x81#8 } :=
  fun h => absurd h.2.2.2.2.2 (by decide)
/-- Two configuration registers at one address (00_scope.md R10). -/
theorem test_wf_refuses_shared_register : ¬ Config.RegsWf { Config.reference with regMode := 0x9#4 } := by decide
/-- A configuration register at a digit's address (R10). -/
theorem test_wf_refuses_digit_register : ¬ Config.RegsWf { Config.reference with regTest := 0x8#4 } := by decide
/-- A precision that is neither candidate (42_host_sequence.md R186). -/
theorem test_wf_refuses_precision : ¬ Config.FormatWf { Config.reference with pRh := 2 } :=
  fun h => absurd h.1 (by decide)
/-- A pin configured twice (R180). -/
theorem test_wf_refuses_pin_twice :
    ¬ Config.HostWf { Config.reference with pinCalls := .cs :: Config.reference.pinCalls } := by decide
/-- Too few pins configured (R180). -/
theorem test_wf_refuses_few_pins : ¬ Config.HostWf { Config.reference with pinCalls := [.cs, .buzz] } := by decide
/-- The chip-select not configured (70_reset_and_hazards.md R242), with the ten other pins. -/
theorem test_wf_refuses_no_chip_select :
    ¬ Config.HostWf { Config.reference with pinCalls := Config.reference.pinCalls.tail } := by decide
/-- A pin, an id or a termination key that does not exist (00_scope.md R7 `N_LED`, `N_KEY`). -/
theorem test_wf_refuses_absent_pins :
    ¬ Config.HostWf { Config.reference with pinCalls := .key 5 :: Config.reference.pinCalls } ∧
    ¬ Config.HostWf { Config.reference with pinCalls := .led 4 :: Config.reference.pinCalls } ∧
    ¬ Config.HostWf { Config.reference with ledPin := [2, 3, 4] } ∧
    ¬ Config.HostWf { Config.reference with keyPin := [6] } ∧ ¬ Config.HostWf { Config.reference with termKey := 5 } := by
  decide
/-- A LED left out (R184). -/
theorem test_wf_refuses_led_order : ¬ Config.HostWf { Config.reference with ledOrder := [0, 1, 2, 2] } := by decide
/-- One byte for both measurements (92_eei_decisions.md D17). -/
theorem test_wf_refuses_equal_commands : ¬ Config.Wf { Config.reference with cmdTrigRh := 0xF3#8 } :=
  fun h => absurd h.commands (by decide)

/-! ### Decoding: words written out from the spec's encodings, one for each constructor -/

/-- K1, K2 and D5 (30_encoding.md R81, R82): `01`; `02 0F 55`; `03 81 32`, `dp` in bit 7, `slot` in bits 2:0. -/
theorem test_decode_op_ad_sc :
    decodeCommand [0b00000001#8] = .ok (.init, []) ∧
    decodeCommand [0b00000010#8, 0b00001111#8, 0b01010101#8] = .ok (.wreg 0xF#4 0x55#8, []) ∧
    decodeCommand [0b00000011#8, 0b10000001#8, 0b00110010#8] = .ok (.rchar 1#3 0x32 true, []) ∧
    decodeCommand [0b00000011#8, 0b00000111#8, 0b00111000#8] = .ok (.rchar 7#3 0x38 false, []) := by decide
/-- D16 and K8: `04 04 31 32 2E 33`; `04 00`. -/
theorem test_decode_tx :
    decodeCommand [0x04#8, 0x04#8, 0x31#8, 0x32#8, 0x2E#8, 0x33#8] = .ok (.rstr [0x31, 0x32, 0x2E, 0x33], []) ∧
    decodeCommand [0x04#8, 0x00#8, 0x05#8] = .ok (.rstr [], [0x05#8]) := by decide
/-- D32, K13, K14, K15: `05`; `10 00`; `11`; `12`, and what follows a packet is left (30_encoding.md R83). -/
theorem test_decode_rest :
    decodeCommand [0x05#8, 0x01#8] = .ok (.clear, [0x01#8]) ∧
    decodeCommand [0x10#8, 0x00#8] = .ok (.sopen 0x00#8, []) ∧
    decodeCommand [0x11#8] = .ok (.rdtemp, []) ∧ decodeCommand [0x12#8] = .ok (.rdhum, []) := by decide
/-- The frame `0000aaaa dddddddd` (R86), the command bytes F3 and F5 and the data word, high byte first (R87; S8). -/
theorem test_decode_wires :
    decodeFrame [0b00000011#8, 0b01101101#8] = .ok (.dframe 0x3#4 0x6D#8, []) ∧
    decodeBusCommand Config.reference [0xF3#8] = .ok (.scmdT, []) ∧
    decodeBusCommand Config.reference [0xF5#8] = .ok (.scmdRh, []) ∧
    decodeBusData [0x63#8, 0x38#8] = .ok (.sdata 0x6338#16, []) := by decide
/-- K3, K4, K6, K7, K9, K11, K12: reserved bits, a packet cut short, reserved opcodes. -/
theorem test_decode_refuses :
    decodeCommand [0x02#8, 0x10#8, 0x55#8] = .error ⟨.reservedBits 0x10#8, []⟩ ∧
    decodeCommand [0x02#8, 0x83#8, 0x6D#8] = .error ⟨.reservedBits 0x83#8, []⟩ ∧
    decodeCommand [0x03#8, 0x08#8, 0x38#8] = .error ⟨.reservedBits 0x08#8, []⟩ ∧
    decodeCommand [0x03#8, 0x47#8, 0x38#8] = .error ⟨.reservedBits 0x47#8, []⟩ ∧
    decodeCommand [0x04#8, 0x03#8, 0x31#8, 0x32#8] = .error ⟨.short, []⟩ ∧
    decodeCommand [0x00#8] = .error ⟨.reservedOpcode 0x00#8, []⟩ ∧
    [0x06#8, 0x0F#8, 0x13#8, 0x20#8, 0x80#8, 0xFF#8].map (fun b => decodeCommand [b]) =
      [0x06#8, 0x0F#8, 0x13#8, 0x20#8, 0x80#8, 0xFF#8].map (fun b => .error ⟨.reservedOpcode b, []⟩) := by decide
/-- A reserved opcode is consumed as one byte, whatever follows it (30_encoding.md R83). -/
theorem test_decode_consumes_reserved :
    decodeCommand [0x06#8, 0x05#8, 0x01#8] = .error ⟨.reservedOpcode 0x06#8, [0x05#8, 0x01#8]⟩ := by decide
/-- A frame with a set upper nibble and a bus byte that is no command are no words (log entry 21). -/
theorem test_decode_refuses_wires :
    decodeFrame [0x13#8, 0x6D#8] = .error ⟨.reservedBits 0x13#8, []⟩ ∧
    decodeBusCommand Config.reference [0xF4#8] = .error ⟨.notACommandByte 0xF4#8, []⟩ := by decide
/-- The rows of spec/opcode_table.json: each row's "match", with an operand where the row has one. -/
theorem test_table_words :
    decodeTableWord 8 0x01 = some .init ∧ decodeTableWord 24 0x020F55 = some (.wreg 0xF#4 0x55#8) ∧
    decodeTableWord 24 0x038738 = some (.rchar 7#3 0x38 true) ∧
    decodeTableWord 16 0x0402 = some (.rstr [0x00, 0x00]) ∧ decodeTableWord 8 0x05 = some .clear ∧
    decodeTableWord 16 0x1040 = some (.sopen 0x40#8) ∧ decodeTableWord 8 0x11 = some .rdtemp ∧
    decodeTableWord 8 0x12 = some .rdhum ∧ decodeTableWord 16 0x036D = some (.dframe 0x3#4 0x6D#8) ∧
    decodeTableWord 8 0xF3 = some .scmdT ∧ decodeTableWord 8 0xF5 = some .scmdRh ∧
    decodeTableWord 16 0x6338 = some (.sdata 0x6338#16) := by decide

/-! ### Operations (95_test_vectors.md sections 3 to 6) -/

/-- D31: the thirteen transfers of `INIT`, in order. -/
theorem test_init_transfers :
    nextWith (exec .init s0) (fun t => t.tr.filter fun | .xfer _ => true | _ => false) =
      some ([.xfer #v[0x09#8, 0x00#8], .xfer #v[0x0B#8, 0x07#8], .xfer #v[0x0A#8, 0x07#8], .xfer #v[0x0C#8, 0x01#8], .xfer #v[0x0F#8, 0x00#8]] ++
        [.xfer #v[0x01#8, 0x00#8], .xfer #v[0x02#8, 0x00#8], .xfer #v[0x03#8, 0x00#8], .xfer #v[0x04#8, 0x00#8], .xfer #v[0x05#8, 0x00#8],
          .xfer #v[0x06#8, 0x00#8], .xfer #v[0x07#8, 0x00#8], .xfer #v[0x08#8, 0x00#8]]) := by decide
/-- D31: the registers after `INIT`; `x[0]`, `x[0xD]`, `x[0xE]` keep what they held. -/
theorem test_init_registers :
    nextWith (exec .init s0) (fun t => t.x.toList) =
      some ([0xA5#8, 0x00#8, 0x00#8, 0x00#8, 0x00#8, 0x00#8, 0x00#8, 0x00#8, 0x00#8] ++
        [0x00#8, 0x07#8, 0x07#8, 0x01#8, 0xA5#8, 0xA5#8, 0x00#8]) := by decide
/-- D1. -/
theorem test_wreg :
    nextWith (exec (.wreg 0x3#4 0x6D#8) s0) (fun t => (t.tr, t.reg 0x3#4, t.reg 0x2#4)) =
      some ([.csAssert, .xfer #v[0x03#8, 0x6D#8], .csRelease], 0x6D#8, 0xA5#8) := by decide
/-- D5: a character with its point. -/
theorem test_rchar_point :
    nextWith (exec (.rchar 1#3 0x32 true) s0) (fun t => (t.tr, t.reg 0x2#4)) =
      some ([.csAssert, .xfer #v[0x02#8, 0xED#8], .csRelease], 0xED#8) := by decide
/-- D7: an unsupported character. -/
theorem test_rchar_unsupported :
    nextWith (exec (.rchar 3#3 0x68 false) s0) (fun t => (t.tr, t.reg 0x4#4)) =
      some ([.unsupported 0x68], 0xA5#8) := by decide
/-- D16: the source's own example, `"12.3"`. -/
theorem test_rstr_example :
    nextWith (exec (.rstr [0x31, 0x32, 0x2E, 0x33]) s0) (fun t => t.x.toList.take 9) =
      some [0xA5#8, 0x30#8, 0xED#8, 0x79#8, 0x00#8, 0x00#8, 0x00#8, 0x00#8, 0x00#8] := by decide
/-- D36: an unsupported character consumes the period after it, its slot keeps what it held, and the walk goes on. -/
theorem test_rstr_unsupported :
    nextWith (exec (.rstr [0x41, 0x2E, 0x31]) s0) (fun t => (t.tr.take 4, t.reg 0x1#4, t.reg 0x2#4)) =
      some ([.unsupported 0x41, .csAssert, .xfer #v[0x02#8, 0x30#8], .csRelease], 0xA5#8, 0x30#8) := by decide
/-- D32: the digits zero, the other registers as they were. -/
theorem test_clear :
    nextWith (exec .clear s0) (fun t => t.x.toList) =
      some (0xA5#8 :: List.replicate 8 0x00#8 ++ List.replicate 7 0xA5#8) := by decide
/-- O2: zero is a valid handle. -/
theorem test_sopen_zero :
    nextWith (exec (.sopen 0x40#8) (opening 0)) (fun t => (t.tr, t.sh, t.fatal)) =
      some ([.busOpen 0x40#8 0], some 0, none) := by decide
/-- O3: a negative handle is the fatal stop with exit code 2. -/
theorem test_sopen_negative :
    nextWith (exec (.sopen 0x40#8) (opening (-1))) (fun t => (t.tr, t.sh, t.fatal, t.hs)) =
      some ([.busOpen 0x40#8 (-1), .diag .busInitError, .fatal 2, .exit 2], none, some .bus, .stopped) := by
  decide
/-- An answer of `openBusSession` is a signed integer of `HANDLEW` bits (00_scope.md R9): 3 in two bits is -1, a
failure; in three bits it is a handle. -/
theorem test_sopen_width :
    nextWith (exec (.sopen 0x40#8) { opening 3 with cfg := { Config.reference with handleW := 2 } }) State.fatal =
      some (some .bus) ∧
    nextWith (exec (.sopen 0x40#8) { opening 3 with cfg := { Config.reference with handleW := 3 } }) State.sh =
      some (some 3) := by decide
/-- S8. -/
theorem test_rdtemp :
    nextWith (exec .rdtemp (sensing [0x63#8, 0x38#8])) State.tr =
      some [.busCmd 0xF3#8, .wait 100, .busRead 0x63#8, .busRead 0x38#8, .result .t 0x4035411E66666666#64] := by decide
/-- S18: the temperature just below zero. -/
theorem test_rdtemp_sign :
    nextWith (exec .rdtemp (sensing [0x44#8, 0x41#8])) (fun t => t.tr.getLast?) =
      some (some (.result .t 0xBF1828F5C2900000#64)) := by decide
/-- S16. -/
theorem test_rdhum :
    nextWith (exec .rdhum (sensing [0x7C#8, 0x80#8])) State.tr =
      some [.busCmd 0xF5#8, .wait 100, .busRead 0x7C#8, .busRead 0x80#8, .result .rh 0x404B654000000000#64] := by decide
/-- S22: the raw value whose temperature is farthest from the correctly rounded exact value (R158), and S4. -/
theorem test_conversions :
    convT Config.reference 0xBA8A#16 = 0x40544C42D1EB8520#64 ∧ convT Config.reference 0x00FF#16 = 0xC047154880000000#64 ∧
    convRh Config.reference 0xBA8A#16 = 0x4055455880000000#64 ∧ convRh Config.reference 0x00FF#16 = 0xC0160DF400000000#64 := by decide
/-- The wire words by themselves: R86, R87 (log entry 13). -/
theorem test_wire_words :
    nextWith (exec (.dframe 0x3#4 0x6D#8) s0) (fun t => (t.tr, t.reg 0x3#4)) =
      some ([.csAssert, .xfer #v[0x03#8, 0x6D#8], .csRelease], 0x6D#8) ∧
    nextWith (exec .scmdT (sensing [])) State.tr = some [.busCmd 0xF3#8] ∧
    nextWith (exec .scmdRh (sensing [])) State.tr = some [.busCmd 0xF5#8] ∧
    nextWith (exec (.sdata 0x6338#16) (sensing [])) State.tr = some [.busRead 0x63#8, .busRead 0x38#8] := by decide
/-- K16, K19, K20, K21. -/
theorem test_refusals :
    refusalOf (exec .clear State.reset) = some .serialNotOpen ∧
    refusalOf (exec .rdhum s0) = some .sensorNotOpen ∧
    refusalOf (exec (.sopen 0x40#8) (sensing [])) = some .sensorAlreadyOpen ∧
    nextWith (exec .init { s0 with fatal := some .bus }) State.tr = some [] := by decide
/-- K3 through the fetch of a step, and a step that runs the packet that waits. -/
theorem test_step_fetches :
    refusalOf (step { s0 with cmd := [0x02#8, 0x10#8, 0x55#8] }) = some .illegalCommand ∧
    nextWith (step { s0 with cmd := [0x02#8, 0x00#8, 0xFF#8, 0x05#8] }) (fun t => (t.reg 0x0#4, t.cmd)) =
      some (0xFF#8, [0x05#8]) := by decide
/-- A wire holds one word: a frame is "never one byte and never three" (20_memory.md R60; log entry 21). -/
theorem test_wire_holds_one_word :
    refusalOf (step { s0 with wire := some (.display, [0x03#8]) }) = some .illegalWireWord ∧
    refusalOf (step { s0 with wire := some (.display, [0x03#8, 0x6D#8, 0x05#8]) }) = some .illegalWireWord ∧
    nextWith (step { s0 with wire := some (.display, [0x03#8, 0x6D#8]) }) (fun t => t.reg 0x3#4) = some 0x6D#8 := by decide
/-- A table word placed after reset is the next thing a step runs. -/
theorem test_withFetchWord :
    nextWith (step (State.withFetchWord s0 24 0x02036D)) (fun t => t.reg 0x3#4) = some 0x6D#8 ∧
    nextWith (step (State.withFetchWord s0 16 0x036D)) (fun t => t.reg 0x3#4) = some 0x6D#8 := by decide

/-! ### The host (95_test_vectors.md section 7) -/

/-- H7: a negative temperature and a negative humidity. -/
theorem test_host_text_negative :
    hostText Config.reference 0xC04714F0A3D70A3E#64 0xC014180000000000#64 =
      [0x20, 0x2D, 0x34, 0x36, 0x2E, 0x32, 0x20, 0x2D, 0x35, 0x2E] ++
        [0x30, 0x32, 0x33, 0x34, 0x33, 0x37, 0x35, 0x30, 0x30, 0x30] := by decide
/-- H1 and H9. -/
theorem test_host_buzz_close :
    nextWith (step (hostAt .finalizing 0 [] [])) State.tr = some [.pinWrite 1 .high, .wait 100, .pinWrite 1 .low] ∧
    nextWith (step (hostAt .finalizing 2 [] [])) (fun t => (t.tr, t.ser)) = some ([.serClose, .release], none) := by
  decide
/-- H2: the serial channel's error is the fatal stop with exit code 1. -/
theorem test_host_serial_error :
    nextWith (step { hostAt .init 2 [] [none] with ser := none }) (fun t => (t.tr, t.fatal, t.ser, t.hs)) =
      some ([.serOpen none, .diag .serialInitError, .fatal 1, .exit 1], some .serial, none, .stopped) := by decide
/-- H4b and H4c: a glitch is filtered; a confirmed press ends the loop. -/
theorem test_host_key :
    nextWith (step (hostAt .running 6 [.low, .high] [])) (fun t => (t.tr, t.hs)) =
      some ([.pinRead 6 .low, .wait 10, .pinRead 6 .high], .running) ∧
    nextWith (step (hostAt .running 6 [.low, .low] [])) (fun t => t.hs) = some .finalizing := by decide
/-- P2 (95_test_vectors.md section 8, 41_sensor_engine.md R163): a reading just returned is taken, and none is kept after
the display. -/
theorem test_host_readings :
    nextWith (step { hostAt .running 1 [] [] with tr := [.result .t 0x4035411E66666666#64] }) State.hostT =
      some (some 0x4035411E66666666#64) ∧
    nextWith (step { hostAt .running 3 [] [] with hostH := some 0#64 }) State.hostH = some none ∧
    nextWith (step (atDisplay 0x4035411E66666666#64 0x404B654000000000#64)) (fun t => (t.cmd.take 6, t.hostT, t.hostH)) =
      some ([0x04#8, 0x13#8, 0x20#8, 0x32#8, 0x31#8, 0x2E#8], none, none) := by decide

/-! ### Witnesses: for each obligation with hypotheses, what meets them -/

theorem accepting_s0 : Accepting s0 := by decide
theorem displayReady_s0 : DisplayReady s0 := by decide
theorem sensorReady_sensing : SensorReady (sensing [0x63#8, 0x38#8]) 3 := by decide

theorem witness_ResetMeetsInvariants : ∃ cfg : Config, cfg.Wf := ⟨_, reference_wf⟩
theorem witness_StepRunsDecodedInstruction_command :
    let s := { s0 with cmd := [0x05#8, 0x01#8] }
    s.fatal = none ∧ s.wire = none ∧ decode s.cfg .command s.cmd = .ok (.clear, [0x01#8]) := by decide
theorem witness_StepRunsDecodedInstruction_wire :
    let s := { s0 with wire := some (.busRead, [0x63#8, 0x38#8]) }
    s.fatal = none ∧ decode s.cfg .busRead [0x63#8, 0x38#8] = .ok (.sdata 0x6338#16, []) := by decide
/-- A frame of three bytes, and of one. -/
theorem witness_StepRunsDecodedInstruction_noWord :
    let s := { s0 with wire := some (.display, [0x03#8, 0x6D#8, 0x05#8]) }
    s.fatal = none ∧ (∀ j, decode s.cfg .display [0x03#8, 0x6D#8, 0x05#8] ≠ .ok (j, [])) ∧
    (∀ j, decode s.cfg .display [0x03#8] ≠ .ok (j, [])) := by
  refine ⟨rfl, fun j => ?_, fun j => ?_⟩
  · rw [show decode _ .display [0x03#8, 0x6D#8, 0x05#8] = .ok (.dframe 0x3#4 0x6D#8, [0x05#8]) by decide]
    simp
  · rw [show decode _ .display [0x03#8] = .error ⟨.short, []⟩ by decide]
    simp
theorem witness_StepRunsDecodedInstruction_host : s0.fatal = none ∧ s0.wire = none ∧ s0.cmd = [] := by decide
/-- Each way to spell nothing, at the ends of its range. -/
theorem witness_IllegalPacketsAreRefused :
    SpellsNothing [0x00#8] ∧ SpellsNothing [0x06#8] ∧ SpellsNothing [0x0F#8] ∧ SpellsNothing [0x13#8] ∧
    SpellsNothing [0xFF#8] ∧ SpellsNothing [0x02#8, 0x10#8, 0x55#8] ∧ SpellsNothing [0x02#8, 0xF0#8, 0x55#8] ∧
    SpellsNothing [0x03#8, 0x08#8, 0x38#8] ∧ SpellsNothing [0x03#8, 0x78#8, 0x38#8] ∧ SpellsNothing [0x02#8] ∧
    SpellsNothing [0x02#8, 0x0F#8] ∧ SpellsNothing [0x03#8] ∧ SpellsNothing [0x03#8, 0x87#8] ∧ SpellsNothing [0x04#8] ∧
    SpellsNothing [0x04#8, 0x01#8] ∧ SpellsNothing (0x04#8 :: 0xFF#8 :: List.replicate 254 0x31#8) ∧
    SpellsNothing [0x10#8] :=
  ⟨.opcode _ _ (by decide), .opcode _ _ (by decide), .opcode _ _ (by decide), .opcode _ _ (by decide),
    .opcode _ _ (by decide), .address _ _ (by decide), .address _ _ (by decide), .slot _ _ (by decide),
    .slot _ _ (by decide), .shortAD _ (by decide), .shortAD _ (by decide), .shortSC _ (by decide),
    .shortSC _ (by decide), .shortTX, .shortText _ _ (by decide),
    .shortText _ _ (by rw [List.length_replicate]; decide), .shortBA⟩
theorem witness_IllegalPacketsAreRefused_step :
    let s := { s0 with cmd := [0x02#8, 0x10#8, 0x55#8] }
    s.fatal = none ∧ s.wire = none ∧ SpellsNothing s.cmd := ⟨rfl, rfl, .address _ _ (by decide)⟩
theorem witness_DecodeEncodeAgree :
    Config.reference.cmdTrigT ≠ Config.reference.cmdTrigRh ∧ (Instr.rstr (List.replicate 255 0x2E)).fits = true ∧
    (Instr.wreg 0xF#4 0xFF#8).fits = true ∧ Instr.scmdRh.fits = true ∧
    (Instr.rstr (List.replicate 255 0x2E)).wf Config.reference = true :=
  ⟨by decide, by simp only [Instr.fits, List.length_replicate, List.all_replicate]; decide, by decide, by decide,
    by simp only [Instr.wf, Instr.fits, List.length_replicate, List.all_replicate]; decide⟩
theorem witness_AcceptedBytesAreTheEncoding :
    decode Config.reference .command [0x03#8, 0x87#8, 0x38#8] = .ok (.rchar 7#3 0x38 true, []) ∧
    decode Config.reference .display [0x0F#8, 0xFF#8] = .ok (.dframe 0xF#4 0xFF#8, []) ∧
    decode Config.reference .busWrite [0xF5#8] = .ok (.scmdRh, []) ∧
    decode Config.reference .busRead [0xFF#8, 0xFE#8] = .ok (.sdata 0xFFFE#16, []) := by decide
theorem witness_AcceptedBytesAreTheEncoding_wf : 8 ≤ Config.reference.charW ∧ lenMax ≤ Config.reference.maxLen := by
  decide
/-- Each length of R83 at the ends of its range, and reserved opcodes around the ranges. -/
theorem witness_DecoderTellsTheLength :
    decode Config.reference .command [0x12#8] = .ok (.rdhum, []) ∧
    decode Config.reference .command [0x10#8, 0xFF#8] = .ok (.sopen 0xFF#8, []) ∧
    decode Config.reference .command [0x02#8, 0x00#8, 0x00#8] = .ok (.wreg 0x0#4 0x00#8, []) ∧
    decode Config.reference .command [0x04#8, 0x00#8] = .ok (.rstr [], []) ∧
    decode Config.reference .command [0x04#8, 0x01#8, 0x31#8] = .ok (.rstr [0x31], []) ∧
    [0x00, 0x06, 0x0F, 0x13, 0xFF].all
      (fun b => (BitVec.ofNat 8 b).toNat ∉ [0x01, 0x02, 0x03, 0x04, 0x05, 0x10, 0x11, 0x12]) = true := by decide
/-- `WREG`, `DFRAME`, `CLEAR`, `INIT` under any parameters, `RSTR` show units: any operands at a ready state. -/
theorem witness_display_operations : DisplayReady s0 ∧ s0.cfg.LitWf := ⟨displayReady_s0, rfl⟩
theorem witness_InitWritesThirteenFrames : DisplayReady s0 ∧ s0.cfg.LitWf ∧ s0.cfg.RegsWf :=
  ⟨displayReady_s0, rfl, reference_wf.regs⟩
/-- Two configuration registers at one address, and one at a digit's. -/
theorem witness_InitBlanksUnderAnyParameters :
    let s := { s0 with cfg := { Config.reference with regMode := 0x9#4, regTest := 0x8#4 } }
    DisplayReady s ∧ s.cfg.LitWf ∧ ¬ s.cfg.RegsWf := by decide
theorem witness_RcharWritesOrReports :
    DisplayReady s0 ∧ s0.cfg.LitWf ∧ s0.cfg.glyph 0x38 = some 0x7F#8 ∧ s0.cfg.glyph 0x20 = some 0x00#8 ∧
    s0.cfg.glyph 0x2E = none ∧ s0.cfg.glyph 0x68 = none := by decide
theorem witness_RcharPeriodAndSpace : DisplayReady s0 ∧ s0.cfg.Wf := ⟨displayReady_s0, reference_wf⟩
theorem witness_RstrFramesAndReportsAreEight : DisplayReady s0 ∧ ∃ t, exec (.rstr [0x41, 0x31]) s0 = .next t :=
  ⟨displayReady_s0, _, rfl⟩
theorem witness_RstrBlanksExhaustedSlots :
    (units s0.cfg []).length ≤ (0#3 : Slot).toNat ∧
    (units s0.cfg [0x31, 0x2E, 0x32, 0x33, 0x34, 0x35, 0x36, 0x37]).length ≤ (7#3 : Slot).toNat := by
  decide
/-- D21 and D22: the same first eight units. -/
theorem witness_RstrIgnoresExcessText :
    s0.cfg.LitWf ∧ (units s0.cfg [0x31, 0x32, 0x33, 0x34, 0x35, 0x36, 0x37, 0x38, 0x2E]).take 8 =
      (units s0.cfg [0x31, 0x32, 0x33, 0x34, 0x35, 0x36, 0x37, 0x38, 0x2E, 0x39]).take 8 := by decide
theorem witness_RstrStrayPeriods : DisplayReady s0 ∧ s0.cfg.Wf ∧ (0x35 : Code) ≠ s0.cfg.period :=
  ⟨displayReady_s0, reference_wf, by decide⟩
theorem witness_OnlyWregReachesOtherRegisters :
    (∃ t, exec .init s0 = .next t) ∧ 0xD#4 ∉ s0.cfg.configRegs ∧ (∃ t, exec .clear s0 = .next t) ∧
    [0x0#4, 0x9#4, 0xD#4, 0xF#4].all (fun a => (∀ k < s0.cfg.lit.nSlot, a ≠ slotReg s0.cfg k) ∧
      ∀ k : Slot, a ≠ slotReg s0.cfg k.toNat) = true :=
  ⟨⟨_, rfl⟩, by decide, ⟨_, rfl⟩, by decide⟩
theorem witness_DisplayRefusedWhileSerialClosed : Accepting State.reset ∧ State.reset.ser = none := by decide
theorem witness_SopenKeepsTheHandleOrStops :
    SessionClosed (opening 0) ∧ 0 ≤ ((opening 0).nextBusHandle 0x40#8) ∧
    SessionClosed (opening 0x7FFFFFFF) ∧ 0 ≤ ((opening 0x7FFFFFFF).nextBusHandle 0x40#8) ∧
    SessionClosed (opening (-1)) ∧ ((opening (-1)).nextBusHandle 0x40#8) < 0 ∧
    ((opening 0x80000000).nextBusHandle 0x40#8) < 0 := by decide
theorem witness_SensorRefusedByItsHandle :
    Accepting s0 ∧ s0.sh = none ∧ Accepting (sensing []) ∧ (sensing []).sh ≠ none := by decide
/-- `RDTEMP`, `RDHUM`, `SCMD_T`, `SCMD_RH`, `SDATA`. -/
theorem witness_sensor_operations :
    SensorReady (sensing [0x63#8, 0x38#8]) 3 ∧ (sensing [0x63#8, 0x38#8]).cfg.LitWf := ⟨sensorReady_sensing, rfl⟩
/-- The default conversions, and a list that spells out a value they have anyway. -/
theorem witness_conversions :
    Config.reference.LitWf ∧ Config.reference.ConvWf ∧
    Config.ConvWf { Config.reference with convTAt := [(0x6338#16, 0x4035411E66666666#64)] } :=
  ⟨rfl, reference_wf.conv, fun e he => by rw [List.mem_singleton.mp he]; decide, by simp [Config.reference]⟩
theorem witness_ConversionsIncreaseStrictly : (0x0000#16 : Raw).toNat < (0xFFFF#16 : Raw).toNat := by decide
theorem witness_ConversionSignChanges :
    (0x4441#16 : Raw).toNat ≤ 0x4441 ∧ 0x4442 ≤ (0x4442#16 : Raw).toNat ∧ (0x0C49#16 : Raw).toNat ≤ 0x0C49 ∧
    0x0C4A ≤ (0x0C4A#16 : Raw).toNat := by decide
theorem witness_MeasurementIsItsWireWords :
    let s := sensing [0x63#8, 0x38#8]
    s.cfg.LitWf ∧
    (∃ t c d, exec .rdtemp s = .next t ∧ exec .scmdT s = .next c ∧ exec (.sdata 0x6338#16) (c.pause 100) = .next d) ∧
    (∃ t c d, exec .rdhum s = .next t ∧ exec .scmdRh s = .next c ∧ exec (.sdata 0x6338#16) (c.pause 100) = .next d) :=
  ⟨rfl, ⟨_, _, _, rfl, rfl, rfl⟩, ⟨_, _, _, rfl, rfl, rfl⟩⟩
theorem witness_FatalLatchIgnoresEverything :
    ({ s0 with fatal := some .serial } : State).fatal = some .serial ∧
    ({ s0 with fatal := some .bus } : State).fatal = some .bus := by decide
theorem witness_BusyCommandIsRefused :
    let s := { s0 with seq := { Sequencer.idle with cur := some 0 } }
    let u := { s0 with cs := .asserted }
    s.fatal = none ∧ s.seq ≠ Sequencer.idle ∧ u.fatal = none ∧ u.cs = .asserted := by decide
theorem inv_s0 : Inv s0 where
  idle := rfl
  released := rfl
  serHandle := fun _ h => by cases h; exact ⟨by decide, by decide⟩
  shHandle := fun _ h => by cases h
  framed := rfl
  stopped := by simp [s0, State.resetWith]
  ledCount := rfl
  params := reference_wf
theorem witness_StepKeepsInvariant : Inv s0 ∧ ∃ t, step s0 = .next t := ⟨inv_s0, _, rfl⟩
theorem witness_RegistersFollowTheTrace : ∃ t, step { s0 with cmd := [0x05#8] } = .next t := ⟨_, rfl⟩
theorem witness_ParametersNeverChange : ∃ t, step { s0 with cmd := [0x01#8] } = .next t := ⟨_, rfl⟩
theorem witness_SessionHandleIsKept :
    (sensing []).sh = some 3 ∧ (∃ t, step { sensing [] with cmd := [0x05#8] } = .next t) ∧
    (∃ t, exec .clear (sensing []) = .next t) ∧ (∃ t, hostStep (sensing []) = .next t) :=
  ⟨rfl, ⟨_, rfl⟩, ⟨_, rfl⟩, ⟨_, rfl⟩⟩
theorem witness_FatalEntryStopsTheHost :
    nextWith (step { opening (-1) with cmd := [0x10#8, 0x40#8] }) State.fatal = some (some .bus) ∧
    nextWith (step { hostAt .init 2 [] [none] with ser := none }) State.fatal = some (some .serial) := by decide
theorem witness_DriversKeepToTheirTransports :
    (∃ t, exec .rdtemp (sensing [0x63#8, 0x38#8]) = .next t) ∧ (∃ t, exec (.sopen 0x40#8) (opening 3) = .next t) ∧
    (∃ t, exec (.rchar 1#3 0x32 true) s0 = .next t) := ⟨⟨_, rfl⟩, ⟨_, rfl⟩, ⟨_, rfl⟩⟩
theorem witness_HostBuzzPulse :
    HostNext (hostAt .init 1 [] []) .buzz ∧ HostNext (hostAt .init 5 [] []) .buzz ∧
    HostNext (hostAt .finalizing 0 [] []) .buzz := by decide
theorem witness_HostSerialOpen :
    HostNext (hostAt .init 2 [] [some 5]) .serOpen ∧ (hostAt .init 2 [] [some 5]).nextSerial = some 5 ∧
    HostNext (hostAt .init 2 [] [none]) .serOpen ∧ (hostAt .init 2 [] [none]).nextSerial = none := by decide
theorem witness_HostSerialClose : HostNext (hostAt .finalizing 2 [] []) .serClose := by decide
theorem witness_HostPinsAndLeds :
    HostNext (hostAt .init 0 [] []) .pinSetup ∧ HostNext (hostAt .init 6 [] []) .ledReady ∧
    (hostAt .init 6 [] []).cfg.Wf ∧ (hostAt .init 6 [] []).leds.length = (hostAt .init 6 [] []).cfg.lit.nLed :=
  ⟨by decide, by decide, reference_wf, by decide⟩
theorem witness_HostSleep : HostNext (hostAt .running 5 [] []) .sleep := by decide
theorem witness_HostKeyCheck :
    HostNext (hostAt .running 6 [.high] []) .keyCheck ∧
    (hostAt .running 6 [.high] []).nextLevel 6 ≠ Config.reference.keyPressedLevel ∧
    HostNext (hostAt .running 6 [.low, .low] []) .keyCheck ∧
    (hostAt .running 6 [.low, .low] []).nextLevel 6 = Config.reference.keyPressedLevel ∧
    (hostAt .running 6 [.low, .low] []).dropLevel.nextLevel 6 = Config.reference.keyPressedLevel ∧
    (hostAt .running 6 [.low, .high] []).dropLevel.nextLevel 6 ≠ Config.reference.keyPressedLevel := by decide
theorem witness_HostReadingsAreFresh :
    HostNext (hostAt .running 1 [] []) (.keep .t) ∧ HostNext (hostAt .running 3 [] []) (.keep .rh) ∧
    ({ s0 with tr := [.result .t 0#64] } : State).tr.getLast? = some (.result .t 0#64) ∧
    HostNext (atDisplay 0#64 0#64) .display ∧ (atDisplay 0#64 0#64).hostT = some 0#64 ∧
    (atDisplay 0#64 0#64).hostH = some 0#64 := by decide
theorem witness_RunningIteration :
    let s := hostAt .running 0 [.high] []
    Accepting s ∧ s.ser ≠ none ∧ s.sh = some 3 ∧ s.wire = none ∧ s.cmd = [] ∧ s.hs = .running ∧ s.hpos = 0 ∧ s.cfg.Wf :=
  ⟨by decide, by decide, by decide, by decide, by decide, by decide, by decide, reference_wf⟩
theorem witness_FinalizingRunsOnce :
    let s := hostAt .finalizing 0 [] []
    Accepting s ∧ s.ser ≠ none ∧ s.wire = none ∧ s.cmd = [] ∧ s.hs = .finalizing ∧ s.hpos = 0 ∧
      s.cfg.LitWf := by decide
theorem witness_InitSequenceFromReset :
    let env : Env := ⟨[], [3], [some 5], [], 0⟩
    Config.reference.LitWf ∧ env.serials = some 5 :: [] ∧ env.busHandles = 3 :: [] ∧ 0 ≤ busHandle Config.reference 3 := by decide
theorem witness_StoppedIsTerminal :
    let s := hostAt .stopped 0 [] []
    Accepting s ∧ s.wire = none ∧ s.cmd = [] ∧ s.hs = .stopped := by decide
/-- The host's runs: after reset, and with a packet of the host's own waiting. -/
theorem inv_reset : Inv State.reset where
  idle := rfl
  released := rfl
  serHandle := fun _ h => by cases h
  shHandle := fun _ h => by cases h
  framed := rfl
  stopped := by simp [State.reset, State.resetWith]
  ledCount := rfl
  params := reference_wf
theorem inv_hostAt : Inv { hostAt .running 1 [] [] with cmd := [0x11#8] } where
  idle := rfl
  released := rfl
  serHandle := fun _ h => by cases h; exact ⟨by decide, by decide⟩
  shHandle := fun _ h => by cases h; exact ⟨by decide, by decide⟩
  framed := rfl
  stopped := by simp [hostAt, sensing, s0, State.resetWith]
  ledCount := rfl
  params := reference_wf
theorem witness_HostLoopNeverRefused : LoopInv State.reset where
  inv := inv_reset
  noWire := rfl
  place := .inr (by decide)
  pending := .inr (.inl rfl)
  handles := .inr (by simp [HostHandles, State.reset, State.resetWith])
  readings := by simp [HostReadings, State.reset, State.resetWith]
theorem witness_HostLoopNeverRefused_pending : LoopInv { hostAt .running 1 [] [] with cmd := [0x11#8] } where
  inv := inv_hostAt
  noWire := rfl
  place := .inr (by decide)
  pending := .inr (.inr ⟨.call .rdtemp, by decide, rfl, .inl ⟨.rdtemp, rfl, rfl⟩⟩)
  handles := .inr (by simp [HostHandles, hostAt, sensing, s0])
  readings := by simp [HostReadings, hostAt, sensing, s0, State.resetWith]

end Sys2Proof.Tests
end

/-! SUPPORT. Proofs about the state: what every step keeps, what reset leaves, and what the fatal latch stops. All are
derived from the inversion lemmas of `Laws/Step.lean` and `Laws/Effect.lean`. -/

namespace Sys2Proof.Machine

/-! ### What a step can do, field by field -/

/-- What a step from `s` to `t` can do to the fields that the invariant speaks of. -/
structure StepEffect (s t : State) : Prop where
  /-- The parameters are read-only (10_state.md R24). -/
  cfg : t.cfg = s.cfg
  /-- A step ends with the sequencer as it found it (R20). -/
  seq : t.seq = s.seq
  /-- A step ends with the chip-select as it found it (R28). -/
  cs : t.cs = s.cs
  /-- The trace grows by whole frames and other events, and the registers follow them (R33, R37). -/
  trace : ∃ evs, t.tr = s.tr ++ evs ∧ t.x = replay s.x evs ∧ WellFramed evs
  /-- The serial handle is kept, closed, or one the transport answered (R29). -/
  ser : t.ser = s.ser ∨ t.ser = none ∨ ∃ v, t.ser = some (serialHandle s.cfg v)
  /-- The session's handle is kept, or one that can be stored takes the place of none (R29). -/
  sh : t.sh = s.sh ∨ s.sh = none ∧ ∃ h, t.sh = some h ∧ StoredHandle s.cfg h
  /-- The latch is clear, or the host is stopped, or both are as they were (60_exceptions.md R217). -/
  latch : t.fatal = none ∨ t.hs = .stopped ∨ t.fatal = s.fatal ∧ t.hs = s.hs
  /-- No LED is lost (R36). -/
  leds : t.leds.length = s.leds.length

/-- A step that changes nothing. -/
theorem StepEffect.refl (s : State) : StepEffect s s where
  cfg := rfl
  seq := rfl
  cs := rfl
  trace := ⟨[], (List.append_nil _).symm, rfl, rfl⟩
  ser := .inl rfl
  sh := .inl rfl
  latch := .inr (.inr ⟨rfl, rfl⟩)
  leds := rfl

/-- Only `SOPEN` changes the session's handle (R29). -/
theorem exec_keeps_sh {i : Instr} {s t : State} (h : exec i s = .next t) (hi : ∀ addr, i ≠ .sopen addr) :
    t.sh = s.sh := by
  rcases exec_effect h with ⟨-, rfl⟩ | ⟨-, _, _, _, _, _, _, rfl, -, -, hsession⟩
  · rfl
  · rcases hsession with ⟨hsh, -, -⟩ | ⟨addr, _, e, -⟩
    · exact hsh
    · exact absurd e (hi addr)

/-- No action of the host changes the session's handle (R29). -/
theorem hostStep_keeps_sh {s t : State} (h : hostStep s = .next t) : t.sh = s.sh := by
  obtain ⟨-, ⟨act, -, rfl⟩ | ⟨-, rfl⟩⟩ := hostStep_next h
  · obtain ⟨_, _, _, _, _, _, _, _, _, _, _, e, -⟩ := hostAct_effect act { s with hpos := s.hpos + 1 }
    rw [e]
  · rfl

/-- An operation keeps the session's handle, or stores one where there was none. -/
theorem SessionEffect.sh {i : Instr} {s : State} {evs : List Event} {x : Registers} {sh : Option Handle}
    {fatal : Option FatalCode} {hs : HostState} (h : SessionEffect i s evs x sh fatal hs) :
    sh = s.sh ∨ s.sh = none ∧ ∃ hd, sh = some hd ∧ StoredHandle s.cfg hd := by
  rcases h with ⟨hsh, -⟩ | ⟨_, hd, -, hnone, -, ⟨hstored, hsh, -⟩ | ⟨hsh, -⟩⟩
  · exact .inl hsh
  · exact .inr ⟨hnone, hd, hsh, hstored⟩
  · exact .inl (hsh.trans hnone.symm)

/-- An operation that sets the latch stops the host. -/
theorem SessionEffect.latch {i : Instr} {s : State} {evs : List Event} {x : Registers} {sh : Option Handle}
    {fatal : Option FatalCode} {hs : HostState} (h : SessionEffect i s evs x sh fatal hs) :
    fatal = none ∨ hs = .stopped := by
  rcases h with ⟨-, hfatal, -⟩ | ⟨_, _, -, -, -, ⟨-, -, hfatal, -⟩ | ⟨-, -, hhs, -⟩⟩
  · exact .inl hfatal
  · exact .inl hfatal
  · exact .inr hhs

/-- An action of the host keeps the serial handle, clears it, or stores one the transport answered. -/
theorem SerialEffect.ser {act : HostAct} {s : State} {evs : List Event} {ser : Option Handle}
    {fatal : Option FatalCode} {hs : HostState} (h : SerialEffect act s evs ser fatal hs) :
    ser = s.ser ∨ ser = none ∨ ∃ v, ser = some (serialHandle s.cfg v) := by
  rcases h with ⟨-, -, hser⟩ | ⟨-, ⟨v, hser, -⟩ | ⟨hser, -⟩⟩
  · exact hser.imp_right .inl
  · exact .inr (.inr ⟨v, hser⟩)
  · exact .inl hser

/-- An action of the host that changes the latch stops the host. -/
theorem SerialEffect.latch {act : HostAct} {s : State} {evs : List Event} {ser : Option Handle}
    {fatal : Option FatalCode} {hs : HostState} (h : SerialEffect act s evs ser fatal hs) :
    fatal = s.fatal ∨ hs = .stopped := by
  rcases h with ⟨-, hfatal, -⟩ | ⟨-, ⟨_, -, hfatal⟩ | ⟨-, -, hhs, -⟩⟩
  · exact .inl hfatal
  · exact .inl hfatal
  · exact .inr hhs

/-- Every operation does no more than `StepEffect` says. -/
theorem exec_stepEffect {i : Instr} {s t : State} (h : exec i s = .next t) : StepEffect s t := by
  rcases exec_effect h with ⟨-, rfl⟩ | ⟨-, evs, _, _, _, _, _, rfl, hx, hw, hsession⟩
  · exact .refl t
  · exact {
      cfg := rfl
      seq := rfl
      cs := rfl
      trace := ⟨evs, rfl, hx, hw⟩
      ser := .inl rfl
      sh := hsession.sh
      latch := hsession.latch.imp_right .inl
      leds := rfl }

/-- Every action of the host does no more than `StepEffect` says. -/
theorem hostStep_stepEffect {s t : State} (hf : s.fatal = none) (h : hostStep s = .next t) : StepEffect s t := by
  obtain ⟨-, ⟨act, -, rfl⟩ | ⟨-, rfl⟩⟩ := hostStep_next h
  · obtain ⟨evs, _, _, _, _, _, _, _, _, _, _, e, hw, hx, hleds, hserial⟩ :=
      hostAct_effect act { s with hpos := s.hpos + 1 }
    rw [e]
    exact {
      cfg := rfl
      seq := rfl
      cs := rfl
      trace := ⟨evs, rfl, (hx s.x).symm, hw⟩
      ser := hserial.ser
      sh := .inl rfl
      latch := hserial.latch.imp (·.trans hf) .inl
      leds := hleds }
  · exact .refl t

/-- Every step does no more than `StepEffect` says: it is nothing, an operation after a fetch that changes none of the
fields it speaks of, or an action of the host. -/
theorem step_stepEffect {s t : State} (h : step s = .next t) : StepEffect s t := by
  rcases step_next h with ⟨-, rfl⟩ | ⟨-, i, s', hfetch, hexec⟩ | ⟨hf, -, -, hhost⟩
  · exact .refl t
  · obtain ⟨_, _, rfl⟩ := fetch_frame hfetch
    obtain ⟨cfg, seq, cs, trace, ser, sh, latch, leds⟩ := exec_stepEffect hexec
    exact ⟨cfg, seq, cs, trace, ser, sh, latch, leds⟩
  · exact hostStep_stepEffect hf hhost

/-- What a step can do keeps the invariant. -/
theorem StepEffect.inv {s t : State} (h : StepEffect s t) (hi : Inv s) : Inv t where
  idle := h.seq.trans hi.idle
  released := h.cs.trans hi.released
  serHandle hd hhd := by
    rw [h.cfg]
    rcases h.ser with e | e | ⟨v, e⟩
    · exact hi.serHandle hd (e ▸ hhd)
    · simp [e] at hhd
    · obtain rfl : serialHandle s.cfg v = hd := by simpa [e] using hhd
      exact serialHandle_stored s.cfg v
  shHandle hd hhd := by
    rw [h.cfg]
    rcases h.sh with e | ⟨-, hd', e, hstored⟩
    · exact hi.shHandle hd (e ▸ hhd)
    · obtain rfl : hd' = hd := by simpa [e] using hhd
      exact hstored
  framed := by
    obtain ⟨evs, htr, -, hw⟩ := h.trace
    rw [htr]
    exact wellFramed_append hi.framed hw
  stopped hfatal := by
    rcases h.latch with e | e | ⟨ef, eh⟩
    · exact absurd e hfatal
    · exact e
    · exact eh.trans (hi.stopped (ef ▸ hfatal))
  ledCount := by rw [h.leds, h.cfg, hi.ledCount]
  params := h.cfg ▸ hi.params

/-- Settles O34: a step does no more than `StepEffect` says, and that keeps every clause of the invariant. -/
theorem stepKeepsInvariant : Obligations.StepKeepsInvariant :=
  fun _ _ hi h => (step_stepEffect h).inv hi

/-- Settles O35: the events a step adds are those the registers follow. -/
theorem registersFollowTheTrace : Obligations.RegistersFollowTheTrace := by
  intro s t h
  obtain ⟨evs, htr, hx, -⟩ := (step_stepEffect h).trace
  exact ⟨evs, htr, hx⟩

/-- Settles O36: the parameters are no field a step changes. -/
theorem parametersNeverChange : Obligations.ParametersNeverChange :=
  fun _ _ h => (step_stepEffect h).cfg

/-- Settles O37: a step stores a session handle only where there is none, and only `SOPEN` does. -/
theorem sessionHandleIsKept : Obligations.SessionHandleIsKept := by
  refine ⟨fun s t hd hs h => ?_, fun _ _ _ => exec_keeps_sh, fun _ _ => hostStep_keeps_sh⟩
  rcases (step_stepEffect h).sh with e | ⟨hnone, -⟩
  · exact e.trans hs
  · simp [hs] at hnone

/-! ### The registers an operation reaches -/

/-- `SOPEN` writes no display register. -/
@[simp] theorem openSession_x (addr : Byte) (s : State) : (openSession addr s).x = s.x := by
  cases h : handleFailed (s.nextBusHandle addr) <;> simp [openSession, h]

/-- A measurement writes no display register. -/
@[simp] theorem measureRaw_x (hd : Handle) (cmd : Byte) (s : State) : (measureRaw hd cmd s).x = s.x := by
  rw [measureRaw_eq]

/-- Handing a result over writes no display register. -/
@[simp] theorem deliver_x (kind : Kind) (s : State) : (deliver kind s).x = s.x := by
  cases kind <;> rfl

/-- A frame leaves every register alone but the one it addresses (10_state.md R37). -/
theorem frame_reg_other (d : Data) (s : State) {a b : RegAddr} (h : b ≠ a) : (frame a d s).reg b = s.reg b := by
  rw [frame_eq]
  exact set_reg_ne d h

/-- `Render` leaves every register alone but its slot's. -/
theorem render_reg_other (c : Code) (dp : Bool) {k : Nat} {s : State} {a : RegAddr} (hc : s.cs = .released)
    (h : a ≠ slotReg s.cfg k) : (render k c dp s).reg a = s.reg a := by
  obtain ⟨_, -, -, -, e⟩ := render_eq k c dp s hc
  rw [e]
  exact slotWrite_other _ _ _ _ _ h

/-- The blanking leaves every register alone but the digits. -/
theorem blankDigits_reg_other {s : State} {a : RegAddr} (hc : s.cs = .released)
    (h : ∀ k < s.cfg.lit.nSlot, a ≠ slotReg s.cfg k) : (blankDigits s).reg a = s.reg a := by
  obtain ⟨_, e⟩ := blankDigits_eq s hc
  rw [e]
  exact clearWrites_other _ _ _ h

/-- The walk of `RSTR` leaves every register alone but the digits. -/
theorem walkText_reg_other (text : List Code) {s : State} {a : RegAddr} (hc : s.cs = .released)
    (h : ∀ k < s.cfg.lit.nSlot, a ≠ slotReg s.cfg k) :
    (forSlots renderNext (latchText text s)).reg a = s.reg a := by
  obtain ⟨_, e⟩ := showText_eq text s hc
  rw [e]
  exact showAll_other _ _ _ _ _ fun k hk => h k (mem_allSlots.mp hk)

/-- The configuration writes address the configuration registers. -/
theorem configWrites_regs (cfg : Config) : (configWrites cfg).map Prod.fst = cfg.configRegs := rfl

/-- The configuration of `INIT` leaves every register alone but the configuration registers. -/
theorem configure_reg_other {s : State} {a : RegAddr} (hc : s.cs = .released) (h : a ∉ s.cfg.configRegs) :
    (configure s).reg a = s.reg a := by
  obtain ⟨_, e⟩ := configure_eq s hc
  rw [e]
  refine writes_other _ _ _ fun w hw hwa => h ?_
  rw [← configWrites_regs, ← hwa]
  exact List.mem_map_of_mem hw

/-- The configuration of `INIT` changes no parameter and leaves the chip-select released. -/
theorem configure_keeps {s : State} (hc : s.cs = .released) :
    (configure s).cfg = s.cfg ∧ (configure s).cs = .released := by
  obtain ⟨_, e⟩ := configure_eq s hc
  rw [e]
  exact ⟨rfl, hc⟩

/-- Settles O19, operation by operation: the display operations write digits, `INIT` the configuration registers too, a
frame the register it names, and the sensor operations none. -/
theorem onlyWregReachesOtherRegisters : Obligations.OnlyWregReachesOtherRegisters := by
  intro i s t a h hdigit hslot hwreg hdframe hinit
  rcases exec_next h with ⟨-, rfl⟩ | ⟨⟨-, -, hc⟩, hmeaning⟩
  · rfl
  cases i with
  | init =>
    obtain ⟨-, rfl⟩ := hmeaning
    obtain ⟨hcfg, hcs⟩ := configure_keeps hc
    exact (blankDigits_reg_other hcs (by rwa [hcfg])).trans (configure_reg_other hc (hinit rfl))
  | wreg b d =>
    obtain ⟨-, rfl⟩ := hmeaning
    exact frame_reg_other d s fun e => hwreg d (e ▸ rfl)
  | rchar k c dp =>
    obtain ⟨-, rfl⟩ := hmeaning
    exact render_reg_other c dp hc (hslot k)
  | rstr text =>
    obtain ⟨-, rfl⟩ := hmeaning
    exact walkText_reg_other text hc hdigit
  | clear =>
    obtain ⟨-, rfl⟩ := hmeaning
    exact blankDigits_reg_other hc hdigit
  | sopen addr =>
    obtain ⟨-, rfl⟩ := hmeaning
    exact State.reg_congr (by simp) a
  | rdtemp =>
    obtain ⟨hd, -, rfl⟩ := hmeaning
    exact State.reg_congr (by simp) a
  | rdhum =>
    obtain ⟨hd, -, rfl⟩ := hmeaning
    exact State.reg_congr (by simp) a
  | dframe b d =>
    obtain ⟨-, rfl⟩ := hmeaning
    exact frame_reg_other d s fun e => hdframe d (e ▸ rfl)
  | scmdT | scmdRh | sdata raw =>
    obtain ⟨-, rfl⟩ := hmeaning
    rfl

/-! ### Reset and the fatal latch -/

/-- The state after reset meets the invariant under all parameters that meet the spec's constraints, whatever the
environment answers (R41). -/
theorem inv_resetWith {cfg : Config} (hcfg : cfg.Wf) (x : Registers) (env : Env) :
    Inv { State.resetWith cfg x with env := env } where
  idle := rfl
  released := rfl
  serHandle _ h := by simp [State.resetWith] at h
  shHandle _ h := by simp [State.resetWith] at h
  framed := rfl
  stopped h := absurd rfl h
  ledCount := List.length_replicate
  params := hcfg

/-- At reset the host stands at the first action of `Init`, with no handle, no reading and no command. -/
theorem loopInv_resetWith {cfg : Config} (hcfg : cfg.Wf) (x : Registers) (env : Env) :
    LoopInv { State.resetWith cfg x with env := env } where
  inv := inv_resetWith hcfg x env
  noWire := rfl
  place := .inr (by simp [State.resetWith, hostScript])
  pending := .inr (.inl rfl)
  handles := .inr (by simp [HostHandles, State.resetWith])
  readings := ⟨rfl, rfl⟩

/-- Settles O2: the default parameters meet the constraints, and reset meets both invariants under all that do. -/
theorem resetMeetsInvariants : Obligations.ResetMeetsInvariants :=
  ⟨Tests.reference_wf, fun _ x env hcfg => ⟨inv_resetWith hcfg x env, loopInv_resetWith hcfg x env⟩⟩

/-- Every operation begins with the common tests (R30, 60_exceptions.md R219). -/
theorem exec_whenAccepted (i : Instr) : ∃ k, ∀ s, exec i s = whenAccepted s k := by
  cases i <;> exact ⟨_, fun _ => rfl⟩

/-- After a fatal stop every operation is ignored (R30). -/
theorem exec_of_fatal {s : State} (h : s.fatal.isSome) (i : Instr) : exec i s = .next s := by
  obtain ⟨k, hk⟩ := exec_whenAccepted i
  rw [hk, whenAccepted_of_fatal h]

/-- After a fatal stop nothing happens (R30). -/
theorem step_of_fatal {s : State} (h : s.fatal.isSome) : step s = .next s := if_pos h

/-- Settles O32: the test of the latch comes before everything else a step or an operation does. -/
theorem fatalLatchIgnoresEverything : Obligations.FatalLatchIgnoresEverything := by
  intro s k h
  have hf : s.fatal.isSome := by simp [h]
  exact ⟨step_of_fatal hf, exec_of_fatal hf⟩

end Sys2Proof.Machine

/-! SUPPORT. Proofs about the fetch and the dispatch of a step: what waits at the ports decides what a step does. -/

namespace Sys2Proof.Machine

/-! ### What the fetch answers -/

/-- With nothing on a wire, a packet at the head of the command port is taken, and the bytes after it stay
(30_encoding.md R83). -/
theorem fetch_of_packet {s : State} {i : Instr} {rest : List Byte} (hw : s.wire = none)
    (hd : decode s.cfg .command s.cmd = .ok (i, rest)) : fetch s = .run i { s with cmd := rest } := by
  cases hc : s.cmd with
  | nil =>
    rw [hc] at hd
    simp [decode, decodeCommand] at hd
  | cons b bs =>
    rw [hc] at hd
    simp [fetch, hw, hc, hd]

/-- Bytes on a wire that are exactly one word are taken (20_memory.md R60). -/
theorem fetch_of_wireWord {s : State} {link : Link} {bytes : List Byte} {i : Instr}
    (hw : s.wire = some (link, bytes)) (hd : decode s.cfg link bytes = .ok (i, [])) :
    fetch s = .run i { s with wire := none } := by
  simp [fetch, hw, hd]

/-- Bytes on a wire that are not exactly one word are refused: those that spell no word, and a word with more bytes
after it (log entry 21). -/
theorem fetch_of_noWireWord {s : State} {link : Link} {bytes : List Byte} (hw : s.wire = some (link, bytes))
    (hd : ∀ i, decode s.cfg link bytes ≠ .ok (i, [])) : fetch s = .bad .illegalWireWord := by
  match h : decode s.cfg link bytes with
  | .ok (i, []) => exact absurd h (hd i)
  | .ok (i, b :: rest) => simp [fetch, hw, h]
  | .error e => simp [fetch, hw, h]

/-! ### A step follows the fetch -/

section
variable {s : State} (hf : s.fatal = none)
include hf

/-- A step runs the operation fetched. -/
theorem step_of_fetch_run {i : Instr} {s' : State} (h : fetch s = .run i s') : step s = exec i s' := by
  simp [step, hf, h]

/-- A step refuses what the fetch refuses. -/
theorem step_of_fetch_bad {r : Refusal} (h : fetch s = .bad r) : step s = .refused r := by
  simp [step, hf, h]

/-- The host acts when nothing is fetched. -/
theorem step_of_fetch_nothing (h : fetch s = .nothing) : step s = hostStep s := by
  simp [step, hf, h]

end

/-- Settles O3: in each of the four cases the fetch has one answer, and the step follows it. -/
theorem stepRunsDecodedInstruction : Obligations.StepRunsDecodedInstruction := by
  refine ⟨fun s i rest hf hw hd => ?packet, fun s link bytes i hf hw => ⟨fun hd => ?word, fun hd => ?noWord⟩,
    fun s hf hw hc => ?nothing⟩
  case packet => exact step_of_fetch_run hf (fetch_of_packet hw hd)
  case word => exact step_of_fetch_run hf (fetch_of_wireWord hw hd)
  case noWord => exact step_of_fetch_bad hf (fetch_of_noWireWord hw hd)
  case nothing => exact step_of_fetch_nothing hf (fetch_nothing.mpr ⟨hw, hc⟩)

end Sys2Proof.Machine

/-! SUPPORT. Proofs about the decoder and the encoder (30_encoding.md R81 to R83, R86 to R88): each gives back what the
other was given, what the command decoder refuses, and how long an accepted packet is. -/

namespace Sys2Proof

/-! ### The opcode map (30_encoding.md R82) -/

@[simp] theorem decodeCommand_init (rest : List Byte) : decodeCommand (0x01#8 :: rest) = .ok (.init, rest) := rfl
@[simp] theorem decodeCommand_wreg (rest : List Byte) : decodeCommand (0x02#8 :: rest) = decodeAD rest := rfl
@[simp] theorem decodeCommand_rchar (rest : List Byte) : decodeCommand (0x03#8 :: rest) = decodeSC rest := rfl
@[simp] theorem decodeCommand_rstr (rest : List Byte) : decodeCommand (0x04#8 :: rest) = decodeTX rest := rfl
@[simp] theorem decodeCommand_clear (rest : List Byte) : decodeCommand (0x05#8 :: rest) = .ok (.clear, rest) := rfl
@[simp] theorem decodeCommand_sopen (rest : List Byte) : decodeCommand (0x10#8 :: rest) = decodeBA rest := rfl
@[simp] theorem decodeCommand_rdtemp (rest : List Byte) : decodeCommand (0x11#8 :: rest) = .ok (.rdtemp, rest) := rfl
@[simp] theorem decodeCommand_rdhum (rest : List Byte) : decodeCommand (0x12#8 :: rest) = .ok (.rdhum, rest) := rfl

/-- A first byte that is none of the eight opcodes (R82). -/
abbrev IsReserved (b0 : Byte) : Prop := b0.toNat ∉ [0x01, 0x02, 0x03, 0x04, 0x05, 0x10, 0x11, 0x12]

/-- A reserved opcode is reported, with that one byte consumed (R83, R88 (a)). -/
theorem decodeCommand_reserved {b0 : Byte} (h : IsReserved b0) (rest : List Byte) :
    decodeCommand (b0 :: rest) = .error ⟨.reservedOpcode b0, rest⟩ := by
  have hne (n : Nat) (hn : n ∈ [0x01, 0x02, 0x03, 0x04, 0x05, 0x10, 0x11, 0x12]) : b0 ≠ BitVec.ofNat 8 n := by
    rintro rfl
    fin_cases hn <;> exact h (by decide)
  simp [decodeCommand, hne]

/-- A first byte is one of the eight opcodes, or reserved. -/
theorem opcode_cases (b0 : Byte) :
    IsReserved b0 ∨ b0 = 0x01#8 ∨ b0 = 0x02#8 ∨ b0 = 0x03#8 ∨ b0 = 0x04#8 ∨ b0 = 0x05#8 ∨ b0 = 0x10#8 ∨
      b0 = 0x11#8 ∨ b0 = 0x12#8 := by
  rw [or_iff_not_imp_left, not_not]
  simp [← BitVec.toNat_inj]

/-! ### Characters and lengths (30_encoding.md R81, R84) -/

theorem codeFits_iff {c : Nat} : codeFits c = true ↔ c < 256 := decide_eq_true_iff

/-- The character of a byte fits a packet. -/
@[simp] theorem codeFits_toNat (b : Byte) : codeFits b.toNat = true := codeFits_iff.mpr b.isLt

/-- A text fits a packet when its length byte can say its length and its characters fit. -/
theorem fits_rstr_iff {text : List Code} :
    (Instr.rstr text).fits = true ↔ text.length ≤ lenMax ∧ text.all codeFits = true := by
  simp [Instr.fits]

/-- A number of one byte is read back from its byte. -/
theorem byte_toNat_ofNat {n : Nat} (h : n ≤ lenMax) : (BitVec.ofNat 8 n).toNat = n :=
  Nat.mod_eq_of_lt (Nat.lt_succ_of_le h)

/-- Characters that fit a packet are read back from their bytes. -/
theorem map_toNat_map_ofNat {text : List Code} (h : text.all codeFits = true) :
    (text.map (BitVec.ofNat 8)).map BitVec.toNat = text := by
  rw [List.map_map]
  refine (List.map_congr_left fun c hc => ?_).trans (List.map_id text)
  exact byte_toNat_ofNat (Nat.le_of_lt_succ (codeFits_iff.mp (List.all_eq_true.mp h c hc)))

/-- An operation that fits its packet is well formed where a character code has a byte's width and a text any length
its length byte can say (log entry 9). -/
theorem wf_of_fits {cfg : Config} {i : Instr} (hchar : 8 ≤ cfg.charW) (hlen : lenMax ≤ cfg.maxLen)
    (h : i.fits = true) : i.wf cfg = true := by
  have isCode {c : Code} (hc : codeFits c = true) : cfg.IsCode c = true :=
    decide_eq_true ((codeFits_iff.mp hc).trans_le (Nat.pow_le_pow_right Nat.two_pos hchar))
  cases i with
  | rchar slot c dp => exact Bool.and_eq_true_iff.mpr ⟨h, isCode h⟩
  | rstr text =>
    obtain ⟨htext, hall⟩ := fits_rstr_iff.mp h
    simp only [Instr.wf, h, Bool.true_and, Bool.and_eq_true, decide_eq_true_eq]
    exact ⟨htext.trans hlen, List.all_eq_true.mpr fun c hc => isCode (List.all_eq_true.mp hall c hc)⟩
  | init | wreg a d | clear | sopen addr | rdtemp | rdhum | dframe a d | scmdT | scmdRh | sdata raw => rfl

/-- A well-formed operation fits its packet. -/
theorem fits_of_wf {cfg : Config} {i : Instr} (h : i.wf cfg = true) : i.fits = true := by
  cases i with
  | rchar slot c dp => exact (Bool.and_eq_true_iff.mp h).1
  | rstr text => exact (Bool.and_eq_true_iff.mp (Bool.and_eq_true_iff.mp h).1).1
  | init | wreg a d | clear | sopen addr | rdtemp | rdhum | dframe a d | scmdT | scmdRh | sdata raw => rfl

/-! ### Decoding an encoding -/

/-- The operands of a text that fits its packet are read back from its bytes (R81, format `TX`). -/
theorem decodeTX_encoded {text : List Code} (h : (Instr.rstr text).fits = true) (rest : List Byte) :
    decodeTX (BitVec.ofNat 8 text.length :: (text.map (BitVec.ofNat 8) ++ rest)) = .ok (.rstr text, rest) := by
  obtain ⟨hlen, hall⟩ := fits_rstr_iff.mp h
  have hn : (BitVec.ofNat 8 text.length).toNat = (text.map (BitVec.ofNat 8)).length := by
    rw [byte_toNat_ofNat hlen, List.length_map]
  rw [decodeTX, hn, if_pos (by simp), List.take_left, List.drop_left, map_toNat_map_ofNat hall]

/-- A frame is read back from its two bytes (R86). -/
theorem decodeFrame_encoded (a : RegAddr) (d : Data) (rest : List Byte) :
    decodeFrame ((frameOf a d).toList ++ rest) = .ok (.dframe a d, rest) := by
  have hbytes : (frameOf a d).toList = [0#4 ++ a, d] := by rw [frameOf_eq]; rfl
  rw [hbytes]
  refine (decodeFrame_pair (0#4 ++ a) d rest).trans ?_
  rw [show (#v[0#4 ++ a, d] : FrameWord) = frameOf a d from (frameOf_eq a d).symm]
  simp

/-- Decoding an encoding on its link gives the instruction back and leaves the bytes after it. -/
theorem decode_encode {cfg : Config} {i : Instr} (hcmd : cfg.cmdTrigT ≠ cfg.cmdTrigRh) (h : i.fits = true)
    (rest : List Byte) : decode cfg i.link (encode cfg i ++ rest) = .ok (i, rest) := by
  cases i with
  | init | clear | rdtemp | rdhum | sopen addr => rfl
  | wreg a d => simp [Instr.link, decode, encode, decodeAD]
  | rchar slot c dp =>
    simp [Instr.link, decode, encode, decodeSC, byte_toNat_ofNat (Nat.le_of_lt_succ (codeFits_iff.mp h))]
  | rstr text => exact decodeTX_encoded h rest
  | dframe a d => exact decodeFrame_encoded a d rest
  | scmdT => simp [Instr.link, decode, encode, decodeBusCommand]
  | scmdRh => simp [Instr.link, decode, encode, decodeBusCommand, hcmd.symm]
  | sdata raw => simp [Instr.link, decode, encode, decodeBusData]

/-- Settles O6: a well-formed instruction fits its packet, and what fits is read back field by field. -/
theorem decodeEncodeAgree : Obligations.DecodeEncodeAgree :=
  ⟨fun _ _ => fits_of_wf, fun _ _ rest hcmd h => decode_encode hcmd h rest⟩

/-! ### What an accepted word is the encoding of -/

/-- The bytes of a link are an encoding and the bytes after it. -/
structure Spells (cfg : Config) (link : Link) (bytes : List Byte) (i : Instr) (rest : List Byte) : Prop where
  /-- The instruction is one of the link (30_encoding.md R80, R86, R87). -/
  onLink : i.link = link
  /-- Its operands fit its packet (R81). -/
  fits : i.fits = true
  /-- The input is its encoding, then the bytes left. -/
  encoded : encode cfg i ++ rest = bytes

section
variable {cfg : Config} {bytes rest : List Byte} {i : Instr}

/-- Format `AD`: the reserved bits are clear, so the address byte is the address (R81, R88 (b)). -/
theorem decodeAD_ok (h : decodeAD bytes = .ok (i, rest)) : Spells cfg .command (0x02#8 :: bytes) i rest := by
  match bytes with
  | b1 :: b2 :: tail =>
    simp only [decodeAD] at h
    split_ifs at h with hbits
    obtain ⟨rfl, rfl⟩ : Instr.wreg (addrField b1) (dataField b2) = i ∧ tail = rest := by simpa using h
    exact ⟨rfl, rfl, by simp [encode, addrByte_addrField hbits]⟩
  | [_] | [] => simp [decodeAD] at h

/-- Format `SC`: the reserved bits are clear, so byte 1 is the point and the slot (R81, R88 (c)). -/
theorem decodeSC_ok (h : decodeSC bytes = .ok (i, rest)) : Spells cfg .command (0x03#8 :: bytes) i rest := by
  match bytes with
  | b1 :: b2 :: tail =>
    simp only [decodeSC] at h
    split_ifs at h with hbits
    obtain ⟨rfl, rfl⟩ : Instr.rchar (slotField b1) b2.toNat (dpField b1) = i ∧ tail = rest := by simpa using h
    exact ⟨rfl, codeFits_toNat b2, by simp [encode, eq_of_slotReserved_zero hbits]⟩
  | [_] | [] => simp [decodeSC] at h

/-- Format `TX`: the text is as long as its length byte says (R81, R83). -/
theorem decodeTX_ok (h : decodeTX bytes = .ok (i, rest)) : Spells cfg .command (0x04#8 :: bytes) i rest := by
  match bytes with
  | len :: tail =>
    simp only [decodeTX] at h
    split_ifs at h with hlen
    obtain ⟨rfl, rfl⟩ : Instr.rstr ((tail.take len.toNat).map BitVec.toNat) = i ∧ tail.drop len.toNat = rest := by
      simpa using h
    have htext : ((tail.take len.toNat).map BitVec.toNat).length = len.toNat := by simpa using hlen
    have hall : ((tail.take len.toNat).map BitVec.toNat).all codeFits = true := by
      rw [List.all_map]
      simp
    refine ⟨rfl, fits_rstr_iff.mpr ⟨?_, hall⟩, ?_⟩
    · exact htext.trans_le (Nat.le_of_lt_succ len.isLt)
    · rw [encode, htext]
      simp [Function.comp_def]
  | [] => simp [decodeTX] at h

/-- Format `BA`: the byte after the opcode is the address (R81). -/
theorem decodeBA_ok (h : decodeBA bytes = .ok (i, rest)) : Spells cfg .command (0x10#8 :: bytes) i rest := by
  match bytes with
  | addr :: tail =>
    obtain ⟨rfl, rfl⟩ : Instr.sopen addr = i ∧ tail = rest := by simpa [decodeBA] using h
    exact ⟨rfl, rfl, rfl⟩
  | [] => simp [decodeBA] at h

/-- A packet accepted at the command port, opcode by opcode (R82). -/
theorem decodeCommand_ok (h : decodeCommand bytes = .ok (i, rest)) : Spells cfg .command bytes i rest := by
  match bytes with
  | [] => simp [decodeCommand] at h
  | b0 :: tail =>
    have bare {j : Instr} (hd : (.ok (j, tail) : Decoded) = .ok (i, rest))
        (hj : Spells cfg .command (b0 :: tail) j tail) : Spells cfg .command (b0 :: tail) i rest := by
      obtain ⟨rfl, rfl⟩ : j = i ∧ tail = rest := by simpa using hd
      exact hj
    rcases opcode_cases b0 with hb | rfl | rfl | rfl | rfl | rfl | rfl | rfl | rfl
    · simp [decodeCommand_reserved hb] at h
    · exact bare h ⟨rfl, rfl, rfl⟩
    · exact decodeAD_ok h
    · exact decodeSC_ok h
    · exact decodeTX_ok h
    · exact bare h ⟨rfl, rfl, rfl⟩
    · exact decodeBA_ok h
    · exact bare h ⟨rfl, rfl, rfl⟩
    · exact bare h ⟨rfl, rfl, rfl⟩

/-- A frame accepted on the display link has its upper bits clear, so it is its address and its data byte (R86). -/
theorem decodeFrame_ok (h : decodeFrame bytes = .ok (i, rest)) : Spells cfg .display bytes i rest := by
  match bytes with
  | b0 :: b1 :: tail =>
    rw [decodeFrame_pair] at h
    split_ifs at h with hclear
    obtain ⟨rfl, rfl⟩ : Instr.dframe (frameAddr #v[b0, b1]) (frameData #v[b0, b1]) = i ∧ tail = rest := by
      simpa using h
    exact ⟨rfl, rfl, by rw [encode, frameOf_frameAddr hclear]; rfl⟩
  | [_] | [] => simp [decodeFrame_short] at h

/-- A byte accepted on the bus is one of the two command bytes (R87). -/
theorem decodeBusCommand_ok (h : decodeBusCommand cfg bytes = .ok (i, rest)) : Spells cfg .busWrite bytes i rest := by
  match bytes with
  | b :: tail =>
    simp only [decodeBusCommand] at h
    split_ifs at h with ht hrh
    · obtain ⟨rfl, rfl⟩ : Instr.scmdT = i ∧ tail = rest := by simpa using h
      exact ⟨rfl, rfl, by rw [ht]; rfl⟩
    · obtain ⟨rfl, rfl⟩ : Instr.scmdRh = i ∧ tail = rest := by simpa using h
      exact ⟨rfl, rfl, by rw [hrh]; rfl⟩
  | [] => simp [decodeBusCommand] at h

/-- Two bytes read on the bus are those of the raw value they join to (R87). -/
theorem decodeBusData_ok (h : decodeBusData bytes = .ok (i, rest)) : Spells cfg .busRead bytes i rest := by
  match bytes with
  | b0 :: b1 :: tail =>
    obtain ⟨rfl, rfl⟩ : Instr.sdata (rawOf b0 b1) = i ∧ tail = rest := by simpa [decodeBusData] using h
    exact ⟨rfl, rfl, by simp [encode]⟩
  | [_] | [] => simp [decodeBusData] at h

/-- What a decoder accepts is an encoding and the bytes after it, on every link. -/
theorem decode_ok {link : Link} (h : decode cfg link bytes = .ok (i, rest)) : Spells cfg link bytes i rest := by
  cases link with
  | command => exact decodeCommand_ok h
  | display => exact decodeFrame_ok h
  | busWrite => exact decodeBusCommand_ok h
  | busRead => exact decodeBusData_ok h

end

/-- Settles O7: what a decoder accepts is an encoding, and an instruction that fits is well formed under wide enough
parameters. -/
theorem acceptedBytesAreTheEncoding : Obligations.AcceptedBytesAreTheEncoding := by
  intro cfg link bytes i rest h
  obtain ⟨hlink, hfits, hbytes⟩ := decode_ok h
  exact ⟨hlink, hfits, hbytes, fun hchar hlen => wf_of_fits hchar hlen hfits⟩

/-! ### How long an accepted packet is (30_encoding.md R83) -/

/-- The opcode, and for `RSTR` the length byte, tell the length of a packet (the spec's own decision D2). -/
theorem encode_length_of_opcode {cfg : Config} {i : Instr} {b0 : Byte} {bytes rest : List Byte}
    (h : Spells cfg .command (b0 :: bytes) i rest) :
    (b0.toNat ∈ [0x01, 0x05, 0x11, 0x12] ∧ (encode cfg i).length = 1) ∨ (b0 = 0x10#8 ∧ (encode cfg i).length = 2) ∨
      (b0.toNat ∈ [0x02, 0x03] ∧ (encode cfg i).length = 3) ∨
      (b0 = 0x04#8 ∧ ∃ len, bytes.head? = some len ∧ (encode cfg i).length = 2 + len.toNat) := by
  obtain ⟨hlink, hfits, hbytes⟩ := h
  cases i with
  | init | clear | rdtemp | rdhum =>
    obtain ⟨rfl, -⟩ := List.cons.inj hbytes
    exact .inl ⟨by decide, rfl⟩
  | sopen addr =>
    obtain ⟨rfl, -⟩ := List.cons.inj hbytes
    exact .inr (.inl ⟨rfl, rfl⟩)
  | wreg | rchar =>
    obtain ⟨rfl, -⟩ := List.cons.inj hbytes
    exact .inr (.inr (.inl ⟨by decide, rfl⟩))
  | rstr text =>
    obtain ⟨rfl, rfl⟩ := List.cons.inj hbytes
    refine .inr (.inr (.inr ⟨rfl, BitVec.ofNat 8 text.length, rfl, ?_⟩))
    rw [byte_toNat_ofNat (fits_rstr_iff.mp hfits).1]
    exact Laws.PacketLength.rstr text cfg
  | dframe | scmdT | scmdRh | sdata => cases hlink

/-- Settles O52: the packet accepted is its encoding, whose length is that of its format. -/
theorem decoderTellsTheLength : Obligations.DecoderTellsTheLength := by
  refine fun cfg b0 bytes => ⟨fun i rest h => ?_, fun hb => decodeCommand_reserved hb bytes⟩
  have hspells : Spells cfg .command (b0 :: bytes) i rest := decode_ok h
  exact ⟨encode cfg i, hspells.encoded, encode_length_of_opcode hspells⟩

/-- Settles O5: each word is decoded by its link's decoder. -/
theorem specWordsDecode : Obligations.SpecWordsDecode :=
  fun _ => ⟨rfl, rfl, rfl, rfl, rfl, rfl, rfl, rfl⟩

end Sys2Proof

namespace Sys2Proof.Machine

/-! ### The packets that are refused (30_encoding.md R88) -/

theorem highBits_eq_zero_iff (b : Byte) : highBits b = 0#(8 - AW) ↔ b.toNat / 16 = 0 := by
  revert b; decide

theorem slotReserved_eq_zero_iff (b : Byte) : slotReserved b = 0#4 ↔ b.toNat / 8 % 16 = 0 := by
  revert b; decide

/-- Every packet of R88 (a) to (d) is refused. -/
theorem SpellsNothing.refused {bytes : List Byte} (h : SpellsNothing bytes) : ∃ e, decodeCommand bytes = .error e := by
  cases h with
  | opcode b0 rest h => exact ⟨_, decodeCommand_reserved h rest⟩
  | address b1 rest h =>
    cases rest <;> simp [decodeAD, highBits_eq_zero_iff, h]
  | slot b1 rest h =>
    cases rest <;> simp [decodeSC, slotReserved_eq_zero_iff, h]
  | shortAD rest h =>
    match rest with
    | [] | [_] => exact ⟨_, rfl⟩
  | shortSC rest h =>
    match rest with
    | [] | [_] => exact ⟨_, rfl⟩
  | shortTX => exact ⟨_, rfl⟩
  | shortText len rest h => simp [decodeTX, Nat.not_le.mpr h]
  | shortBA => exact ⟨_, rfl⟩

section
variable {bytes : List Byte} {e : Rejected}

/-- A refused packet of format `AD` ends too early or has a reserved bit set. -/
theorem decodeAD_error (h : decodeAD bytes = .error e) : SpellsNothing (0x02#8 :: bytes) := by
  match bytes with
  | b1 :: b2 :: tail =>
    refine .address b1 (b2 :: tail) fun hbits => ?_
    simp [decodeAD, (highBits_eq_zero_iff b1).mpr hbits] at h
  | [_] | [] => exact .shortAD _ (by simp)

/-- A refused packet of format `SC` ends too early or has a reserved bit set. -/
theorem decodeSC_error (h : decodeSC bytes = .error e) : SpellsNothing (0x03#8 :: bytes) := by
  match bytes with
  | b1 :: b2 :: tail =>
    refine .slot b1 (b2 :: tail) fun hbits => ?_
    simp [decodeSC, (slotReserved_eq_zero_iff b1).mpr hbits] at h
  | [_] | [] => exact .shortSC _ (by simp)

/-- A refused packet of format `TX` ends before its length byte, or before its text does. -/
theorem decodeTX_error (h : decodeTX bytes = .error e) : SpellsNothing (0x04#8 :: bytes) := by
  match bytes with
  | len :: tail =>
    refine .shortText len tail (lt_of_not_ge fun hlen => ?_)
    simp [decodeTX, hlen] at h
  | [] => exact .shortTX

/-- A refused packet of format `BA` ends after its opcode. -/
theorem decodeBA_error (h : decodeBA bytes = .error e) : SpellsNothing (0x10#8 :: bytes) := by
  match bytes with
  | addr :: tail => simp [decodeBA] at h
  | [] => exact .shortBA

/-- Every refused packet is one of R88 (a) to (d), opcode by opcode. -/
theorem decodeCommand_error (hne : bytes ≠ []) (h : decodeCommand bytes = .error e) : SpellsNothing bytes := by
  match bytes with
  | [] => exact absurd rfl hne
  | b0 :: tail =>
    rcases opcode_cases b0 with hb | rfl | rfl | rfl | rfl | rfl | rfl | rfl | rfl
    · exact .opcode b0 tail hb
    · simp at h
    · exact decodeAD_error h
    · exact decodeSC_error h
    · exact decodeTX_error h
    · simp at h
    · exact decodeBA_error h
    · simp at h
    · simp at h

end

/-- Bytes at the command port that spell no operation are refused by the fetch. -/
theorem fetch_of_spellsNothing {s : State} (hw : s.wire = none) (h : SpellsNothing s.cmd) :
    fetch s = .bad .illegalCommand := by
  obtain ⟨e, hd⟩ := h.refused
  cases hc : s.cmd with
  | nil => rw [hc] at h; cases h
  | cons b bs =>
    rw [hc] at hd
    simp [fetch, hw, hc, decode, hd]

/-- Settles O4: a refused packet is one of R88 (a) to (d), each of these is refused, and the step with it. -/
theorem illegalPacketsAreRefused : Obligations.IllegalPacketsAreRefused :=
  ⟨fun _ _ hne => ⟨fun ⟨_, h⟩ => decodeCommand_error hne h, SpellsNothing.refused⟩,
    fun _ hf hw h => step_of_fetch_bad hf (fetch_of_spellsNothing hw h)⟩

end Sys2Proof.Machine

/-! SUPPORT. Proofs about the words of the wires run by themselves, and the measurement they make up (30_encoding.md
R86, R87). -/

namespace Sys2Proof.Machine

/-! ### What an operation leaves when it ends -/

/-- The end of an operation gives back the sequencer a state had before it (10_state.md R20, R41). -/
theorem endOp_of_accepting {s : State} (h : Accepting s) (t : State) : t.endOp = { t with seq := s.seq } := by
  obtain ⟨-, hseq, -⟩ := h
  rw [hseq]
  rfl

/-- A whole frame operation: the frame's events, its register, and nothing else. -/
theorem frame_endOp {s : State} (h : Accepting s) (a : RegAddr) (d : Data) :
    (frame a d s).endOp = { s with tr := s.tr ++ frameEvents a d, x := s.x.set a.toNat d } := by
  rw [endOp_of_accepting h, frame_eq]
  obtain ⟨-, -, hcs⟩ := h
  rw [← hcs]

/-- `DFRAME` in a state that is ready for it. -/
theorem exec_dframe_of_ready {s : State} (h : DisplayReady s) (a : RegAddr) (d : Data) :
    exec (.dframe a d) s = .next { s with tr := s.tr ++ frameEvents a d, x := s.x.set a.toNat d } := by
  rw [exec_dframe, whenSerialOpen_of_ready h, frame_endOp h.1]

/-- Settles O29: the frame's transfer is the document's two bytes, and its one register changes. -/
theorem dframePutsOneFrame : Obligations.DframePutsOneFrame := by
  intro s a d h
  refine ⟨_, exec_dframe_of_ready h a d, ?_, State.reg_setReg_same s a d, fun b => State.reg_setReg_other s a b d, rfl⟩
  rw [frameEvents, frameOf_eq]

section
variable {s : State} {hd : Handle} (h : SensorReady s hd)
include h

/-- `SCMD_T` in a state that is ready for it. -/
theorem exec_scmdT_of_ready : exec .scmdT s = .next { s with tr := s.tr ++ [.busCmd s.cfg.cmdTrigT] } := by
  rw [exec_scmdT, whenSensorOpen_of_ready h, endOp_of_accepting h.1]
  rfl

/-- `SCMD_RH` in a state that is ready for it. -/
theorem exec_scmdRh_of_ready : exec .scmdRh s = .next { s with tr := s.tr ++ [.busCmd s.cfg.cmdTrigRh] } := by
  rw [exec_scmdRh, whenSensorOpen_of_ready h, endOp_of_accepting h.1]
  rfl

/-- `SDATA` in a state that is ready for it. -/
theorem exec_sdata_of_ready (raw : Raw) :
    exec (.sdata raw) s = .next { s with tr := s.tr ++ [.busRead (rawHigh raw), .busRead (rawLow raw)] } := by
  rw [exec_sdata, whenSensorOpen_of_ready h, endOp_of_accepting h.1]
  simp [takeSecond, takeFirst, State.emit]

/-- The bus part of a measurement, word by word: its command byte, the settle wait, and `SDATA` of the raw value that
the two answers join to (41_sensor_engine.md R153). -/
theorem measureRaw_tr_of_wireWords {cmd : Byte} {d : State} (hlit : s.cfg.LitWf)
    (hsdata : exec (.sdata (rawOf (s.nextByte hd) (s.dropByte.nextByte hd)))
      (State.pause { s with tr := s.tr ++ [.busCmd cmd] } 100) = .next d) :
    (measureRaw hd cmd s).tr = d.tr := by
  have hready : SensorReady (State.pause { s with tr := s.tr ++ [.busCmd cmd] } 100) hd := h
  rw [exec_sdata_of_ready hready] at hsdata
  cases hsdata
  have hsettle : s.cfg.lit.tSettle = 100 := by rw [hlit]; rfl
  simp [measureRaw_tr, hsettle]

end

/-- Settles O30: each word in a ready state, the raw value's two bytes as numbers. -/
theorem busWordsPutTheirBytes : Obligations.BusWordsPutTheirBytes := by
  refine fun s hd h => ⟨exec_scmdT_of_ready h, exec_scmdRh_of_ready h, fun raw => ?_⟩
  have hhigh : rawHigh raw = BitVec.ofNat 8 (raw.toNat / 256) := by
    rw [← rawHigh_toNat, BitVec.ofNat_toNat, BitVec.setWidth_eq]
  have hlow : rawLow raw = BitVec.ofNat 8 (raw.toNat % 256) := by
    rw [← rawLow_toNat, BitVec.ofNat_toNat, BitVec.setWidth_eq]
  rw [exec_sdata_of_ready h, hhigh, hlow]

/-- A measured temperature is returned converted (41_sensor_engine.md R154). -/
theorem deliver_t_measureRaw_tr (hd : Handle) (cmd : Byte) (s : State) :
    (deliver .t (measureRaw hd cmd s)).tr = (measureRaw hd cmd s).tr ++
      [.result .t (convT s.cfg (rawOf (s.nextByte hd) (s.dropByte.nextByte hd)))] := by
  simp [deliver, measureRaw_raw]

/-- A measured humidity is returned converted (R155). -/
theorem deliver_rh_measureRaw_tr (hd : Handle) (cmd : Byte) (s : State) :
    (deliver .rh (measureRaw hd cmd s)).tr = (measureRaw hd cmd s).tr ++
      [.result .rh (convRh s.cfg (rawOf (s.nextByte hd) (s.dropByte.nextByte hd)))] := by
  simp [deliver, measureRaw_raw]

/-- Settles O31: a measurement's trace is that of its wire words and its wait, then its result. -/
theorem measurementIsItsWireWords : Obligations.MeasurementIsItsWireWords := by
  intro s t c d hd h hlit
  rw [← rawOf_eq]
  refine ⟨fun ht hc hsdata => ?_, fun ht hc hsdata => ?_⟩
  · rw [exec_scmdT_of_ready h] at hc
    rw [exec_rdtemp, whenSensorOpen_of_ready h] at ht
    cases hc
    cases ht
    rw [State.endOp_tr, deliver_t_measureRaw_tr, measureRaw_tr_of_wireWords h hlit hsdata]
  · rw [exec_scmdRh_of_ready h] at hc
    rw [exec_rdhum, whenSensorOpen_of_ready h] at ht
    cases hc
    cases ht
    rw [State.endOp_tr, deliver_rh_measureRaw_tr, measureRaw_tr_of_wireWords h hlit hsdata]

end Sys2Proof.Machine

/-! SUPPORT. Proofs about the display operations (40_display_encoder.md): each plays a list of events that depends on
the parameters and its operands alone, and its registers are those the events leave. -/

namespace Sys2Proof.Machine

/-! ### States that display events lead to -/

/-- The state display events lead to: the trace grows by them, the registers follow them (10_state.md R33, R37). -/
def State.played (s : State) (evs : List Event) : State := { s with tr := s.tr ++ evs, x := replay s.x evs }

@[simp] theorem State.played_tr (s : State) (evs : List Event) : (s.played evs).tr = s.tr ++ evs := rfl

theorem State.played_append (s : State) (evs evs' : List Event) :
    s.played (evs ++ evs') = (s.played evs).played evs' := by
  simp [State.played, replay_append]

/-- A report changes no register. -/
theorem State.played_unsupported (s : State) (c : Code) :
    s.played [.unsupported c] = { s with tr := s.tr ++ [.unsupported c] } := rfl

/-- A frame is its three events and its register. -/
theorem State.played_frame (s : State) (a : RegAddr) (d : Data) :
    s.played (frameEvents a d) = { s with tr := s.tr ++ frameEvents a d, x := s.x.set a.toNat d } := by
  rw [State.played, replay_frame]

@[simp] theorem State.played_frame_reg_same (s : State) (a : RegAddr) (d : Data) :
    (s.played (frameEvents a d)).reg a = d := by
  rw [State.played_frame]
  exact State.reg_setReg_same s a d

theorem State.played_frame_reg_other (s : State) {a b : RegAddr} (d : Data) (h : b ≠ a) :
    (s.played (frameEvents a d)).reg b = s.reg b := by
  rw [State.played_frame]
  exact State.reg_setReg_other s a b d h

/-- An operation that leaves the events of a list, their registers and something in the sequencer ends in the state the
events lead to. -/
theorem endOp_of_played {s t : State} {seq : Sequencer} {evs : List Event} (h : Accepting s)
    (ht : t = { s.played evs with seq := seq }) : t.endOp = s.played evs := by
  rw [endOp_of_accepting h, ht]
  rfl

/-! ### Lists of writes -/

theorem writeEvents_cons (w : RegAddr × Data) (ws : List (RegAddr × Data)) :
    writeEvents (w :: ws) = frameEvents w.1 w.2 ++ writeEvents ws := rfl

theorem writeEvents_append (ws ws' : List (RegAddr × Data)) :
    writeEvents (ws ++ ws') = writeEvents ws ++ writeEvents ws' := List.flatMap_append

theorem State.played_writes (s : State) (ws : List (RegAddr × Data)) :
    s.played (writeEvents ws) =
      { s with tr := s.tr ++ writeEvents ws, x := ws.foldl (fun x w => x.set w.1.toNat w.2) s.x } := by
  rw [State.played, replay_writes]

/-- Writes to registers that are all different leave in each its own value. -/
theorem State.played_writes_reg_mem {ws : List (RegAddr × Data)} (hnd : (ws.map Prod.fst).Nodup) {w : RegAddr × Data}
    (hw : w ∈ ws) (s : State) : (s.played (writeEvents ws)).reg w.1 = w.2 := by
  induction ws generalizing s with
  | nil => simp at hw
  | cons v ws ih =>
    obtain ⟨hv, hnd⟩ := List.nodup_cons.mp hnd
    rw [writeEvents_cons, State.played_append]
    rcases List.mem_cons.mp hw with rfl | hw
    · rw [State.played_writes]
      refine (writes_other ws _ w.1 fun u hu e => hv (e ▸ List.mem_map_of_mem hu)).trans ?_
      exact State.played_frame_reg_same s w.1 w.2
    · exact ih hnd hw _

theorem frameCount_append (evs evs' : List Event) : frameCount (evs ++ evs') = frameCount evs + frameCount evs' :=
  List.countP_append

theorem unsupportedCount_append (evs evs' : List Event) :
    unsupportedCount (evs ++ evs') = unsupportedCount evs + unsupportedCount evs' :=
  List.countP_append

theorem frameCount_frameEvents (a : RegAddr) (d : Data) : frameCount (frameEvents a d) = 1 := rfl

/-- Each write is one frame (40_display_encoder.md R115). -/
theorem frameCount_writeEvents (ws : List (RegAddr × Data)) : frameCount (writeEvents ws) = ws.length := by
  induction ws with
  | nil => rfl
  | cons w ws ih =>
    rw [writeEvents_cons, frameCount_append, frameCount_frameEvents, ih, List.length_cons, Nat.add_comm]

/-- The blanking leaves zero in every digit. -/
theorem State.played_clear_reg_slot (s : State) {k : Nat} (hk : k < s.cfg.lit.nSlot) :
    (s.played (writeEvents (clearWrites s.cfg))).reg (slotReg s.cfg k) = 0#DW := by
  rw [State.played_writes]
  exact clearWrites_slot s.cfg s.x hk

/-- The blanking changes digits only. -/
theorem State.played_clear_reg_other (s : State) {a : RegAddr} (ha : ∀ k < s.cfg.lit.nSlot, a ≠ slotReg s.cfg k) :
    (s.played (writeEvents (clearWrites s.cfg))).reg a = s.reg a := by
  rw [State.played_writes]
  exact clearWrites_other s.cfg s.x a ha

/-- `INIT` plays the configuration, then the blanking. -/
theorem State.played_init (s : State) :
    s.played (writeEvents (initWrites s.cfg)) =
      (s.played (writeEvents (configWrites s.cfg))).played (writeEvents (clearWrites s.cfg)) := by
  rw [← State.played_append, ← writeEvents_append]
  rfl

/-! ### What each display operation plays -/

section
variable {s : State} (h : DisplayReady s)
include h

/-- No frame is open before a display operation (R110). -/
theorem cs_of_ready : s.cs = .released := h.1.2.2

/-- `WREG` plays its frame (R113). -/
theorem exec_wreg_of_ready (a : RegAddr) (d : Data) : exec (.wreg a d) s = .next (s.played (frameEvents a d)) := by
  rw [exec_wreg, whenSerialOpen_of_ready h, frame_endOp h.1, State.played_frame]

/-- `RCHAR` plays the events of its slot (R117). -/
theorem exec_rchar_of_ready (k : Slot) (c : Code) (dp : Bool) :
    exec (.rchar k c dp) s = .next (s.played (slotEvents s.cfg k.toNat (c, dp))) := by
  obtain ⟨seq, -, -, -, e⟩ := render_eq k.toNat c dp s (cs_of_ready h)
  have hplayed : render k.toNat c dp s = { s.played (slotEvents s.cfg k.toNat (c, dp)) with seq := seq } := by
    rw [e, State.played, replay_slot]
  rw [exec_rchar, whenSerialOpen_of_ready h, endOp_of_played h.1 hplayed]

/-- `RSTR` plays the events of its text (R123). -/
theorem exec_rstr_of_ready (text : List Code) : exec (.rstr text) s = .next (s.played (textEvents s.cfg text)) := by
  obtain ⟨seq, e⟩ := showText_eq text s (cs_of_ready h)
  have hplayed : forSlots renderNext (latchText text s) = { s.played (textEvents s.cfg text) with seq := seq } := by
    rw [e, State.played, textEvents, replay_slots]
  rw [exec_rstr, whenSerialOpen_of_ready h, endOp_of_played h.1 hplayed]

/-- `CLEAR` plays the blanking (R130). -/
theorem exec_clear_of_ready : exec .clear s = .next (s.played (writeEvents (clearWrites s.cfg))) := by
  obtain ⟨seq, e⟩ := blankDigits_eq s (cs_of_ready h)
  have hplayed : blankDigits s = { s.played (writeEvents (clearWrites s.cfg)) with seq := seq } := by
    rw [e, State.played_writes]
  rw [exec_clear, whenSerialOpen_of_ready h, endOp_of_played h.1 hplayed]

/-- `INIT` plays its thirteen frames (R111). -/
theorem exec_init_of_ready : exec .init s = .next (s.played (writeEvents (initWrites s.cfg))) := by
  obtain ⟨seq, hconf⟩ := configure_eq s (cs_of_ready h)
  obtain ⟨seq', hblank⟩ := blankDigits_eq (configure s) (configure_keeps (cs_of_ready h)).2
  have hplayed :
      blankDigits (configure s) = { s.played (writeEvents (initWrites s.cfg)) with seq := seq' } := by
    rw [State.played_init, State.played_writes s, State.played_writes, hblank, hconf]
  rw [exec_init, whenSerialOpen_of_ready h, endOp_of_played h.1 hplayed]

end

/-! ### The state in which no display operation runs -/

theorem whenSerialOpen_of_closed {s : State} (h : Accepting s) (hser : s.ser = none) (k) :
    whenSerialOpen s k = .refused .serialNotOpen := by
  rw [whenSerialOpen, whenAccepted_of_accepting h, hser]
  rfl

/-- A state that is not ready answers every display operation alike: it ignores it, is busy, or refuses it. -/
theorem whenSerialOpen_of_not_ready {s : State} (h : ¬ DisplayReady s) (k k' : State → State) :
    whenSerialOpen s k = whenSerialOpen s k' := by
  by_cases hf : s.fatal.isSome
  · rw [whenSerialOpen, whenSerialOpen, whenAccepted_of_fatal hf, whenAccepted_of_fatal hf]
  have hf : s.fatal = none := by simpa using hf
  by_cases hq : s.quiet = true
  · have ha : Accepting s := ⟨hf, s.quiet_iff.mp hq⟩
    have hser : s.ser = none := by_contra fun hser => h ⟨ha, hser⟩
    rw [whenSerialOpen_of_closed ha hser, whenSerialOpen_of_closed ha hser]
  · have hq : s.quiet = false := by simpa using hq
    rw [whenSerialOpen, whenSerialOpen, whenAccepted_of_busy hf hq, whenAccepted_of_busy hf hq]

/-- Settles O20: each of the six begins with the test of the serial channel. -/
theorem displayRefusedWhileSerialClosed : Obligations.DisplayRefusedWhileSerialClosed := by
  intro s i h hser hi
  have refused := whenSerialOpen_of_closed h hser
  rcases hi with rfl | ⟨a, d, rfl⟩ | ⟨k, c, dp, rfl⟩ | ⟨text, rfl⟩ | rfl | ⟨a, d, rfl⟩
  · exact (exec_init s).trans (refused _)
  · exact (exec_wreg a d s).trans (refused _)
  · exact (exec_rchar k c dp s).trans (refused _)
  · exact (exec_rstr text s).trans (refused _)
  · exact (exec_clear s).trans (refused _)
  · exact (exec_dframe a d s).trans (refused _)

/-! ### WREG, CLEAR and INIT -/

/-- Settles O8: `WREG` plays one frame, whose transfer is the document's two bytes. -/
theorem wregWritesOneRegister : Obligations.WregWritesOneRegister := by
  intro s a d h
  refine ⟨_, exec_wreg_of_ready h a d, ?_, State.played_frame_reg_same s a d,
    fun b => State.played_frame_reg_other s d, rfl⟩
  rw [State.played_tr, frameEvents, frameOf_eq]

/-- Settles O11: `CLEAR` plays the blanking writes. -/
theorem clearZeroesTheDigits : Obligations.ClearZeroesTheDigits := by
  intro s h hlit
  refine ⟨_, exec_clear_of_ready h, rfl, ?_, fun k => State.played_clear_reg_slot s,
    fun a => State.played_clear_reg_other s, rfl⟩
  rw [frameCount_writeEvents, clearWrites_document hlit]
  rfl

/-- The digits are blanked last, whatever the configuration registers are. -/
theorem State.played_init_reg_slot (s : State) {k : Nat} (hk : k < s.cfg.lit.nSlot) :
    (s.played (writeEvents (initWrites s.cfg))).reg (slotReg s.cfg k) = 0#DW := by
  rw [State.played_init]
  exact State.played_clear_reg_slot (s.played (writeEvents (configWrites s.cfg))) hk

/-- Settles O10: the digits are written last. -/
theorem initBlanksUnderAnyParameters : Obligations.InitBlanksUnderAnyParameters :=
  fun s h _ => ⟨_, exec_init_of_ready h, rfl, fun _ => State.played_init_reg_slot s, rfl⟩

theorem nSlot_document {cfg : Config} (h : cfg.LitWf) : cfg.lit.nSlot = 8 := by
  rw [h]
  rfl

/-- The document's digit registers are those R10 keeps apart from the configuration registers. -/
theorem configRegs_ne_slotReg {cfg : Config} (hlit : cfg.LitWf) (hregs : cfg.RegsWf) {r : RegAddr}
    (hr : r ∈ cfg.configRegs) {k : Nat} (hk : k < cfg.lit.nSlot) : r ≠ slotReg cfg k := by
  rintro rfl
  have hdigit := hregs.2 _ hr
  simp only [slotReg_document hlit, BitVec.toNat_ofNat, two_pow_aw, hlit, Literals.document] at hdigit hk
  omega

/-- A register that is no digit holds after `INIT` what the configuration left in it. -/
theorem State.played_init_reg_other (s : State) {a : RegAddr} (ha : ∀ k < s.cfg.lit.nSlot, a ≠ slotReg s.cfg k) :
    (s.played (writeEvents (initWrites s.cfg))).reg a = (s.played (writeEvents (configWrites s.cfg))).reg a := by
  rw [State.played_init]
  exact State.played_clear_reg_other (s.played (writeEvents (configWrites s.cfg))) ha

/-- The configuration registers keep what the configuration wrote to them, if they are different and no digits (R10). -/
theorem State.played_init_reg_config {s : State} (hlit : s.cfg.LitWf) (hregs : s.cfg.RegsWf) :
    ∀ w ∈ configWrites s.cfg, (s.played (writeEvents (initWrites s.cfg))).reg w.1 = w.2 := by
  intro w hw
  have hr : w.1 ∈ s.cfg.configRegs := configWrites_regs s.cfg ▸ List.mem_map_of_mem hw
  rw [State.played_init_reg_other s fun _ => configRegs_ne_slotReg hlit hregs hr]
  exact State.played_writes_reg_mem (configWrites_regs s.cfg ▸ hregs.1) hw s

/-- Settles O9: the configuration registers keep their values, the digits are blanked last, no other is reached. -/
theorem initWritesThirteenFrames : Obligations.InitWritesThirteenFrames := by
  intro s h hlit hregs
  have hconf := State.played_init_reg_config hlit hregs
  simp only [configWrites, List.forall_mem_cons] at hconf
  obtain ⟨hdecode, hscan, hintensity, hmode, htest, -⟩ := hconf
  refine ⟨_, exec_init_of_ready h, rfl, ?_, hdecode, hscan, hintensity, hmode, htest,
    fun _ => State.played_init_reg_slot s, fun a hother hdigit => ?_, rfl⟩
  · rw [frameCount_writeEvents, initWrites, clearWrites_document hlit]
    rfl
  · have hslot (k : Slot) : a ≠ slotReg s.cfg k.toNat := hdigit _ (nSlot_document hlit ▸ k.isLt)
    exact onlyWregReachesOtherRegisters .init s _ a (exec_init_of_ready h) hdigit hslot nofun nofun fun _ => hother

/-! ### RCHAR -/

/-- A supported character's slot gives one frame. -/
theorem slotEvents_of_glyph {cfg : Config} {c : Code} {p : Data} (h : cfg.glyph c = some p) (k : Nat) (dp : Bool) :
    slotEvents cfg k (c, dp) = frameEvents (slotReg cfg k) (if dp then p ||| cfg.dpBit else p) := by
  simp [slotEvents, h]

/-- An unsupported character's slot gives one report. -/
theorem slotEvents_of_unsupported {cfg : Config} {c : Code} (h : cfg.glyph c = none) (k : Nat) (dp : Bool) :
    slotEvents cfg k (c, dp) = [.unsupported c] := by
  simp [slotEvents, h]

/-- Settles O12, by whether the font has the character. -/
theorem rcharWritesOrReports : Obligations.RcharWritesOrReports := by
  refine fun s k c dp h hlit => ⟨fun p hp => ?_, fun hnone => ?_⟩
  · rw [exec_rchar_of_ready h, slotEvents_of_glyph hp, slotReg_document hlit]
    refine ⟨_, rfl, ?_, State.played_frame_reg_same _ _ _, fun b => State.played_frame_reg_other _ _, rfl⟩
    rw [State.played_tr, frameEvents, frameOf_eq]
  · rw [exec_rchar_of_ready h, slotEvents_of_unsupported hnone, State.played_unsupported]

/-- The period is in no font (10_state.md R23 (b)). -/
theorem slotEvents_period {cfg : Config} (h : cfg.FontWf) (k : Nat) (dp : Bool) :
    slotEvents cfg k (cfg.period, dp) = [.unsupported cfg.period] := by
  obtain ⟨-, -, -, hperiod, -⟩ := h
  exact slotEvents_of_unsupported hperiod k dp

/-- The space is blank in every font (10_state.md R23 (a)): it shows nothing, or a lone point. -/
theorem slotEvents_space {cfg : Config} (h : cfg.FontWf) (k : Nat) (dp : Bool) :
    slotEvents cfg k (cfg.space, dp) = frameEvents (slotReg cfg k) (if dp then cfg.dpBit else 0#DW) := by
  obtain ⟨-, -, hspace, -⟩ := h
  rw [slotEvents_of_glyph hspace, BitVec.zero_or]

/-- Settles O13: the period has no pattern, the space a blank one. -/
theorem rcharPeriodAndSpace : Obligations.RcharPeriodAndSpace := by
  refine fun s k h hwf => ⟨fun dp => ?_, ?_, ?_⟩
  · rw [exec_rchar_of_ready h, slotEvents_period hwf.font, State.played_unsupported]
  all_goals
    rw [exec_rchar_of_ready h, slotEvents_space hwf.font]
    exact ⟨_, rfl, rfl, State.played_frame_reg_same _ _ _⟩

/-! ### RSTR -/

/-- A text leaves in each digit its unit's pattern, or what it held. -/
theorem State.played_text_reg_slot (s : State) (text : List Code) (hlit : s.cfg.LitWf) {k : Nat}
    (hk : k < s.cfg.lit.nSlot) :
    (s.played (textEvents s.cfg text)).reg (slotReg s.cfg k) =
      match s.cfg.glyph (unitAt s.cfg text k).1 with
      | some p => if (unitAt s.cfg text k).2 then p ||| s.cfg.dpBit else p
      | none => s.reg (slotReg s.cfg k) := by
  rw [State.played, textEvents, replay_slots]
  refine showAll_slot s.cfg (unitAt s.cfg text) (allSlots s.cfg) ?_ ?_ s.x k (mem_allSlots.mpr hk)
  all_goals
    rw [allSlots_document hlit]
    decide

/-- Settles O14: `RSTR` plays the events of its text, which leave each digit as its unit says. -/
theorem rstrShowsTheUnits : Obligations.RstrShowsTheUnits := by
  refine fun s text h hlit => ⟨_, exec_rstr_of_ready h text, rfl, fun k => State.played_text_reg_slot s text hlit,
    fun a ha => ?_, rfl⟩
  rw [State.played, textEvents, replay_slots]
  exact showAll_other _ _ _ _ _ fun k hk => ha k (mem_allSlots.mp hk)

/-- A slot gives one frame or one report (R123). -/
theorem slotEvents_count (cfg : Config) (k : Nat) (u : Code × Bool) :
    frameCount (slotEvents cfg k u) + unsupportedCount (slotEvents cfg k u) = 1 := by
  unfold slotEvents
  split <;> rfl

/-- Slots give as many frames and reports together as there are slots. -/
theorem slotsEvents_count (cfg : Config) (f : Nat → Code × Bool) (ks : List Nat) :
    frameCount (ks.flatMap fun k => slotEvents cfg k (f k)) +
      unsupportedCount (ks.flatMap fun k => slotEvents cfg k (f k)) = ks.length := by
  induction ks with
  | nil => rfl
  | cons k ks ih =>
    have hk := slotEvents_count cfg k (f k)
    rw [List.flatMap_cons, frameCount_append, unsupportedCount_append, List.length_cons]
    omega

/-- Settles O15: each of the eight slots gives one frame or one report. -/
theorem rstrFramesAndReportsAreEight : Obligations.RstrFramesAndReportsAreEight := by
  intro s t text h hlit ht
  rw [exec_rstr_of_ready h] at ht
  cases ht
  refine ⟨textEvents s.cfg text, rfl, ?_⟩
  rw [textEvents, slotsEvents_count, allSlots_document hlit]
  rfl

/-! ### Exhausted text -/

theorem unitAt_of_exhausted {cfg : Config} {text : List Code} {k : Nat} (h : (units cfg text).length ≤ k) :
    unitAt cfg text k = (cfg.space, false) := by
  rw [unitAt, List.getElem?_eq_none h]
  rfl

/-- The blank frames from a slot on, slot by slot. -/
theorem blanksFrom_eq (cfg : Config) (n : Nat) :
    blanksFrom cfg n = ((allSlots cfg).drop n).flatMap fun k => frameEvents (slotReg cfg k) 0#DW := by
  rw [blanksFrom, clearWrites, ← List.map_drop, writeEvents, List.flatMap_map]

/-- The events of a text of at most `n` units: those of the slots below `n`, then blank frames (R124). -/
theorem textEvents_of_exhausted {cfg : Config} (hfont : cfg.FontWf) {text : List Code} {n : Nat}
    (hn : (units cfg text).length ≤ n) :
    textEvents cfg text =
      ((allSlots cfg).take n).flatMap (fun k => slotEvents cfg k (unitAt cfg text k)) ++ blanksFrom cfg n := by
  have hblank : ((allSlots cfg).drop n).flatMap (fun k => slotEvents cfg k (unitAt cfg text k)) = blanksFrom cfg n := by
    rw [blanksFrom_eq]
    refine List.flatMap_congr fun k hk => ?_
    rw [allSlots, List.range_eq_range', List.drop_range'] at hk
    have hnk : n ≤ k := by simpa using (List.mem_range'_1.mp hk).1
    rw [unitAt_of_exhausted (hn.trans hnk), slotEvents_space hfont]
    rfl
  rw [← hblank, ← List.flatMap_append, List.take_append_drop, textEvents]

/-- Settles O16: an exhausted slot shows the space, which is blank. -/
theorem rstrBlanksExhaustedSlots : Obligations.RstrBlanksExhaustedSlots := by
  refine fun s h hwf => ⟨?_, fun text k hk hlen => ⟨_, exec_rstr_of_ready h text, ?_⟩⟩
  · have hempty : textEvents s.cfg [] = writeEvents (clearWrites s.cfg) :=
      textEvents_of_exhausted hwf.font (n := 0) le_rfl
    rw [exec_rstr_of_ready h, exec_clear_of_ready h, hempty]
  · obtain ⟨-, -, hspace, -⟩ := hwf.font
    rw [State.played_text_reg_slot s text hwf.lit hk, unitAt_of_exhausted hlen]
    simp [hspace]

/-! ### Truncation -/

/-- `n` units are spelled by at most `2 * n` characters (R126). -/
theorem units_take (cfg : Config) {n m : Nat} (h : 2 * n ≤ m) (text : List Code) :
    (units cfg (text.take m)).take n = (units cfg text).take n := by
  induction n generalizing m text with
  | zero => simp
  | succ n ih =>
    obtain ⟨m, rfl⟩ := Nat.exists_eq_add_of_le' (show 2 ≤ m by omega)
    cases text with
    | nil => simp
    | cons c rest =>
      have hhead : (rest.take (m + 1)).head? = rest.head? := by simp [List.head?_take]
      rw [List.take_succ_cons, units_cons, units_cons, hhead]
      split_ifs
      · rw [List.take_succ_cons, List.take_succ_cons, List.tail_take_eq_take_tail, ih (by omega)]
      · rw [List.take_succ_cons, List.take_succ_cons, ih (by omega)]

/-- A text's events depend on as many units as there are slots. -/
theorem textEvents_congr {cfg : Config} {text text' : List Code}
    (h : (units cfg text).take cfg.lit.nSlot = (units cfg text').take cfg.lit.nSlot) :
    textEvents cfg text = textEvents cfg text' := by
  refine List.flatMap_congr fun k hk => ?_
  have hk := mem_allSlots.mp hk
  have hunit := congrArg (fun us => us[k]?) h
  simp only [List.getElem?_take_of_lt hk] at hunit
  rw [unitAt, unitAt, hunit]

/-- Texts of the same events are the same operation, in every state. -/
theorem exec_rstr_congr {s : State} {text text' : List Code} (h : textEvents s.cfg text = textEvents s.cfg text') :
    exec (.rstr text) s = exec (.rstr text') s := by
  by_cases hready : DisplayReady s
  · rw [exec_rstr_of_ready hready, exec_rstr_of_ready hready, h]
  · rw [exec_rstr, exec_rstr, whenSerialOpen_of_not_ready hready]

/-- Settles O17: eight units are all that is shown, and sixteen characters spell them. -/
theorem rstrIgnoresExcessText : Obligations.RstrIgnoresExcessText := by
  have eight {s : State} (hlit : s.cfg.LitWf) {text text' : List Code}
      (h : (units s.cfg text).take 8 = (units s.cfg text').take 8) : exec (.rstr text) s = exec (.rstr text') s := by
    refine exec_rstr_congr (textEvents_congr ?_)
    rwa [nSlot_document hlit]
  exact ⟨fun s text hlit => eight hlit (units_take s.cfg (by decide) text).symm, fun s _ _ hlit => eight hlit⟩

/-! ### Stray periods -/

/-- A slot whose unit is a period keeps its content. -/
theorem State.played_text_reg_period {s : State} {text : List Code} {k : Nat} {dp : Bool} (hwf : s.cfg.Wf)
    (hk : k < 8) (hunit : unitAt s.cfg text k = (s.cfg.period, dp)) :
    (s.played (textEvents s.cfg text)).reg (slotReg s.cfg k) = s.reg (slotReg s.cfg k) := by
  obtain ⟨-, -, -, hperiod, -⟩ := hwf.font
  have hslot : k < s.cfg.lit.nSlot := nSlot_document hwf.lit ▸ hk
  rw [State.played_text_reg_slot s text hwf.lit hslot, hunit]
  simp [hperiod]

/-- The events of as many slots as there are units, each showing its unit (R123). -/
def unitsEvents (cfg : Config) (us : List (Code × Bool)) : List Event :=
  ((allSlots cfg).take us.length).flatMap fun k => slotEvents cfg k ((us[k]?).getD (cfg.space, false))

/-- The events of a text are those of its units, then blank frames. -/
theorem textEvents_of_units {cfg : Config} (hfont : cfg.FontWf) {text : List Code} {us : List (Code × Bool)}
    (hunits : units cfg text = us) : textEvents cfg text = unitsEvents cfg us ++ blanksFrom cfg us.length := by
  rw [textEvents_of_exhausted hfont (n := us.length) (by rw [hunits])]
  simp only [unitAt, hunits, unitsEvents]

/-- Settles O18: the units of each text, and so its events; the slot that a period costs has a period as its unit. -/
theorem rstrStrayPeriods : Obligations.RstrStrayPeriods := by
  intro s h hwf p u after
  have hslots := allSlots_document hwf.lit
  have hreport (k : Nat) (dp : Bool) : slotEvents s.cfg k (p, dp) = [u] := slotEvents_period hwf.font k dp
  have shown {text : List Code} {us : List (Code × Bool)} {evs : List Event} {k : Nat} {dp : Bool}
      (hunits : units s.cfg text = us) (hk : k < 8) (hperiod : us[k]? = some (p, dp))
      (hevs : unitsEvents s.cfg us ++ blanksFrom s.cfg us.length = evs) : after text evs k := by
    have hunit : unitAt s.cfg text k = (p, dp) := by rw [unitAt, hunits, hperiod, Option.getD_some]
    refine ⟨_, exec_rstr_of_ready h text, ?_, State.played_text_reg_period hwf hk hunit⟩
    rw [State.played_tr, textEvents_of_units hwf.font hunits, hevs]
  refine ⟨fun c hc => ?_, fun a c hc => ?_, ?_, fun a => ?_, ?_⟩
  · have hunits : units s.cfg [p, c] = [(p, false), (c, false)] := by simp [units, hc, p]
    exact shown hunits (by decide) rfl (by simp [unitsEvents, hslots, hreport])
  · have hunits : units s.cfg [a, p, p, c] = [(a, true), (p, false), (c, false)] := by simp [units, hc, p]
    exact shown hunits (by decide) rfl (by simp [unitsEvents, hslots, hreport])
  · have hunits : units s.cfg [p, p] = [(p, true)] := by simp [units, p]
    exact shown hunits (by decide) rfl (by simp [unitsEvents, hslots, hreport])
  · have hunits : units s.cfg [a, p, p, p] = [(a, true), (p, true)] := by simp [units, p]
    exact shown hunits (by decide) rfl (by simp [unitsEvents, hslots, hreport])
  · have hunits : units s.cfg [p] = [(p, false)] := by simp [units]
    exact shown hunits (by decide) rfl (by simp [unitsEvents, hslots, hreport])

end Sys2Proof.Machine

/-! SUPPORT. Proofs about the sensor operations (41_sensor_engine.md R150 to R156, R163): what the session's handle
decides, a whole measurement, what each driver leaves to the other, and the readings the host takes of them. -/

namespace Sys2Proof.Machine

/-! ### The tests of the session's handle -/

theorem whenSensorOpen_of_none {s : State} (h : Accepting s) (hsh : s.sh = none) (k) :
    whenSensorOpen s k = .refused .sensorNotOpen := by
  rw [whenSensorOpen, whenAccepted_of_accepting h, hsh]

theorem whenSensorClosed_of_some {s : State} (h : Accepting s) (hsh : s.sh ≠ none) (k) :
    whenSensorClosed s k = .refused .sensorAlreadyOpen := by
  rw [whenSensorClosed, whenAccepted_of_accepting h, if_pos (Option.isSome_iff_ne_none.mpr hsh)]

/-- Settles O22: each measurement and bus word begins with one test of the handle, `SOPEN` with the other. -/
theorem sensorRefusedByItsHandle : Obligations.SensorRefusedByItsHandle := by
  refine fun s h => ⟨fun hsh => ?_, fun hsh addr => ?_⟩
  · have refused := whenSensorOpen_of_none h hsh
    exact ⟨(exec_rdtemp s).trans (refused _), (exec_rdhum s).trans (refused _), (exec_scmdT s).trans (refused _),
      (exec_scmdRh s).trans (refused _), fun raw => (exec_sdata raw s).trans (refused _)⟩
  · exact (exec_sopen addr s).trans (whenSensorClosed_of_some h hsh _)

/-! ### SOPEN -/

/-- A handle that is not negative is recorded and kept (41_sensor_engine.md R151). -/
theorem openSession_of_nonneg {s : State} {addr : Byte} (h : 0 ≤ s.nextBusHandle addr) :
    openSession addr s = { s with
      sh := some (s.nextBusHandle addr)
      tr := s.tr ++ [.busOpen addr (s.nextBusHandle addr)]
      env := s.dropBusHandle.env } := by
  have hok : handleFailed (s.nextBusHandle addr) = false := decide_eq_false (not_lt.mpr h)
  rw [openSession, hok]
  rfl

/-- A negative handle is recorded and stops the host (R152). -/
theorem openSession_of_neg {s : State} {addr : Byte} (h : s.nextBusHandle addr < 0) :
    openSession addr s = { s with
      fatal := some .bus
      hs := .stopped
      tr := s.tr ++ [.busOpen addr (s.nextBusHandle addr), .diag .busInitError, .fatal s.cfg.lit.exitBus,
        .exit s.cfg.lit.exitBus]
      env := s.dropBusHandle.env } := by
  have hfailed : handleFailed (s.nextBusHandle addr) = true := decide_eq_true h
  simp [openSession, hfailed, State.emit, State.dropBusHandle]

theorem exec_sopen_of_closed {s : State} (h : SessionClosed s) (addr : Byte) :
    exec (.sopen addr) s = .next { openSession addr s with seq := s.seq } := by
  rw [exec_sopen, whenSensorClosed_of_closed h, endOp_of_accepting h.1]

/-- Settles O21, by the sign of the handle. -/
theorem sopenKeepsTheHandleOrStops : Obligations.SopenKeepsTheHandleOrStops := by
  refine fun s addr h hlit => ⟨fun hpos => ?_, fun hneg => ?_⟩
  · rw [exec_sopen_of_closed h, openSession_of_nonneg hpos]
  · have hexit : s.cfg.lit.exitBus = 2 := by rw [hlit]; rfl
    rw [exec_sopen_of_closed h, openSession_of_neg hneg, hexit]

/-! ### The measurements -/

/-- The conversion of a kind of measurement (R154, R155). -/
def converted (cfg : Config) : Kind → Raw → Binary64
  | .t => convT cfg
  | .rh => convRh cfg

theorem deliver_eq (kind : Kind) (s : State) :
    deliver kind s = s.emit (.result kind (converted s.cfg kind (s.seq.raw.getD 0#RAW_W))) := by
  cases kind <;> rfl

/-- A whole measurement: its five events, two answers consumed, and nothing else (R153 to R156, R163). -/
theorem measure_endOp {s : State} (h : Accepting s) (hlit : s.cfg.LitWf) (kind : Kind) (hd : Handle) (cmd : Byte) :
    (deliver kind (measureRaw hd cmd s)).endOp =
      { s with
        tr := s.tr ++ [.busCmd cmd, .wait 100, .busRead (s.nextByte hd), .busRead (s.dropByte.nextByte hd),
          .result kind (converted s.cfg kind (s.nextByte hd ++ s.dropByte.nextByte hd))]
        env := s.dropByte.dropByte.env } := by
  have hsettle : s.cfg.lit.tSettle = 100 := by rw [hlit]; rfl
  rw [endOp_of_accepting h, deliver_eq, measureRaw_raw, measureRaw_cfg, measureRaw_eq, hsettle]
  simp [State.emit, rawOf_eq]

/-- Settles O23: `RDTEMP` is a whole measurement of the temperature. -/
theorem rdtempMeasuresAndConverts : Obligations.RdtempMeasuresAndConverts := by
  intro s hd h hlit b0 b1
  rw [exec_rdtemp, whenSensorOpen_of_ready h, measure_endOp h.1 hlit]
  rfl

/-- Settles O24: `RDHUM` is a whole measurement of the humidity. -/
theorem rdhumMeasuresAndConverts : Obligations.RdhumMeasuresAndConverts := by
  intro s hd h hlit b0 b1
  rw [exec_rdhum, whenSensorOpen_of_ready h, measure_endOp h.1 hlit]
  rfl

/-! ### Each driver keeps to its transport -/

/-- What a sensor operation leaves alone: the display registers, the chip-select and the serial channel (R150). -/
def KeepsDisplaySide (s t : State) : Prop := t.x = s.x ∧ t.cs = s.cs ∧ t.ser = s.ser

/-- What a display operation leaves alone: the session, the environment's answers, the latch and the host's state
(10_state.md R29, 20_memory.md R52). -/
def KeepsSensorSide (s t : State) : Prop := t.sh = s.sh ∧ t.env = s.env ∧ t.fatal = s.fatal ∧ t.hs = s.hs

theorem whenSensorOpen_keepsDisplaySide {s t : State} {k : Handle → State → State}
    (h : whenSensorOpen s k = .next t) (hk : ∀ hd, KeepsDisplaySide s (k hd s)) : KeepsDisplaySide s t := by
  obtain ⟨-, rfl⟩ | ⟨hd, -, rfl⟩ := whenSensorOpen_next h
  · exact ⟨rfl, rfl, rfl⟩
  · exact hk hd

theorem measureRaw_keepsDisplaySide (hd : Handle) (cmd : Byte) (s : State) :
    KeepsDisplaySide s (measureRaw hd cmd s) := by
  refine ⟨?_, ?_, ?_⟩ <;> rw [measureRaw_eq]

theorem measure_keepsDisplaySide (kind : Kind) (hd : Handle) (cmd : Byte) (s : State) :
    KeepsDisplaySide s (deliver kind (measureRaw hd cmd s)).endOp := by
  rw [deliver_eq]
  exact measureRaw_keepsDisplaySide hd cmd s

theorem openSession_keepsDisplaySide (addr : Byte) (s : State) : KeepsDisplaySide s (openSession addr s).endOp := by
  rcases le_or_gt 0 (s.nextBusHandle addr) with h | h
  · rw [openSession_of_nonneg h]
    exact ⟨rfl, rfl, rfl⟩
  · rw [openSession_of_neg h]
    exact ⟨rfl, rfl, rfl⟩

/-- A display operation plays its events, or nothing after a fatal stop. -/
theorem whenSerialOpen_keepsSensorSide {s t : State} {k : State → State} {evs : List Event}
    (h : whenSerialOpen s k = .next t) (hk : DisplayReady s → whenSerialOpen s k = .next (s.played evs)) :
    KeepsSensorSide s t := by
  obtain ⟨-, rfl⟩ | ⟨hready, -⟩ := whenSerialOpen_next h
  · exact ⟨rfl, rfl, rfl, rfl⟩
  · cases h.symm.trans (hk hready)
    exact ⟨rfl, rfl, rfl, rfl⟩

/-- Settles O39, operation by operation: a sensor operation is a measurement, an opening or bus events; a display
operation plays its events, `DFRAME` those of `WREG`. -/
theorem driversKeepToTheirTransports : Obligations.DriversKeepToTheirTransports := by
  refine fun i s t h => ⟨fun hi => ?sensor, fun hi => ?display⟩
  case sensor =>
    change KeepsDisplaySide s t
    rcases hi with ⟨addr, rfl⟩ | rfl | rfl | rfl | rfl | ⟨raw, rfl⟩
    · rw [exec_sopen] at h
      obtain ⟨-, rfl⟩ | ⟨-, rfl⟩ := whenSensorClosed_next h
      · exact ⟨rfl, rfl, rfl⟩
      · exact openSession_keepsDisplaySide addr s
    · rw [exec_rdtemp] at h
      exact whenSensorOpen_keepsDisplaySide h fun hd => measure_keepsDisplaySide .t hd s.cfg.cmdTrigT s
    · rw [exec_rdhum] at h
      exact whenSensorOpen_keepsDisplaySide h fun hd => measure_keepsDisplaySide .rh hd s.cfg.cmdTrigRh s
    · rw [exec_scmdT] at h
      exact whenSensorOpen_keepsDisplaySide h fun _ => ⟨rfl, rfl, rfl⟩
    · rw [exec_scmdRh] at h
      exact whenSensorOpen_keepsDisplaySide h fun _ => ⟨rfl, rfl, rfl⟩
    · rw [exec_sdata] at h
      exact whenSensorOpen_keepsDisplaySide h fun _ => ⟨rfl, rfl, rfl⟩
  case display =>
    change KeepsSensorSide s t
    rcases hi with rfl | ⟨a, d, rfl⟩ | ⟨k, c, dp, rfl⟩ | ⟨text, rfl⟩ | rfl | ⟨a, d, rfl⟩
    · rw [exec_init] at h
      exact whenSerialOpen_keepsSensorSide h exec_init_of_ready
    · rw [exec_wreg] at h
      exact whenSerialOpen_keepsSensorSide h (exec_wreg_of_ready · a d)
    · rw [exec_rchar] at h
      exact whenSerialOpen_keepsSensorSide h (exec_rchar_of_ready · k c dp)
    · rw [exec_rstr] at h
      exact whenSerialOpen_keepsSensorSide h (exec_rstr_of_ready · text)
    · rw [exec_clear] at h
      exact whenSerialOpen_keepsSensorSide h exec_clear_of_ready
    · rw [exec_dframe] at h
      exact whenSerialOpen_keepsSensorSide h (exec_wreg_of_ready · a d)

/-! ### The host's readings -/

/-- A result at the end of the trace is what its measurement returned (R154, R155). -/
theorem returned_of_getLast {kind : Kind} {v : Binary64} {tr : List Event}
    (h : tr.getLast? = some (.result kind v)) : returned kind tr = some v := by
  simp [returned, h]

/-- With both readings the host hands over the packet of their text and drops them (42_host_sequence.md R186, R189). -/
theorem display_of_readings {s : State} {t h : Binary64} (ht : s.hostT = some t) (hh : s.hostH = some h) :
    display s = dropReadings (handOver (.rstr (displayText s.cfg t h)) s) := by
  rw [display, ht, hh]

/-- Settles O54: the host's next action is a step, and each of the three actions is what its equation says. -/
theorem hostReadingsAreFresh : Obligations.HostReadingsAreFresh := by
  refine ⟨fun s h => step_of_hostNext h, fun s h => step_of_hostNext h, fun _ _ _ h => returned_of_getLast h,
    fun s t h hnext ht hh => ?_⟩
  have ⟨_, _, hcmd, _⟩ := hnext
  rw [step_of_hostNext hnext, hostAct, display_of_readings (s := { s with hpos := s.hpos + 1 }) ht hh]
  simp [dropReadings, handOver, displayText, textMax, lenMax, hcmd]

end Sys2Proof.Machine

/-! SUPPORT. Proofs about the two conversions (41_sensor_engine.md R157 to R159, R162): the humidity's evaluation rounds
nothing, and the temperature's three roundings and two rounded literals stay within 10^-13 of the exact value. -/

namespace Sys2Proof.Machine

/-! ### The literals and the raw value -/

theorem kDiv_value : value64 Literals.document.kDiv = 65536 := by
  have h : ratioOf Literals.document.kDiv = ⟨false, 2 ^ 52, 2 ^ 36⟩ := by decide
  norm_num [value64, h, Ratio.signed]

theorem kRhMul_value : value64 Literals.document.kRhMul = 125 := by
  have h : ratioOf Literals.document.kRhMul = ⟨false, 125 * 2 ^ 46, 2 ^ 46⟩ := by decide
  norm_num [value64, h, Ratio.signed]

theorem kRhOff_value : value64 Literals.document.kRhOff = 6 := by
  have h : ratioOf Literals.document.kRhOff = ⟨false, 6 * 2 ^ 50, 2 ^ 50⟩ := by decide
  norm_num [value64, h, Ratio.signed]

/-- 175.72 is off by at most half of its last place (41_sensor_engine.md R158, K1). -/
theorem kTMul_near : |value64 Literals.document.kTMul - 4393 / 25| ≤ 1 / 2 ^ 46 := by
  have h : ratioOf Literals.document.kTMul = ⟨false, 0x15F70A3D70A3D7, 2 ^ 45⟩ := by decide
  norm_num [value64, h, Ratio.signed, abs_le]

/-- 46.85 is off by at most half of its last place (R158, K2). -/
theorem kTOff_near : |value64 Literals.document.kTOff - 937 / 20| ≤ 1 / 2 ^ 48 := by
  have h : ratioOf Literals.document.kTOff = ⟨false, 0x176CCCCCCCCCCD, 2 ^ 47⟩ := by decide
  norm_num [value64, h, Ratio.signed, abs_le]

theorem raw_le (raw : Raw) : (raw.toNat : ℚ) ≤ 65535 := by
  exact_mod_cast Nat.le_of_lt_succ raw.isLt

theorem raw_zero_or_one_le (raw : Raw) : (raw.toNat : ℚ) = 0 ∨ 1 ≤ (raw.toNat : ℚ) := by
  exact_mod_cast Nat.eq_zero_or_pos raw.toNat

/-! ### The humidity -/

/-- `raw * 125.0` as the evaluation computes it (R159). -/
def productRh (raw : Raw) : Binary64 := mul64 (cvt64 raw) Literals.document.kRhMul

/-- `raw * 125.0 / 65536.0` as the evaluation computes it (R159). -/
def quotientRh (raw : Raw) : Binary64 := div64 (productRh raw) Literals.document.kDiv

theorem productRh_value (raw : Raw) : value64 (productRh raw) = raw.toNat * 125 := by
  have hround := mul64_rounds (cvt64 raw) Literals.document.kRhMul
  rw [(cvt64_value raw).2, kRhMul_value] at hround
  have hr : raw.toNat < 65536 := raw.isLt
  have habs : |(raw.toNat : ℚ) * 125| = (raw.toNat * 125 : ℕ) * 2 ^ (0 : ℤ) := by
    rw [abs_of_nonneg (by positivity)]
    norm_num
  exact (hround.exact (by omega) habs (by norm_num) (by norm_num)).2

theorem quotientRh_value (raw : Raw) : value64 (quotientRh raw) = raw.toNat * 125 / 65536 := by
  have hround := div64_rounds (productRh raw) Literals.document.kDiv (by norm_num [kDiv_value])
  rw [productRh_value, kDiv_value] at hround
  have hr : raw.toNat < 65536 := raw.isLt
  have habs : |(raw.toNat : ℚ) * 125 / 65536| = (raw.toNat * 125 : ℕ) * 2 ^ (-16 : ℤ) := by
    rw [abs_of_nonneg (by positivity)]
    norm_num [div_eq_mul_inv]
  exact (hround.exact (by omega) habs (by norm_num) (by norm_num)).2

/-- No number in the humidity's evaluation needs more than 53 bits, so none is rounded (R159). -/
theorem evalRh_exact (raw : Raw) :
    isFinite64 (evalRh Literals.document raw) = true ∧
      value64 (evalRh Literals.document raw) = (125 * (raw.toNat : ℚ) - 393216) / 65536 := by
  have hround : RoundsTo (evalRh Literals.document raw) _ := sub64_rounds (quotientRh raw) Literals.document.kRhOff
  have hexact : (raw.toNat : ℚ) * 125 / 65536 - 6 = (125 * (raw.toNat : ℚ) - 393216) / 65536 := by ring
  rw [quotientRh_value, kRhOff_value, hexact] at hround
  have hr : raw.toNat < 65536 := raw.isLt
  have habs : |(125 * (raw.toNat : ℚ) - 393216) / 65536| =
      (125 * (raw.toNat : ℤ) - 393216).natAbs * 2 ^ (-16 : ℤ) := by
    rw [Nat.cast_natAbs, abs_div]
    norm_num [div_eq_mul_inv]
  exact hround.exact (by omega) habs (by norm_num) (by norm_num)

/-! ### The temperature -/

/-- A number of moderate size, or zero, rounded once: its error adds to the error it had before. -/
theorem RoundsTo.near_of_near {v : Binary64} {x y e : ℚ} (h : RoundsTo v x) (hlow : x = 0 ∨ 1 / 2 ^ 30 ≤ |x|)
    (hhigh : |x| ≤ 2 ^ 30) (hxy : |x - y| ≤ e) : isFinite64 v = true ∧ |value64 v - y| ≤ |x| / 2 ^ 53 + e := by
  have hmin : (2 : ℚ) ^ (-1000 : ℤ) ≤ 1 / 2 ^ 30 := by
    rw [one_div, ← zpow_natCast, ← zpow_neg]
    exact zpow_le_zpow_right₀ (by norm_num) (by norm_num)
  have hmax : (2 : ℚ) ^ 30 ≤ 2 ^ (800 : ℤ) := by
    rw [← zpow_natCast]
    exact zpow_le_zpow_right₀ (by norm_num) (by norm_num)
  obtain ⟨hfin, hnear⟩ := h.near (hlow.imp_right fun hlow => ⟨hmin.trans hlow, hhigh.trans hmax⟩)
  exact ⟨hfin, (abs_sub_le _ x _).trans (add_le_add hnear hxy)⟩

/-- `raw * 175.72` as the evaluation computes it (R158). -/
def productT (raw : Raw) : Binary64 := mul64 (cvt64 raw) Literals.document.kTMul

/-- `raw * 175.72 / 65536.0` as the evaluation computes it (R158). -/
def quotientT (raw : Raw) : Binary64 := div64 (productT raw) Literals.document.kDiv

/-- `T_exact` (R158). -/
def exactT (raw : Raw) : ℚ := (4393 * (raw.toNat : ℚ) - 76759040) / 1638400

/-- The product has the literal's error and that of one rounding. -/
theorem productT_near (raw : Raw) :
    |value64 (productT raw) - raw.toNat * (4393 / 25)| ≤ raw.toNat * (1 / 2 ^ 46 + 176 / 2 ^ 53) := by
  have hround : RoundsTo (productT raw) _ := mul64_rounds (cvt64 raw) Literals.document.kTMul
  rw [(cvt64_value raw).2] at hround
  have hk := kTMul_near
  generalize value64 Literals.document.kTMul = k at hk hround
  have hr0 : (0 : ℚ) ≤ raw.toNat := Nat.cast_nonneg _
  have hr := raw_le raw
  have herr : |raw.toNat * k - raw.toNat * (4393 / 25)| ≤ raw.toNat * (1 / 2 ^ 46) := by
    rw [← mul_sub, abs_mul, abs_of_nonneg hr0]
    exact mul_le_mul_of_nonneg_left hk hr0
  obtain ⟨h1, h2⟩ := abs_le.mp herr
  have habs : |raw.toNat * k| = raw.toNat * k := abs_of_nonneg (by linarith)
  have hlow : raw.toNat * k = 0 ∨ 1 / 2 ^ 30 ≤ |raw.toNat * k| :=
    (raw_zero_or_one_le raw).imp (fun h => by rw [h, zero_mul]) (fun h => by rw [habs]; linarith)
  obtain ⟨-, hnear⟩ := hround.near_of_near hlow (by rw [habs]; linarith) herr
  rw [habs] at hnear
  linarith

/-- The quotient has the product's error and that of one more rounding. -/
theorem quotientT_near (raw : Raw) :
    |value64 (quotientT raw) - raw.toNat * (4393 / 1638400)| ≤ 1 / 2 ^ 46 + 354 / 2 ^ 53 := by
  have hround : RoundsTo (quotientT raw) _ :=
    div64_rounds (productT raw) Literals.document.kDiv (by norm_num [kDiv_value])
  rw [kDiv_value] at hround
  obtain ⟨h1, h2⟩ := abs_le.mp (productT_near raw)
  generalize value64 (productT raw) = p at h1 h2 hround
  have hr0 : (0 : ℚ) ≤ raw.toNat := Nat.cast_nonneg _
  have hr := raw_le raw
  have herr : |p / 65536 - raw.toNat * (4393 / 1638400)| ≤ 1 / 2 ^ 46 + 176 / 2 ^ 53 :=
    abs_le.mpr ⟨by linarith, by linarith⟩
  have habs : |p / 65536| = p / 65536 := abs_of_nonneg (by linarith)
  have hlow : p / 65536 = 0 ∨ 1 / 2 ^ 30 ≤ |p / 65536| :=
    (raw_zero_or_one_le raw).imp (fun h => by linarith) (fun h => by rw [habs]; linarith)
  obtain ⟨-, hnear⟩ := hround.near_of_near hlow (by rw [habs]; linarith) herr
  rw [habs] at hnear
  linarith

/-- The exact temperature is a fraction over 1638400 that is not zero, and no more than 129. -/
theorem exactT_bounds (raw : Raw) : 1 / 1638400 ≤ |exactT raw| ∧ |exactT raw| ≤ 129 := by
  constructor
  · have hnum : (1 : ℤ) ≤ |4393 * (raw.toNat : ℤ) - 76759040| := Int.one_le_abs (by omega)
    have hnum : (1 : ℚ) ≤ |4393 * (raw.toNat : ℚ) - 76759040| := by exact_mod_cast hnum
    rw [exactT, abs_div, abs_of_pos (by norm_num : (0 : ℚ) < 1638400)]
    gcongr
  · have hr0 : (0 : ℚ) ≤ raw.toNat := Nat.cast_nonneg _
    have hr := raw_le raw
    rw [exactT]
    exact abs_le.mpr ⟨by linarith, by linarith⟩

/-- The evaluation has the quotient's error, the other literal's, and that of one more rounding. -/
theorem evalT_near (raw : Raw) :
    isFinite64 (evalT Literals.document raw) = true ∧
      |value64 (evalT Literals.document raw) - exactT raw| ≤ 1 / 10 ^ 13 := by
  have hround : RoundsTo (evalT Literals.document raw) _ := sub64_rounds (quotientT raw) Literals.document.kTOff
  have herr : |value64 (quotientT raw) - value64 Literals.document.kTOff - exactT raw| ≤
      1 / 2 ^ 46 + 354 / 2 ^ 53 + 1 / 2 ^ 48 := by
    obtain ⟨hq1, hq2⟩ := abs_le.mp (quotientT_near raw)
    obtain ⟨ho1, ho2⟩ := abs_le.mp kTOff_near
    rw [exactT]
    exact abs_le.mpr ⟨by linarith, by linarith⟩
  generalize value64 (quotientT raw) - value64 Literals.document.kTOff = x at hround herr
  obtain ⟨haway, hbound⟩ := exactT_bounds raw
  have hdist := abs_le.mp ((abs_abs_sub_abs_le x (exactT raw)).trans herr)
  obtain ⟨hfin, hnear⟩ := hround.near_of_near (.inr (by linarith)) (by linarith) herr
  exact ⟨hfin, by linarith⟩

/-! ### Under the constraint on the two parameters (00_scope.md R9) -/

section
variable {cfg : Config} (hlit : cfg.LitWf) (hconv : cfg.ConvWf)
include hlit hconv

theorem convRh_exact (raw : Raw) :
    isFinite64 (convRh cfg raw) = true ∧ value64 (convRh cfg raw) = (125 * (raw.toNat : ℚ) - 393216) / 65536 := by
  rw [convRh_eq hconv, hlit]
  exact evalRh_exact raw

theorem convT_near (raw : Raw) :
    isFinite64 (convT cfg raw) = true ∧ |value64 (convT cfg raw) - exactT raw| ≤ 1 / 10 ^ 13 := by
  rw [convT_eq hconv, hlit]
  exact evalT_near raw

end

/-- Settles O25: the parameter is the evaluation, and that rounds nothing. -/
theorem humidityConversionIsExact : Obligations.HumidityConversionIsExact :=
  fun _ raw hlit hconv => convRh_exact hlit hconv raw

/-- Settles O53: the parameter is the evaluation, and the errors of its steps add up to less. -/
theorem temperatureConversionIsNearExact : Obligations.TemperatureConversionIsNearExact :=
  fun _ raw hlit hconv => (convT_near hlit hconv raw).2

/-- Settles O27: two exact temperatures of different raw values are farther apart than both errors together. -/
theorem conversionsIncreaseStrictly : Obligations.ConversionsIncreaseStrictly := by
  refine fun cfg hlit hconv => ⟨fun raw => ⟨(convT_near hlit hconv raw).1, (convRh_exact hlit hconv raw).1⟩,
    fun r r' hlt => ?_⟩
  have hle : (r.toNat : ℚ) + 1 ≤ r'.toNat := by exact_mod_cast hlt
  constructor
  · have hgap : exactT r + 4393 / 1638400 ≤ exactT r' := by
      rw [exactT, exactT]
      linarith
    obtain ⟨-, h1⟩ := abs_le.mp (convT_near hlit hconv r).2
    obtain ⟨h2, -⟩ := abs_le.mp (convT_near hlit hconv r').2
    linarith
  · rw [(convRh_exact hlit hconv r).2, (convRh_exact hlit hconv r').2]
    linarith

/-- Settles O28: the exact temperature is farther from zero than the error of the conversion. -/
theorem conversionSignChanges : Obligations.ConversionSignChanges := by
  intro cfg raw hlit hconv
  obtain ⟨hT1, hT2⟩ := abs_le.mp (convT_near hlit hconv raw).2
  rw [exactT] at hT1 hT2
  rw [(convRh_exact hlit hconv raw).2]
  refine ⟨fun h => ?_, fun h => ?_, fun h => ?_, fun h => ?_⟩
  · have h : (raw.toNat : ℚ) ≤ 0x4441 := by exact_mod_cast h
    linarith
  · have h : (0x4442 : ℚ) ≤ raw.toNat := by exact_mod_cast h
    linarith
  · have h : (raw.toNat : ℚ) ≤ 0x0C49 := by exact_mod_cast h
    linarith
  · have h : (0x0C4A : ℚ) ≤ raw.toNat := by exact_mod_cast h
    linarith

/-- Settles O26, by the evaluations at the two ends. -/
theorem conversionEndpoints : Obligations.ConversionEndpoints := by
  intro cfg hlit hconv
  rw [convT_eq hconv, convT_eq hconv, convRh_eq hconv, convRh_eq hconv, hlit]
  decide

end Sys2Proof.Machine

/-! SUPPORT. Proofs about the host's actions (42_host_sequence.md R180 to R187): what each leaves, as one update of the
state, and the step in which the host takes it. -/

namespace Sys2Proof.Machine

/-! ### What each action leaves -/

/-- The three events of the buzzer's pulse (R181). -/
def pulseEvents (cfg : Config) : List Event :=
  [.pinWrite cfg.buzzPin .high, .wait cfg.lit.tBuzz, .pinWrite cfg.buzzPin .low]

/-- The document's pulse is 100 ms long (00_scope.md R7 `T_BUZZ`). -/
theorem pulseEvents_document {cfg : Config} (h : cfg.LitWf) :
    pulseEvents cfg = [.pinWrite cfg.buzzPin .high, .wait 100, .pinWrite cfg.buzzPin .low] := by
  rw [pulseEvents, h]
  rfl

/-- `BUZZ`: the pulse's events, the output low at its end, and nothing else. -/
theorem buzz_eq (s : State) : buzz s = { s with tr := s.tr ++ pulseEvents s.cfg, buzzer := .low } := by
  simp [buzz, writeBuzzer, State.pause, State.emit, pulseEvents]

/-- `SEROPEN` answered a handle: it is recorded and kept. -/
theorem serOpen_of_some {s : State} {hd : Handle} (h : s.nextSerial = some hd) :
    serOpen s = { s with ser := some hd, tr := s.tr ++ [.serOpen (some hd)], env := s.dropSerial.env } := by
  rw [serOpen, h]
  rfl

/-- `SEROPEN` answered an error: it is recorded and stops the host (60_exceptions.md R212, R217). -/
theorem serOpen_of_none {s : State} (h : s.nextSerial = none) :
    serOpen s = { s with
      fatal := some .serial
      hs := .stopped
      tr := s.tr ++ [.serOpen none, .diag .serialInitError, .fatal s.cfg.lit.exitSerial, .exit s.cfg.lit.exitSerial]
      env := s.dropSerial.env } := by
  simp [serOpen, h, State.emit, State.dropSerial]

/-- `SERCLOSE`: two events, the handle gone, and nothing else. -/
theorem serClose_eq (s : State) : serClose s = { s with ser := none, tr := s.tr ++ [.serClose, .release] } := by
  simp [serClose, State.emit]

/-- The pin of the termination key (R185). -/
def termPin (cfg : Config) : Nat := cfg.keyPin.getD cfg.termKey 0

theorem keyLevel_eq (s : State) : keyLevel s = s.nextLevel (termPin s.cfg) := rfl

/-- One read of the termination key: its event, one answer consumed, and nothing else. -/
theorem readKey_eq (s : State) :
    readKey s =
      { s with tr := s.tr ++ [.pinRead (termPin s.cfg) (s.nextLevel (termPin s.cfg))], env := s.dropLevel.env } := rfl

/-- The first read of a key check shows another level than pressed: that read alone, and not pressed (R185). -/
theorem keyCheck_of_up {s : State} (h : s.nextLevel (termPin s.cfg) ≠ s.cfg.keyPressedLevel) :
    keyCheck s = (false, readKey s) := if_neg h

/-- Two reads of the key with a delay between them (R185). -/
theorem readKey_pause_readKey (ms : Nat) (s : State) :
    readKey ((readKey s).pause ms) = { s with
      tr := s.tr ++ [.pinRead (termPin s.cfg) (s.nextLevel (termPin s.cfg)), .wait ms,
        .pinRead (termPin s.cfg) (s.dropLevel.nextLevel (termPin s.cfg))]
      env := s.dropLevel.dropLevel.env } := by
  have level : ((readKey s).pause ms).nextLevel (termPin s.cfg) = s.dropLevel.nextLevel (termPin s.cfg) :=
    State.nextLevel_congr rfl _
  have env : ((readKey s).pause ms).dropLevel.env = s.dropLevel.dropLevel.env := State.dropLevel_env_congr rfl
  have tr : ((readKey s).pause ms).tr =
      s.tr ++ [.pinRead (termPin s.cfg) (s.nextLevel (termPin s.cfg)), .wait ms] := by simp [readKey_eq]
  rw [readKey_eq, env, tr, List.append_assoc, ← level]
  rfl

/-- The first read of a key check shows the pressed level: the delay and a second read, which decides (R185). -/
theorem keyCheck_of_down {s : State} (h : s.nextLevel (termPin s.cfg) = s.cfg.keyPressedLevel) :
    keyCheck s = (decide (s.dropLevel.nextLevel (termPin s.cfg) = s.cfg.keyPressedLevel),
      readKey ((readKey s).pause s.cfg.lit.tDebounce)) := if_pos h

/-- A key check that is over after its first read leads to the next iteration (R189). -/
theorem hostAct_keyCheck_of_up {s : State} (h : s.nextLevel (termPin s.cfg) ≠ s.cfg.keyPressedLevel) :
    hostAct .keyCheck s = { s with
      tr := s.tr ++ [.pinRead (termPin s.cfg) (s.nextLevel (termPin s.cfg))]
      env := s.dropLevel.env
      hs := .running
      hpos := 0 } := by
  rw [hostAct, keyCheck_of_up h]
  rfl

/-- The second read of a key check decides whether the loop ends (R189). -/
theorem hostAct_keyCheck_of_down {s : State} (h : s.nextLevel (termPin s.cfg) = s.cfg.keyPressedLevel) :
    hostAct .keyCheck s = { s with
      tr := s.tr ++ [.pinRead (termPin s.cfg) (s.nextLevel (termPin s.cfg)), .wait s.cfg.lit.tDebounce,
        .pinRead (termPin s.cfg) (s.dropLevel.nextLevel (termPin s.cfg))]
      env := s.dropLevel.dropLevel.env
      hs := if s.dropLevel.nextLevel (termPin s.cfg) = s.cfg.keyPressedLevel then .finalizing else .running
      hpos := 0 } := by
  rw [hostAct, keyCheck_of_down h, readKey_pause_readKey]
  by_cases hd : s.dropLevel.nextLevel (termPin s.cfg) = s.cfg.keyPressedLevel
  · simp only [hd, decide_true, if_true, enterHost]
  · simp only [hd, decide_false, if_false, Bool.false_eq_true, enterHost]

/-- Settles O40: the host's next action is a step, and the pulse is what its equation says. -/
theorem hostBuzzPulse : Obligations.HostBuzzPulse := by
  intro s h hlit
  rw [step_of_hostNext h, hostAct, buzz_eq, pulseEvents_document hlit]

/-- Settles O41, by the channel's answer. -/
theorem hostSerialOpen : Obligations.HostSerialOpen := by
  refine fun s h hlit => ⟨fun hd hsome => ?_, fun hnone => ?_⟩
  · rw [step_of_hostNext h, hostAct, serOpen_of_some (s := { s with hpos := s.hpos + 1 }) hsome]
    rfl
  · have hexit : s.cfg.lit.exitSerial = 1 := by rw [hlit]; rfl
    rw [step_of_hostNext h, hostAct, serOpen_of_none (s := { s with hpos := s.hpos + 1 }) hnone, hexit]
    rfl

/-- Settles O42: the host's next action is a step, and the closing is what its equation says. -/
theorem hostSerialClose : Obligations.HostSerialClose := by
  intro s h
  rw [step_of_hostNext h, hostAct, serClose_eq]

/-- Settles O43: the calls of `PINSETUP`, the chip-select among them, and the writes of `LEDREADY`, to every LED. -/
theorem hostPinsAndLeds : Obligations.HostPinsAndLeds := by
  refine ⟨fun s h => ?calls, fun s h hwf => ?chipSelect, fun s h hwf hleds => ?leds⟩
  case calls =>
    rw [step_of_hostNext h, hostAct, pinSetup_eq]
    refine congrArg (fun evs => Host.Outcome.next { s with tr := s.tr ++ evs, hpos := s.hpos + 1 })
      (List.map_congr_left fun p _ => ?_)
    cases p <;> rfl
  case chipSelect =>
    obtain ⟨-, -, -, -, -, hcs, -⟩ := hwf.host
    exact ⟨_, step_of_hostNext h, _, by rw [hostAct, pinSetup_eq], List.mem_map.mpr ⟨HostPin.cs, hcs, rfl⟩⟩
  case leds =>
    obtain ⟨-, -, -, -, -, -, -, horder⟩ := hwf.host
    have hfour : s.leds.length = 4 := by rw [hleds, hwf.lit]; rfl
    rw [step_of_hostNext h, hostAct, ledReady_eq]
    rw [← hleds] at horder
    rw [leds_all _ _ _ horder, hfour]

/-- Settles O44: the host's next action is a step, and the sleep is the document's second. -/
theorem hostSleep_one_second : Obligations.HostSleep := by
  intro s h hlit
  have hsecond : s.cfg.lit.tRefresh = 1000 := by rw [hlit]; rfl
  rw [step_of_hostNext h, ← hsecond]
  rfl

/-- Settles O45, by the level of the first read. -/
theorem hostKeyCheck : Obligations.HostKeyCheck := by
  refine fun s h hlit => ⟨fun hup => ?_, fun hdown => ?_⟩
  · rw [step_of_hostNext h, hostAct_keyCheck_of_up (s := { s with hpos := s.hpos + 1 }) hup]
    rfl
  · have hdelay : s.cfg.lit.tDebounce = 10 := by rw [hlit]; rfl
    rw [step_of_hostNext h, hostAct_keyCheck_of_down (s := { s with hpos := s.hpos + 1 }) hdown, hdelay]
    rfl

/-- Settles O49: the sequence of `Stopped` is empty. -/
theorem stoppedIsTerminal : Obligations.StoppedIsTerminal := by
  intro s h hw hc hhs
  have hquiet : s.quiet = true := s.quiet_iff.mpr h.2
  rw [step_of_fetch_nothing h.1 (fetch_nothing.mpr ⟨hw, hc⟩), hostStep, if_pos hquiet, hhs]
  rfl

/-- Settles O51, by the evaluation of the text. -/
theorem hostTextOfTheExample : Obligations.HostTextOfTheExample := ⟨by decide, by decide⟩

end Sys2Proof.Machine

/-! SUPPORT. Proofs about runs of the host (42_host_sequence.md R188 to R191): its actions one after another, each
command handed over and run by the block, from the start of a state's sequence to its end. -/

namespace Sys2Proof.Machine

/-! ### The host at a place of its sequence -/

/-- Commands are accepted, nothing waits at a port, and the host stands at place `p` of the sequence of `hs`. -/
def AtPlace (s : State) (hs : HostState) (p : Nat) : Prop :=
  Accepting s ∧ s.wire = none ∧ s.cmd = [] ∧ s.hs = hs ∧ s.hpos = p

section
variable {s : State} {hs : HostState} {p : Nat} (h : AtPlace s hs p)
include h

theorem AtPlace.hostNext {act : HostAct} (hact : (hostScript s.cfg hs)[p]? = some act) : HostNext s act := by
  obtain ⟨hacc, hw, hc, rfl, rfl⟩ := h
  exact ⟨hacc, hw, hc, hact⟩

/-- The host takes the action at its place. -/
theorem AtPlace.step {act : HostAct} (hact : (hostScript s.cfg hs)[p]? = some act) :
    step s = .next (hostAct act { s with hpos := p + 1 }) := by
  rw [step_of_hostNext (h.hostNext hact)]
  obtain ⟨-, -, -, -, rfl⟩ := h
  rfl

end

/-- A run goes on after the action at the host's place. -/
theorem AtPlace.run {s t : State} {hs : HostState} {p n : Nat} {act : HostAct} (h : AtPlace s hs p)
    (hact : (hostScript s.cfg hs)[p]? = some act) (ht : hostAct act { s with hpos := p + 1 } = t) :
    stepsFrom (n + 1) s = stepsFrom n t :=
  stepsFrom_succ n (ht ▸ h.step hact)

/-! ### A command handed over -/

/-- A packet on the command port is read back, whatever the parameters of the bus are (30_encoding.md R81 to R83). -/
theorem decode_encode_command (cfg : Config) {i : Instr} (hlink : i.link = .command) (h : i.fits = true)
    (rest : List Byte) : decode cfg .command (encode cfg i ++ rest) = .ok (i, rest) := by
  have hbytes : encode cfg i = encode Config.reference i := by
    cases i with
    | init | wreg a d | rchar k c dp | rstr text | clear | sopen addr | rdtemp | rdhum => rfl
    | dframe a d | scmdT | scmdRh | sdata raw => cases hlink
  have hread := decode_encode (cfg := Config.reference) (by decide) h rest
  rw [hlink] at hread
  rw [hbytes]
  exact hread

/-- The block runs the command whose packet is all that waits at the command port. -/
theorem step_of_packet {s : State} {i : Instr} (hf : s.fatal = none) (hw : s.wire = none) (hlink : i.link = .command)
    (hfits : i.fits = true) (hc : s.cmd = encode s.cfg i) : step s = exec i { s with cmd := [] } := by
  refine step_of_fetch_run hf (fetch_of_packet hw ?_)
  rw [hc, ← List.append_nil (encode s.cfg i)]
  exact decode_encode_command s.cfg hlink hfits []

/-- A command handed over at an empty port is run as it is. -/
theorem step_handOver {s : State} {i : Instr} (hf : s.fatal = none) (hw : s.wire = none) (hc : s.cmd = [])
    (hlink : i.link = .command) (hfits : i.fits = true) : step (handOver i s) = exec i s := by
  have hcmd : (handOver i s).cmd = encode s.cfg i := by simp [handOver, hc]
  rw [step_of_packet (s := handOver i s) hf hw hlink hfits hcmd, ← hc]
  rfl

/-- A run goes on after a command handed over at an empty port is run. -/
theorem run_handOver {s t : State} {i : Instr} {n : Nat} (hacc : Accepting s) (hw : s.wire = none) (hc : s.cmd = [])
    (hlink : i.link = .command) (hfits : i.fits = true) (hexec : exec i s = .next t) :
    stepsFrom (n + 1) (handOver i s) = stepsFrom n t :=
  stepsFrom_succ n ((step_handOver hacc.1 hw hc hlink hfits).trans hexec)

/-- A run goes on after a command is handed over and run: two steps. -/
theorem AtPlace.run_call {s t : State} {hs : HostState} {p n : Nat} {i : Instr} (h : AtPlace s hs p)
    (hact : (hostScript s.cfg hs)[p]? = some (.call i)) (hlink : i.link = .command) (hfits : i.fits = true)
    (hexec : exec i { s with hpos := p + 1 } = .next t) : stepsFrom (n + 2) s = stepsFrom n t := by
  have ⟨hacc, hw, hc, _, _⟩ := h
  exact (h.run hact rfl).trans (run_handOver hacc hw hc hlink hfits hexec)

/-! ### Finalizing -/

/-- The state at the end of `Finalizing` (R190). -/
def State.finalized (s : State) : State :=
  { s with
    tr := s.tr ++ pulseEvents s.cfg ++ writeEvents (clearWrites s.cfg) ++ [.serClose, .release, .exit s.cfg.lit.exitOk]
    x := replay s.x (writeEvents (clearWrites s.cfg))
    ser := none
    buzzer := .low
    hs := .stopped
    hpos := 0 }

/-- `Finalizing` is five steps: the pulse, `CLEAR` handed over and run, the channel closed, the exit. -/
theorem run_finalizing {s : State} (h : AtPlace s .finalizing 0) (hser : s.ser ≠ none) :
    stepsFrom 5 s = .next s.finalized := by
  have ⟨hacc, hw, hc, hhs, _⟩ := h
  calc stepsFrom 5 s
    _ = stepsFrom 4 { s with tr := s.tr ++ pulseEvents s.cfg, buzzer := .low, hpos := 1 } := h.run rfl (buzz_eq _)
    _ = stepsFrom 2 (State.played { s with tr := s.tr ++ pulseEvents s.cfg, buzzer := .low, hpos := 2 }
          (writeEvents (clearWrites s.cfg))) :=
      AtPlace.run_call ⟨hacc, hw, hc, hhs, rfl⟩ rfl rfl rfl (exec_clear_of_ready ⟨hacc, hser⟩)
    _ = stepsFrom 1 { s with
          tr := s.tr ++ pulseEvents s.cfg ++ writeEvents (clearWrites s.cfg) ++ [.serClose, .release]
          x := replay s.x (writeEvents (clearWrites s.cfg))
          ser := none
          buzzer := .low
          hpos := 3 } := AtPlace.run ⟨hacc, hw, hc, hhs, rfl⟩ rfl (serClose_eq _)
    _ = stepsFrom 0 s.finalized :=
      AtPlace.run ⟨hacc, hw, hc, hhs, rfl⟩ rfl (by simp [State.finalized, hostAct, enterHost, State.emit])

/-- Settles O47: the run of `Finalizing` ends in `State.finalized`, whose digits the blanking writes leave zero, and
`Stopped` is terminal. -/
theorem finalizingRunsOnce : Obligations.FinalizingRunsOnce := by
  intro s hacc hser hw hc hhs hpos hlit
  have hexit : s.cfg.lit.exitOk = 0 := by rw [hlit]; rfl
  refine ⟨s.finalized, run_finalizing ⟨hacc, hw, hc, hhs, hpos⟩ hser, ?_,
    fun k hk => State.played_clear_reg_slot s hk, fun a ha => State.played_clear_reg_other s ha, rfl, rfl, rfl, hacc.1,
    stoppedIsTerminal s.finalized hacc hw hc rfl⟩
  rw [State.finalized, hexit, pulseEvents_document hlit]

/-! ### Init -/

/-- The events of `PINSETUP` (R180). -/
def pinEvents (cfg : Config) : List Event := cfg.pinCalls.map fun p => .pinCfg (pinId cfg p) (pinDir p)

/-- The events of `LEDREADY` (R184). -/
def ledEvents (cfg : Config) : List Event :=
  cfg.ledOrder.map fun i => .pinWrite (cfg.ledPin.getD i 0) cfg.ledReadyLevel

/-- `SOPEN` answered a handle that is not negative. -/
theorem exec_sopen_of_nonneg {s : State} {addr : Byte} (h : SessionClosed s) (hnonneg : 0 ≤ s.nextBusHandle addr) :
    exec (.sopen addr) s = .next { s with
      sh := some (s.nextBusHandle addr)
      tr := s.tr ++ [.busOpen addr (s.nextBusHandle addr)]
      env := s.dropBusHandle.env } := by
  rw [exec_sopen_of_closed h, openSession_of_nonneg hnonneg]

/-- The first five steps of `Init`, up to the opening of both transports (R188). -/
theorem run_init_open {s : State} {ser sh : Handle} {n : Nat} (h : AtPlace s .init 0) (hsh : s.sh = none)
    (hser : s.nextSerial = some ser) (hbus : s.dropSerial.nextBusHandle s.cfg.sensorAddr = sh) (hnonneg : 0 ≤ sh) :
    stepsFrom (n + 5) s = stepsFrom n { s with
      tr := s.tr ++ pinEvents s.cfg ++ pulseEvents s.cfg ++ [.serOpen (some ser)] ++ [.busOpen s.cfg.sensorAddr sh]
      ser := some ser
      sh := some sh
      env := s.dropSerial.dropBusHandle.env
      buzzer := .low
      hpos := 4 } := by
  have ⟨hacc, hw, hc, hhs, _⟩ := h
  subst hbus
  calc stepsFrom (n + 5) s
    _ = stepsFrom (n + 4) { s with tr := s.tr ++ pinEvents s.cfg, hpos := 1 } := h.run rfl (pinSetup_eq _)
    _ = stepsFrom (n + 3) { s with
          tr := s.tr ++ pinEvents s.cfg ++ pulseEvents s.cfg
          buzzer := .low
          hpos := 2 } := AtPlace.run ⟨hacc, hw, hc, hhs, rfl⟩ rfl (buzz_eq _)
    _ = stepsFrom (n + 2) { s with
          tr := s.tr ++ pinEvents s.cfg ++ pulseEvents s.cfg ++ [.serOpen (some ser)]
          ser := some ser
          env := s.dropSerial.env
          buzzer := .low
          hpos := 3 } := AtPlace.run ⟨hacc, hw, hc, hhs, rfl⟩ rfl (serOpen_of_some hser)
    _ = stepsFrom n _ :=
      AtPlace.run_call ⟨hacc, hw, hc, hhs, rfl⟩ rfl rfl rfl (exec_sopen_of_nonneg ⟨hacc, hsh⟩ hnonneg)

/-- The last five steps of `Init`, from the display's initialisation to the start of `Running` (R188). -/
theorem run_init_show {s : State} {n : Nat} (h : AtPlace s .init 4) (hser : s.ser ≠ none) :
    stepsFrom (n + 5) s = stepsFrom n { s with
      tr := s.tr ++ writeEvents (initWrites s.cfg) ++ pulseEvents s.cfg ++ ledEvents s.cfg
      x := replay s.x (writeEvents (initWrites s.cfg))
      buzzer := .low
      leds := s.cfg.ledOrder.foldl (fun l i => l.set i s.cfg.ledReadyLevel) s.leds
      hs := .running
      hpos := 0 } := by
  have ⟨hacc, hw, hc, hhs, _⟩ := h
  calc stepsFrom (n + 5) s
    _ = stepsFrom (n + 3) (State.played { s with hpos := 5 } (writeEvents (initWrites s.cfg))) :=
      h.run_call rfl rfl rfl (exec_init_of_ready ⟨hacc, hser⟩)
    _ = stepsFrom (n + 2) { s with
          tr := s.tr ++ writeEvents (initWrites s.cfg) ++ pulseEvents s.cfg
          x := replay s.x (writeEvents (initWrites s.cfg))
          buzzer := .low
          hpos := 6 } := AtPlace.run ⟨hacc, hw, hc, hhs, rfl⟩ rfl (buzz_eq _)
    _ = stepsFrom (n + 1) { s with
          tr := s.tr ++ writeEvents (initWrites s.cfg) ++ pulseEvents s.cfg ++ ledEvents s.cfg
          x := replay s.x (writeEvents (initWrites s.cfg))
          buzzer := .low
          leds := s.cfg.ledOrder.foldl (fun l i => l.set i s.cfg.ledReadyLevel) s.leds
          hpos := 7 } := AtPlace.run ⟨hacc, hw, hc, hhs, rfl⟩ rfl (ledReady_eq _)
    _ = stepsFrom n _ := AtPlace.run ⟨hacc, hw, hc, hhs, rfl⟩ rfl rfl

/-- Settles O48: `Init` from reset is the opening of both transports, then the display's initialisation. -/
theorem initSequenceFromReset : Obligations.InitSequenceFromReset := by
  intro cfg x env v vs w ws hlit hserials hhandles hnonneg s pulse
  have h : AtPlace s .init 0 := ⟨⟨rfl, rfl, rfl⟩, rfl, rfl, rfl, rfl⟩
  have hser : s.nextSerial = some (serialHandle cfg v) := by simp [s, State.nextSerial, hserials, State.resetWith]
  have hbus : s.dropSerial.nextBusHandle s.cfg.sensorAddr = busHandle cfg w := by
    simp [s, State.nextBusHandle, hhandles, State.resetWith]
  have hpulse : pulseEvents cfg = pulse := pulseEvents_document hlit
  refine ⟨_, (run_init_open (n := 5) h rfl hser hbus hnonneg).trans
    (run_init_show (n := 0) ⟨h.1, rfl, rfl, rfl, rfl⟩ (Option.some_ne_none _)), ?_, rfl, rfl, rfl, rfl, rfl, rfl⟩
  rw [← hpulse]
  simp [s, State.resetWith, pinEvents, ledEvents]

end Sys2Proof.Machine

/-! SUPPORT. Proofs about one iteration of `Running` (42_host_sequence.md R189): two measurements, each kept, their
text shown, the sleep and the key check. -/

namespace Sys2Proof.Machine

/-! ### The host's text fits a packet -/

theorem digitCode_fits (n : Nat) : codeFits (digitCode n) = true := by
  rw [codeFits_iff, digitCode]
  omega

theorem lastDigits_fits (p n : Nat) : (lastDigits p n).all codeFits = true := by
  induction p generalizing n with
  | zero => rfl
  | succ p ih => simp [lastDigits, List.all_append, ih, digitCode_fits]

theorem allDigits_fits (fuel n : Nat) : (allDigits fuel n).all codeFits = true := by
  induction fuel generalizing n with
  | zero => simp [allDigits, digitCode_fits]
  | succ fuel ih =>
    rw [allDigits]
    split
    · simp [digitCode_fits]
    · simp [List.all_append, ih, digitCode_fits]

/-- A formatted number is digits, the period and a minus, or a free text of bytes (R186). -/
theorem fixedBy_fits {cfg : Config} (hperiod : codeFits cfg.period = true) (rule : TieRule) (v : Binary64) (p : Nat) :
    (fixedBy rule cfg v p).all codeFits = true := by
  rw [fixedBy]
  split
  · have hminus (b : Bool) : (if b then [minusCode] else []).all codeFits = true := by cases b <;> rfl
    simp only [List.all_append, hminus, allDigits_fits, lastDigits_fits, List.all_cons, List.all_nil, hperiod,
      Bool.and_self]
  · simp

/-- Two formatted numbers, a space before each (R186). -/
theorem layout_fits {cfg : Config} (hcodes : cfg.CodesWf) (rT rH : TieRule) (t h : Binary64) :
    (layout rT rH cfg t h).all codeFits = true := by
  obtain ⟨-, -, -, hperiod, hspace⟩ := hcodes
  simp only [layout, List.all_append, List.all_cons, List.all_nil, hspace, fixedBy_fits hperiod, Bool.and_self]

/-- The text of two readings has the layout of R186, listed or not. -/
theorem hostText_layout {cfg : Config} (h : cfg.FormatWf) (t rh : Binary64) :
    ∃ rT rH, hostText cfg t rh = layout rT rH cfg t rh := by
  rcases e : cfg.hostFmtAt.lookup (t, rh) with _ | text
  · exact ⟨cfg.fmtTie, cfg.fmtTie, by rw [hostText, e]; rfl⟩
  · obtain ⟨l₁, l₂, hl, -⟩ := List.lookup_eq_some_iff.mp e
    obtain ⟨rT, rH, htext⟩ := h.2 ((t, rh), text) (by simp [hl])
    exact ⟨rT, rH, by rw [hostText, e]; exact htext⟩

/-- The text the host displays fits the packet it is cut for. -/
theorem displayText_fits {cfg : Config} (hwf : cfg.Wf) (t rh : Binary64) :
    (Instr.rstr (displayText cfg t rh)).fits = true := by
  obtain ⟨rT, rH, htext⟩ := hostText_layout hwf.format t rh
  refine fits_rstr_iff.mpr ⟨?_, List.all_eq_true.mpr fun c hc => ?_⟩
  · exact (List.length_take_le _ _).trans (min_le_right _ _)
  · refine List.all_eq_true.mp (layout_fits hwf.codes rT rH t rh) c ?_
    rw [← htext]
    exact List.mem_of_mem_take hc

/-! ### A measurement handed over and kept -/

/-- The operation that measures (41_sensor_engine.md R154, R155). -/
def measureOp : Kind → Instr
  | .t => .rdtemp
  | .rh => .rdhum

/-- The command byte of a measurement (R154, R155). -/
def trigger (cfg : Config) : Kind → Byte
  | .t => cfg.cmdTrigT
  | .rh => cfg.cmdTrigRh

/-- The value a measurement on the session `hd` returns: the two next bytes, converted (R153 to R156). -/
def State.reading (s : State) (kind : Kind) (hd : Handle) : Binary64 :=
  converted s.cfg kind (s.nextByte hd ++ s.dropByte.nextByte hd)

/-- The state a measurement on the session `hd` leads to. -/
def State.measured (s : State) (kind : Kind) (hd : Handle) : State :=
  { s with
    tr := s.tr ++ measureEvents s.cfg (trigger s.cfg kind) (s.nextByte hd) (s.dropByte.nextByte hd) kind
      (s.reading kind hd)
    env := s.dropByte.dropByte.env }

/-- Both measurements in a state that is ready for them. -/
theorem exec_measure_of_ready {s : State} {hd : Handle} (h : SensorReady s hd) (hlit : s.cfg.LitWf) (kind : Kind) :
    exec (measureOp kind) s = .next (s.measured kind hd) := by
  have hsettle : s.cfg.lit.tSettle = 100 := by rw [hlit]; rfl
  have hmeasure := measure_endOp h.1 hlit kind hd (trigger s.cfg kind)
  rw [State.measured, measureEvents, hsettle]
  cases kind with
  | t => exact (exec_rdtemp s).trans ((whenSensorOpen_of_ready h _).trans (congrArg _ hmeasure))
  | rh => exact (exec_rdhum s).trans ((whenSensorOpen_of_ready h _).trans (congrArg _ hmeasure))

/-- After a measurement its value is what has just been returned. -/
theorem returned_measured (s : State) (kind : Kind) (hd : Handle) :
    returned kind (s.measured kind hd).tr = some (s.reading kind hd) :=
  returned_of_getLast (by simp [State.measured, measureEvents])

theorem measureOp_link (kind : Kind) : (measureOp kind).link = .command := by cases kind <;> rfl
theorem measureOp_fits (kind : Kind) : (measureOp kind).fits = true := by cases kind <;> rfl

/-- A measurement handed over, run and kept: three steps. -/
theorem run_measure {s t : State} {hs : HostState} {p n : Nat} {kind : Kind} {hd : Handle} (h : AtPlace s hs p)
    (hcall : (hostScript s.cfg hs)[p]? = some (.call (measureOp kind)))
    (hkeep : (hostScript s.cfg hs)[p + 1]? = some (.keep kind)) (hsh : s.sh = some hd) (hlit : s.cfg.LitWf)
    (ht : keepReading kind { s.measured kind hd with hpos := p + 2 } = t) :
    stepsFrom (n + 3) s = stepsFrom n t := by
  have ⟨hacc, hw, hc, hhs, _⟩ := h
  calc stepsFrom (n + 3) s
    _ = stepsFrom (n + 1) { s.measured kind hd with hpos := p + 1 } :=
      h.run_call hcall (measureOp_link kind) (measureOp_fits kind)
        (exec_measure_of_ready (s := { s with hpos := p + 1 }) ⟨hacc, hsh⟩ hlit kind)
    _ = stepsFrom n t := AtPlace.run ⟨hacc, hw, hc, hhs, rfl⟩ hkeep ht

theorem keepReading_t_measured (s : State) (hd : Handle) (p : Nat) :
    keepReading .t { s.measured .t hd with hpos := p } =
      { s.measured .t hd with hostT := some (s.reading .t hd), hpos := p } := by
  rw [← returned_measured]
  rfl

theorem keepReading_rh_measured (s : State) (hd : Handle) (p : Nat) :
    keepReading .rh { s.measured .rh hd with hpos := p } =
      { s.measured .rh hd with hostH := some (s.reading .rh hd), hpos := p } := by
  rw [← returned_measured]
  rfl

/-! ### The display -/

/-- With both readings the display hands the text over and the block shows it: two steps. -/
theorem run_display {s : State} {hs : HostState} {p n : Nat} {t rh : Binary64} (h : AtPlace s hs p)
    (hact : (hostScript s.cfg hs)[p]? = some .display) (ht : s.hostT = some t) (hh : s.hostH = some rh)
    (hser : s.ser ≠ none) (hwf : s.cfg.Wf) :
    stepsFrom (n + 2) s = stepsFrom n (State.played { s with hostT := none, hostH := none, hpos := p + 1 }
      (textEvents s.cfg (displayText s.cfg t rh))) := by
  have ⟨hacc, hw, hc, hhs, _⟩ := h
  have hready : DisplayReady { s with hostT := none, hostH := none, hpos := p + 1 } := ⟨hacc, hser⟩
  calc stepsFrom (n + 2) s
    _ = stepsFrom (n + 1) (handOver (.rstr (displayText s.cfg t rh))
          { s with hostT := none, hostH := none, hpos := p + 1 }) :=
      h.run hact (display_of_readings (s := { s with hpos := p + 1 }) ht hh)
    _ = stepsFrom n _ := run_handOver hacc hw hc rfl (displayText_fits hwf t rh) (exec_rstr_of_ready hready _)

/-! ### The iteration -/

/-- The text that an iteration shows: that of both readings (R189). -/
def iterationText (s : State) (hd : Handle) : List Code :=
  displayText s.cfg (s.reading .t hd) (s.dropByte.dropByte.reading .rh hd)

/-- The events of an iteration up to its key check: both measurements, the text of both readings, the sleep (R189). -/
def iterationEvents (s : State) (hd : Handle) : List Event :=
  let s' := s.dropByte.dropByte
  measureEvents s.cfg s.cfg.cmdTrigT (s.nextByte hd) (s.dropByte.nextByte hd) .t (s.reading .t hd) ++
    measureEvents s.cfg s.cfg.cmdTrigRh (s'.nextByte hd) (s'.dropByte.nextByte hd) .rh (s'.reading .rh hd) ++
    textEvents s.cfg (iterationText s hd) ++ [.wait s.cfg.lit.tRefresh]

/-- The state before the key check of an iteration: no reading is kept (41_sensor_engine.md R163). -/
def State.iterated (s : State) (hd : Handle) : State :=
  { s with
    tr := s.tr ++ iterationEvents s hd
    x := replay s.x (textEvents s.cfg (iterationText s hd))
    env := s.dropByte.dropByte.dropByte.dropByte.env
    hostT := none
    hostH := none
    hpos := 6 }

/-- An iteration is nine steps up to its key check. -/
theorem run_iteration {s : State} {n : Nat} {hd : Handle} (h : AtPlace s .running 0) (hser : s.ser ≠ none)
    (hsh : s.sh = some hd) (hwf : s.cfg.Wf) : stepsFrom (n + 9) s = stepsFrom n (s.iterated hd) := by
  have ⟨hacc, hw, hc, hhs, _⟩ := h
  calc stepsFrom (n + 9) s
    _ = stepsFrom (n + 6) { s.measured .t hd with hostT := some (s.reading .t hd), hpos := 2 } :=
      run_measure h rfl rfl hsh hwf.lit (keepReading_t_measured s hd 2)
    _ = stepsFrom (n + 3) { State.measured { s.measured .t hd with hostT := some (s.reading .t hd) } .rh hd with
          hostH := some (s.dropByte.dropByte.reading .rh hd)
          hpos := 4 } :=
      run_measure ⟨hacc, hw, hc, hhs, rfl⟩ rfl rfl hsh hwf.lit (keepReading_rh_measured _ hd 4)
    _ = stepsFrom (n + 1) (State.played
          { State.measured (s.measured .t hd) .rh hd with hostT := none, hostH := none, hpos := 5 }
          (textEvents s.cfg (iterationText s hd))) :=
      run_display ⟨hacc, hw, hc, hhs, rfl⟩ rfl rfl rfl hser hwf
    _ = stepsFrom n (s.iterated hd) := AtPlace.run ⟨hacc, hw, hc, hhs, rfl⟩ rfl (by
      simp only [State.iterated, iterationEvents, hostAct, hostSleep, State.pause, State.emit, State.played,
        State.measured, List.append_assoc]
      rfl)

/-- Settles O46: the iteration up to its key check, then the check, by the level of its first read. -/
theorem runningIteration : Obligations.RunningIteration := by
  intro s hd hacc hser hsh hw hc hhs hpos hwf s1 s2 s3 s4 t rh pin l1 l2 down
  have h : AtPlace (s.iterated hd) .running 6 := ⟨hacc, hw, hc, hhs, rfl⟩
  have hrun : stepsFrom 10 s = .next (hostAct .keyCheck { s.iterated hd with hpos := 7 }) :=
    (run_iteration (n := 1) ⟨hacc, hw, hc, hhs, hpos⟩ hser hsh hwf).trans (h.run rfl rfl)
  have hsecond : s.cfg.lit.tRefresh = 1000 := by rw [hwf.lit]; rfl
  have hdelay : s.cfg.lit.tDebounce = 10 := by rw [hwf.lit]; rfl
  have hevents : iterationEvents s hd =
      measureEvents s.cfg s.cfg.cmdTrigT (s.nextByte hd) (s1.nextByte hd) .t t ++
        measureEvents s.cfg s.cfg.cmdTrigRh (s2.nextByte hd) (s3.nextByte hd) .rh rh ++
        textEvents s.cfg ((hostText s.cfg t rh).take (min s.cfg.maxLen 255)) ++ [.wait 1000] := by
    rw [← hsecond]
    rfl
  refine ⟨_, hrun, ?_⟩
  by_cases hl : l1 = down
  · rw [hostAct_keyCheck_of_down (s := { s.iterated hd with hpos := 7 }) hl]
    refine ⟨?tr, ?hs, rfl, hc, rfl, rfl, hacc.1, rfl, rfl⟩
    case tr =>
      change s.tr ++ iterationEvents s hd ++ [.pinRead pin l1, .wait s.cfg.lit.tDebounce, .pinRead pin l2] = _
      rw [hevents, hdelay, if_pos hl]
      simp only [List.append_assoc]
    case hs =>
      simp only [hl, true_and]
      rfl
  · rw [hostAct_keyCheck_of_up (s := { s.iterated hd with hpos := 7 }) hl]
    refine ⟨?tr, (if_neg fun h => hl h.1).symm, rfl, hc, rfl, rfl, hacc.1, rfl, rfl⟩
    case tr =>
      change s.tr ++ iterationEvents s hd ++ [.pinRead pin l1] = _
      rw [hevents, if_neg hl]
      simp only [List.append_assoc]

end Sys2Proof.Machine

/-! SUPPORT. The proof that the host's own run is never refused (42_host_sequence.md R188 to R195): at each place of its
sequences the host's action, or the command it has handed over, finds what it needs and leads to the next place. -/

namespace Sys2Proof.Machine

/-! ### The invariant of the host's runs, without that of every step -/

/-- What `LoopInv` says beyond `Inv`. -/
def InLoop (s : State) : Prop :=
  s.wire = none ∧ (s.hs = .stopped ∨ s.hpos < (hostScript s.cfg s.hs).length) ∧ (s.fatal ≠ none ∨ HostPending s) ∧
    (s.fatal ≠ none ∨ HostHandles s) ∧ HostReadings s

theorem LoopInv.inLoop {s : State} (h : LoopInv s) : InLoop s :=
  ⟨h.noWire, h.place, h.pending, h.handles, h.readings⟩

/-- A step from the invariant needs no more than `InLoop` after it. -/
theorem LoopInv.goes_on {s t : State} (h : LoopInv s) (hstep : step s = .next t) (ht : InLoop t) :
    ∃ t, step s = .next t ∧ LoopInv t := by
  obtain ⟨hw, hplace, hpending, hhandles, hreadings⟩ := ht
  exact ⟨t, hstep, stepKeepsInvariant s t h.inv hstep, hw, hplace, hpending, hhandles, hreadings⟩

/-- The handles at place `p` of `Init`: the serial channel open from place 3 on, the session from the return of `SOPEN`,
which is handed over at place 3, on. -/
def InitHandles (s : State) (p : Nat) : Prop :=
  (3 ≤ p → s.ser ≠ none) ∧ (p ≤ 3 ∨ p = 4 ∧ s.cmd ≠ [] → s.sh = none) ∧ (5 ≤ p ∨ p = 4 ∧ s.cmd = [] → s.sh ≠ none)

/-- The readings at place `p` of `Running`: each from its return to the display at place 4. -/
def RunningReadings (s : State) (p : Nat) : Prop :=
  (s.hostT ≠ none ↔ 2 ≤ p ∧ p ≤ 4) ∧ (s.hostH ≠ none ↔ p = 4) ∧
    (p = 1 → s.cmd = [] → returned .t s.tr ≠ none) ∧ (p = 3 → s.cmd = [] → returned .rh s.tr ≠ none)

section
variable {s : State} {p : Nat}

theorem inLoop_init_iff (hhs : s.hs = .init) (hp : s.hpos = p) (hf : s.fatal = none) :
    InLoop s ↔ s.wire = none ∧ p < 8 ∧ HostPending s ∧ InitHandles s p ∧ s.hostT = none ∧ s.hostH = none := by
  subst hp
  simp [InLoop, HostHandles, InitHandles, HostReadings, hostScript, hhs, hf]

theorem inLoop_running_iff (hhs : s.hs = .running) (hp : s.hpos = p) (hf : s.fatal = none) :
    InLoop s ↔
      s.wire = none ∧ p < 7 ∧ HostPending s ∧ (s.ser ≠ none ∧ s.sh ≠ none) ∧ RunningReadings s p := by
  subst hp
  simp [InLoop, HostHandles, HostReadings, RunningReadings, hostScript, hhs, hf]

theorem inLoop_finalizing_iff (hhs : s.hs = .finalizing) (hp : s.hpos = p) (hf : s.fatal = none) :
    InLoop s ↔
      s.wire = none ∧ p < 4 ∧ HostPending s ∧ (p ≤ 2 → s.ser ≠ none) ∧ s.hostT = none ∧ s.hostH = none := by
  subst hp
  simp [InLoop, HostHandles, HostReadings, hostScript, hhs, hf]

/-- A stopped host holds no reading, and no command of its own waits unless the stop was fatal. -/
theorem inLoop_of_stopped (hw : s.wire = none) (hhs : s.hs = .stopped) (hc : s.fatal ≠ none ∨ s.cmd = [])
    (hT : s.hostT = none) (hH : s.hostH = none) : InLoop s := by
  refine ⟨hw, .inl hhs, hc.imp_right .inl, .inr ?_, ?_⟩
  · rw [HostHandles, hhs]
    trivial
  · rw [HostReadings, hhs]
    exact ⟨hT, hH⟩

/-! ### What an action leaves to prove -/

theorem inLoop_of_init (p : Nat) (hw : s.wire = none) (hhs : s.hs = .init) (hf : s.fatal = none) (hp : s.hpos = p)
    (hlt : p < 8) (hpending : HostPending s) (hhandles : InitHandles s p) (hT : s.hostT = none)
    (hH : s.hostH = none) : InLoop s :=
  (inLoop_init_iff hhs hp hf).mpr ⟨hw, hlt, hpending, hhandles, hT, hH⟩

theorem inLoop_of_running (p : Nat) (hw : s.wire = none) (hhs : s.hs = .running) (hf : s.fatal = none) (hp : s.hpos = p)
    (hlt : p < 7) (hpending : HostPending s) (hser : s.ser ≠ none) (hsh : s.sh ≠ none)
    (hreadings : RunningReadings s p) : InLoop s :=
  (inLoop_running_iff hhs hp hf).mpr ⟨hw, hlt, hpending, ⟨hser, hsh⟩, hreadings⟩

theorem inLoop_of_finalizing (p : Nat) (hw : s.wire = none) (hhs : s.hs = .finalizing) (hf : s.fatal = none)
    (hp : s.hpos = p) (hlt : p < 4) (hpending : HostPending s) (hser : p ≤ 2 → s.ser ≠ none) (hT : s.hostT = none)
    (hH : s.hostH = none) : InLoop s :=
  (inLoop_finalizing_iff hhs hp hf).mpr ⟨hw, hlt, hpending, hser, hT, hH⟩

theorem handOver_cmd_ne_nil (i : Instr) (s : State) : (handOver i s).cmd ≠ [] := by
  simp [handOver, encode_ne_nil]

/-- The packet of a command just handed over waits. -/
theorem hostPending_call {hs : HostState} {i : Instr} (h : AtPlace s hs p)
    (hact : (hostScript s.cfg hs)[p]? = some (.call i)) : HostPending (handOver i { s with hpos := p + 1 }) := by
  obtain ⟨-, -, hc, rfl, -⟩ := h
  exact .inr ⟨_, Nat.succ_pos p, hact, .inl ⟨i, rfl, by simp [handOver, hc]⟩⟩

/-- The packet of the text just handed over waits. -/
theorem hostPending_display {hs : HostState} {text : List Code} (h : AtPlace s hs p)
    (hact : (hostScript s.cfg hs)[p]? = some .display) (htext : text.length ≤ lenMax) :
    HostPending (handOver (.rstr text) { s with hostT := none, hostH := none, hpos := p + 1 }) := by
  obtain ⟨-, -, hc, rfl, -⟩ := h
  exact .inr ⟨_, Nat.succ_pos p, hact, .inr ⟨rfl, text, htext, by simp [handOver, hc]⟩⟩

end

/-! ### The host's actions -/

/-- A key check leads to the start of `Running` or of `Finalizing`; else it changes the trace and the answers only. -/
theorem hostAct_keyCheck_leads (s : State) : ∃ tr env hs, (hs = .running ∨ hs = .finalizing) ∧
    hostAct .keyCheck s = { s with tr := tr, env := env, hs := hs, hpos := 0 } := by
  by_cases hl : s.nextLevel (termPin s.cfg) = s.cfg.keyPressedLevel
  · refine ⟨_, _, _, ?_, hostAct_keyCheck_of_down hl⟩
    split
    · exact .inr rfl
    · exact .inl rfl
  · exact ⟨_, _, _, .inl rfl, hostAct_keyCheck_of_up hl⟩

section
variable {s : State} (h : LoopInv s) (hf : s.fatal = none) (hc : s.cmd = [])
include h hf hc

/-- Before an action of the host commands are accepted and nothing waits. -/
theorem LoopInv.atPlace {hs : HostState} (hhs : s.hs = hs) : AtPlace s hs s.hpos :=
  ⟨⟨hf, h.inv.idle, h.inv.released⟩, h.noWire, hc, hhs, rfl⟩

/-- `Init` goes on from each of its places. -/
theorem LoopInv.init_goes_on (hhs : s.hs = .init) : ∃ t, step s = .next t ∧ LoopInv t := by
  obtain ⟨hw, hlt, -, ⟨hser, hclosed, hsession⟩, hT, hH⟩ := (inLoop_init_iff hhs rfl hf).mp h.inLoop
  have hat := h.atPlace hf hc hhs
  generalize s.hpos = p at *
  simp only [hc, ne_eq, not_true_eq_false, and_false, or_false, and_true] at hclosed hsession
  interval_cases p
  · -- `PINSETUP`
    refine h.goes_on (hat.step rfl) ?_
    rw [hostAct, pinSetup_eq]
    exact inLoop_of_init 1 hw hhs hf rfl (by decide) (.inl hc) (by simp [InitHandles, hclosed]) hT hH
  · -- `BUZZ`
    refine h.goes_on (hat.step rfl) ?_
    rw [hostAct, buzz_eq]
    exact inLoop_of_init 2 hw hhs hf rfl (by decide) (.inl hc) (by simp [InitHandles, hclosed]) hT hH
  · -- `SEROPEN`
    refine h.goes_on (hat.step rfl) ?_
    rw [hostAct]
    rcases hanswer : State.nextSerial { s with hpos := 3 } with _ | hd
    · rw [serOpen_of_none hanswer]
      exact inLoop_of_stopped hw rfl (.inl (Option.some_ne_none _)) hT hH
    · rw [serOpen_of_some hanswer]
      exact inLoop_of_init 3 hw hhs hf rfl (by decide) (.inl hc) (by simp [InitHandles, hclosed]) hT hH
  · -- `SOPEN`
    refine h.goes_on (hat.step rfl) ?_
    exact inLoop_of_init 4 hw hhs hf rfl (by decide) (hostPending_call hat rfl)
      ⟨fun _ => hser (by decide), fun _ => hclosed (by decide), by simp [hostAct, handOver_cmd_ne_nil]⟩ hT hH
  · -- `INIT`
    refine h.goes_on (hat.step rfl) ?_
    exact inLoop_of_init 5 hw hhs hf rfl (by decide) (hostPending_call hat rfl)
      ⟨fun _ => hser (by decide), by simp, fun _ => hsession (by decide)⟩ hT hH
  · -- `BUZZ`
    refine h.goes_on (hat.step rfl) ?_
    rw [hostAct, buzz_eq]
    exact inLoop_of_init 6 hw hhs hf rfl (by decide) (.inl hc) (by simp [InitHandles, hsession, hser]) hT hH
  · -- `LEDREADY`
    refine h.goes_on (hat.step rfl) ?_
    rw [hostAct, ledReady_eq]
    exact inLoop_of_init 7 hw hhs hf rfl (by decide) (.inl hc) (by simp [InitHandles, hsession, hser]) hT hH
  · -- `HS <- Running`
    refine h.goes_on (hat.step rfl) ?_
    exact inLoop_of_running 0 hw rfl hf rfl (by decide) (.inl hc) (hser (by decide)) (hsession (by decide))
      (by simp [RunningReadings, hostAct, enterHost, hT, hH])

/-- `Running` goes on from each of its places. -/
theorem LoopInv.running_goes_on (hhs : s.hs = .running) : ∃ t, step s = .next t ∧ LoopInv t := by
  obtain ⟨hw, hlt, -, ⟨hser, hsh⟩, hT, hH, htaken, htaken'⟩ := (inLoop_running_iff hhs rfl hf).mp h.inLoop
  have hat := h.atPlace hf hc hhs
  generalize s.hpos = p at *
  interval_cases p
  · -- `RDTEMP`
    refine h.goes_on (hat.step rfl) ?_
    exact inLoop_of_running 1 hw hhs hf rfl (by decide) (hostPending_call hat rfl) hser hsh
      (by simp [RunningReadings, hostAct, handOver, encode_ne_nil, hT, hH])
  · -- `RDTEMP -> t`
    refine h.goes_on (hat.step rfl) ?_
    exact inLoop_of_running 2 hw hhs hf rfl (by decide) (.inl hc) hser hsh
      (by simp [RunningReadings, hostAct, keepReading, hH, htaken, hc])
  · -- `RDHUM`
    refine h.goes_on (hat.step rfl) ?_
    exact inLoop_of_running 3 hw hhs hf rfl (by decide) (hostPending_call hat rfl) hser hsh
      (by simp [RunningReadings, hostAct, handOver, encode_ne_nil, hT, hH])
  · -- `RDHUM -> h`
    refine h.goes_on (hat.step rfl) ?_
    exact inLoop_of_running 4 hw hhs hf rfl (by decide) (.inl hc) hser hsh
      (by simp [RunningReadings, hostAct, keepReading, hT, htaken', hc])
  · -- `RSTR text`
    obtain ⟨t, ht⟩ := Option.ne_none_iff_exists'.mp (hT.mpr (by decide))
    obtain ⟨rh, hrh⟩ := Option.ne_none_iff_exists'.mp (hH.mpr (by decide))
    have ⟨htext, _⟩ := fits_rstr_iff.mp (displayText_fits h.inv.params t rh)
    refine h.goes_on (hat.step rfl) ?_
    rw [hostAct, display_of_readings (s := { s with hpos := 5 }) ht hrh]
    exact inLoop_of_running 5 hw hhs hf rfl (by decide) (hostPending_display (s := s) hat rfl htext) hser hsh
      (by simp [RunningReadings, dropReadings, handOver])
  · -- `SLEEP`
    refine h.goes_on (hat.step rfl) ?_
    exact inLoop_of_running 6 hw hhs hf rfl (by decide) (.inl hc) hser hsh
      (by simp [RunningReadings, hostAct, hostSleep, hT, hH])
  · -- `KEYCHK`
    obtain ⟨tr, env, hs, hhs', e⟩ := hostAct_keyCheck_leads { s with hpos := 7 }
    have hT : s.hostT = none := by simpa using hT
    have hH : s.hostH = none := by simpa using hH
    refine h.goes_on (hat.step rfl) ?_
    rw [e]
    rcases hhs' with rfl | rfl
    · exact inLoop_of_running 0 hw rfl hf rfl (by decide) (.inl hc) hser hsh (by simp [RunningReadings, hT, hH])
    · exact inLoop_of_finalizing 0 hw rfl hf rfl (by decide) (.inl hc) (fun _ => hser) hT hH

/-- `Finalizing` goes on from each of its places. -/
theorem LoopInv.finalizing_goes_on (hhs : s.hs = .finalizing) : ∃ t, step s = .next t ∧ LoopInv t := by
  obtain ⟨hw, hlt, -, hser, hT, hH⟩ := (inLoop_finalizing_iff hhs rfl hf).mp h.inLoop
  have hat := h.atPlace hf hc hhs
  generalize s.hpos = p at *
  interval_cases p
  · -- `BUZZ`
    refine h.goes_on (hat.step rfl) ?_
    rw [hostAct, buzz_eq]
    exact inLoop_of_finalizing 1 hw hhs hf rfl (by decide) (.inl hc) (fun _ => hser (by decide)) hT hH
  · -- `CLEAR`
    refine h.goes_on (hat.step rfl) ?_
    exact inLoop_of_finalizing 2 hw hhs hf rfl (by decide) (hostPending_call hat rfl) (fun _ => hser (by decide)) hT hH
  · -- `SERCLOSE`
    refine h.goes_on (hat.step rfl) ?_
    rw [hostAct, serClose_eq]
    exact inLoop_of_finalizing 3 hw hhs hf rfl (by decide) (.inl hc) (by simp) hT hH
  · -- the exit
    exact h.goes_on (hat.step rfl) (inLoop_of_stopped hw rfl (.inr hc) hT hH)

end

/-! ### The commands the host has handed over -/

/-- No sequence of the host has more than eight actions. -/
theorem hostScript_place_lt {cfg : Config} {hs : HostState} {p : Nat} {act : HostAct}
    (h : (hostScript cfg hs)[p]? = some act) : p < 8 := by
  obtain ⟨hlt, -⟩ := List.getElem?_eq_some_iff.mp h
  refine hlt.trans_le ?_
  cases hs <;> simp [hostScript]

/-- The commands of the host's sequences, each with its place (R188, R189, R190). -/
theorem hostScript_call {cfg : Config} {hs : HostState} {p : Nat} {i : Instr}
    (h : (hostScript cfg hs)[p]? = some (.call i)) :
    (hs = .init ∧ p = 3 ∧ i = .sopen cfg.sensorAddr) ∨ (hs = .init ∧ p = 4 ∧ i = .init) ∨
      (hs = .running ∧ p = 0 ∧ i = .rdtemp) ∨ (hs = .running ∧ p = 2 ∧ i = .rdhum) ∨
      (hs = .finalizing ∧ p = 1 ∧ i = .clear) := by
  have hlt := hostScript_place_lt h
  cases hs <;> interval_cases p <;> simp_all [hostScript]

/-- The display stands at one place (R189). -/
theorem hostScript_display {cfg : Config} {hs : HostState} {p : Nat} (h : (hostScript cfg hs)[p]? = some .display) :
    hs = .running ∧ p = 4 := by
  have hlt := hostScript_place_lt h
  cases hs <;> interval_cases p <;> simp_all [hostScript]

/-- The packet of any text that is not too long is that of a text that fits it: the characters of its bytes. -/
theorem encode_rstr_fits (cfg : Config) {text : List Code} (h : text.length ≤ lenMax) :
    ∃ text', (Instr.rstr text').fits = true ∧ encode cfg (.rstr text) = encode cfg (.rstr text') := by
  have hread (bytes : List Byte) : (bytes.map BitVec.toNat).map (BitVec.ofNat 8) = bytes := by
    simp [List.map_map, Function.comp_def]
  refine ⟨(text.map (BitVec.ofNat 8)).map BitVec.toNat,
    fits_rstr_iff.mpr ⟨by simpa using h, List.all_eq_true.mpr fun c hc => ?_⟩, ?_⟩
  · obtain ⟨b, -, rfl⟩ := List.mem_map.mp hc
    exact codeFits_toNat b
  · rw [encode, encode, hread, List.length_map, List.length_map]

section
variable {s : State} (h : LoopInv s) (hf : s.fatal = none)
include h hf

/-- A measurement finds the session open when its packet waits, and its value is then the last event. -/
theorem LoopInv.measure_goes_on {p : Nat} {kind : Kind} (hhs : s.hs = .running) (hp : s.hpos = p)
    (hkind : p = 1 ∧ kind = .t ∨ p = 3 ∧ kind = .rh) (hc : s.cmd = encode s.cfg (measureOp kind)) :
    ∃ t, step s = .next t ∧ LoopInv t := by
  obtain ⟨hw, hlt, -, ⟨hser, hsh⟩, hT, hH, -⟩ := (inLoop_running_iff hhs hp hf).mp h.inLoop
  obtain ⟨hd, hhd⟩ := Option.ne_none_iff_exists'.mp hsh
  have hready : SensorReady { s with cmd := [] } hd := ⟨⟨hf, h.inv.idle, h.inv.released⟩, hhd⟩
  have hstep := step_of_packet hf h.noWire (measureOp_link kind) (measureOp_fits kind) hc
  refine h.goes_on (hstep.trans (exec_measure_of_ready hready h.inv.params.lit kind)) ?_
  refine inLoop_of_running p hw hhs hf hp hlt (.inl rfl) hser hsh ⟨hT, hH, ?_⟩
  obtain ⟨rfl, rfl⟩ | ⟨rfl, rfl⟩ := hkind <;> simp [returned_measured]

/-- A command of the host's sequences finds what it needs when its packet waits. -/
theorem LoopInv.call_goes_on {p : Nat} {i : Instr} (hp : s.hpos = p + 1)
    (hact : (hostScript s.cfg s.hs)[p]? = some (.call i)) (hc : s.cmd = encode s.cfg i) :
    ∃ t, step s = .next t ∧ LoopInv t := by
  have hacc : Accepting { s with cmd := [] } := ⟨hf, h.inv.idle, h.inv.released⟩
  have hne : s.cmd ≠ [] := hc ▸ encode_ne_nil s.cfg i
  obtain ⟨hhs, rfl, rfl⟩ | ⟨hhs, rfl, rfl⟩ | ⟨hhs, rfl, rfl⟩ | ⟨hhs, rfl, rfl⟩ | ⟨hhs, rfl, rfl⟩ :=
    hostScript_call hact
  · -- `SOPEN`
    obtain ⟨hw, -, -, ⟨hser, hclosed, -⟩, hT, hH⟩ := (inLoop_init_iff hhs hp hf).mp h.inLoop
    have hready : SessionClosed { s with cmd := [] } := ⟨hacc, hclosed (.inr ⟨rfl, hne⟩)⟩
    have hstep := step_of_packet hf hw rfl rfl hc
    rcases le_or_gt 0 (State.nextBusHandle { s with cmd := [] } s.cfg.sensorAddr) with hsign | hsign
    · refine h.goes_on (hstep.trans (exec_sopen_of_nonneg hready hsign)) ?_
      exact inLoop_of_init 4 hw hhs hf hp (by decide) (.inl rfl) (by simp [InitHandles, hser]) hT hH
    · rw [exec_sopen_of_closed hready, openSession_of_neg hsign] at hstep
      exact h.goes_on hstep (inLoop_of_stopped hw rfl (.inl (Option.some_ne_none _)) hT hH)
  · -- `INIT`
    obtain ⟨hw, -, -, ⟨hser, -, hsession⟩, hT, hH⟩ := (inLoop_init_iff hhs hp hf).mp h.inLoop
    have hready : DisplayReady { s with cmd := [] } := ⟨hacc, hser (by decide)⟩
    refine h.goes_on ((step_of_packet hf hw rfl rfl hc).trans (exec_init_of_ready hready)) ?_
    exact inLoop_of_init 5 hw hhs hf hp (by decide) (.inl rfl)
      ⟨hser, by simp, fun _ => hsession (.inl (by decide))⟩ hT hH
  · -- `RDTEMP`
    exact h.measure_goes_on hf (kind := .t) hhs hp (.inl ⟨rfl, rfl⟩) hc
  · -- `RDHUM`
    exact h.measure_goes_on hf (kind := .rh) hhs hp (.inr ⟨rfl, rfl⟩) hc
  · -- `CLEAR`
    obtain ⟨hw, -, -, hser, hT, hH⟩ := (inLoop_finalizing_iff hhs hp hf).mp h.inLoop
    have hready : DisplayReady { s with cmd := [] } := ⟨hacc, hser (by decide)⟩
    refine h.goes_on ((step_of_packet hf hw rfl rfl hc).trans (exec_clear_of_ready hready)) ?_
    exact inLoop_of_finalizing 2 hw hhs hf hp (by decide) (.inl rfl) hser hT hH

/-- The text of the host's display finds the serial channel open when its packet waits. -/
theorem LoopInv.display_goes_on {p : Nat} {text : List Code} (hp : s.hpos = p + 1)
    (hact : (hostScript s.cfg s.hs)[p]? = some .display) (htext : text.length ≤ lenMax)
    (hc : s.cmd = encode s.cfg (.rstr text)) : ∃ t, step s = .next t ∧ LoopInv t := by
  obtain ⟨hhs, rfl⟩ := hostScript_display hact
  obtain ⟨hw, -, -, ⟨hser, hsh⟩, hT, hH, -⟩ := (inLoop_running_iff hhs hp hf).mp h.inLoop
  obtain ⟨text', hfits, hbytes⟩ := encode_rstr_fits s.cfg htext
  have hready : DisplayReady { s with cmd := [] } := ⟨⟨hf, h.inv.idle, h.inv.released⟩, hser⟩
  refine h.goes_on ((step_of_packet hf hw rfl hfits (hc.trans hbytes)).trans (exec_rstr_of_ready hready text')) ?_
  exact inLoop_of_running 5 hw hhs hf hp (by decide) (.inl rfl) hser hsh ⟨hT, hH, by simp, by simp⟩

end

/-- Settles O50: after a fatal stop nothing happens; else a command waits, or the host acts, or it has stopped. -/
theorem hostLoopNeverRefused : Obligations.HostLoopNeverRefused := by
  intro s h
  by_cases hf : s.fatal = none
  swap
  · exact ⟨s, step_of_fatal (Option.isSome_iff_ne_none.mpr hf), h⟩
  rcases h.pending.resolve_left fun hne => hne hf with hc | ⟨act, hpos, hact, hwaits⟩
  · cases hhs : s.hs with
    | init => exact h.init_goes_on hf hc hhs
    | running => exact h.running_goes_on hf hc hhs
    | finalizing => exact h.finalizing_goes_on hf hc hhs
    | stopped =>
      have ⟨hacc, hw, _⟩ := h.atPlace hf hc hhs
      exact ⟨s, stoppedIsTerminal s hacc hw hc hhs, h⟩
  · have hp : s.hpos = s.hpos - 1 + 1 := (Nat.succ_pred_eq_of_pos hpos).symm
    obtain ⟨i, rfl, hc⟩ | ⟨rfl, text, htext, hc⟩ := hwaits
    · exact h.call_goes_on hf hp hact hc
    · exact h.display_goes_on hf hp hact htext hc

end Sys2Proof.Machine

/-! SUPPORT. Proofs about the exceptions (60_exceptions.md): what the fatal stop leaves, and the refusal of a command
while an operation is in progress. -/

namespace Sys2Proof.Machine

/-! ### The fatal stop -/

/-- What the diagnostic before a fatal stop is about (60_exceptions.md R212, R213). -/
def FatalCode.diagnostic : FatalCode → Diagnostic
  | .serial => .serialInitError
  | .bus => .busInitError

/-- The events of taking a fatal condition: its diagnostic, then those of the fatal entry (R217). -/
def stopEvents (cfg : Config) (k : FatalCode) : List Event :=
  [.diag k.diagnostic, .fatal (k.code cfg.lit), .exit (k.code cfg.lit)]

/-- What a step from `s` to `t` that sets the latch to `k` does: the transport's failing answer is recorded, the
host stops, and the handles, the registers and the chip-select stay as they were (R217). -/
structure FatalStop (k : FatalCode) (s t : State) : Prop where
  stopped : t.hs = .stopped
  ser : t.ser = s.ser
  sh : t.sh = s.sh
  x : t.x = s.x
  cs : t.cs = s.cs
  trace : ∃ answer, t.tr = s.tr ++ answer :: stopEvents s.cfg k

/-- An operation sets the latch only to the bus's code, after a failed `openBusSession` (R213). -/
theorem SessionEffect.fatal {i : Instr} {s : State} {evs : List Event} {x : Registers} {sh : Option Handle}
    {k : FatalCode} {hs : HostState} (h : SessionEffect i s evs x sh (some k) hs) :
    hs = .stopped ∧ sh = s.sh ∧ x = s.x ∧ ∃ answer, evs = answer :: stopEvents s.cfg k := by
  rcases h with ⟨-, hfatal, -⟩ | ⟨addr, hd, -, hnone, hx, ⟨-, -, hfatal, -⟩ | ⟨hsh, hfatal, hhs, hevs⟩⟩
  · nomatch hfatal
  · nomatch hfatal
  · obtain rfl : k = .bus := Option.some.inj hfatal
    exact ⟨hhs, hsh.trans hnone.symm, hx, .busOpen addr hd, hevs⟩

/-- An action of the host sets the latch only to the serial channel's code, after a failed `openSerialChannel`
(R212). -/
theorem SerialEffect.fatal {act : HostAct} {s : State} {evs : List Event} {ser : Option Handle} {k : FatalCode}
    {hs : HostState} (hf : s.fatal = none) (h : SerialEffect act s evs ser (some k) hs) :
    hs = .stopped ∧ ser = s.ser ∧ ∃ answer, evs = answer :: stopEvents s.cfg k := by
  rcases h with ⟨-, hfatal, -⟩ | ⟨-, ⟨_, -, hfatal⟩ | ⟨hser, hfatal, hhs, hevs⟩⟩
  · nomatch hfatal.trans hf
  · nomatch hfatal.trans hf
  · obtain rfl : k = .serial := Option.some.inj hfatal
    exact ⟨hhs, hser, .serOpen none, hevs⟩

section
variable {s t : State} {k : FatalCode} (hf : s.fatal = none) (hk : t.fatal = some k)
include hf hk

/-- An operation that sets the latch does what `FatalStop` says. -/
theorem exec_fatalStop {i : Instr} (h : exec i s = .next t) : FatalStop k s t := by
  rcases exec_effect h with ⟨-, rfl⟩ | ⟨-, evs, x, sh, fatal, hs, env, rfl, -, -, hsession⟩
  · nomatch hk.symm.trans hf
  · obtain rfl : fatal = some k := hk
    obtain ⟨hstopped, hsh, hx, answer, rfl⟩ := hsession.fatal
    exact ⟨hstopped, rfl, hsh, hx, rfl, answer, rfl⟩

/-- An action of the host that sets the latch does what `FatalStop` says. -/
theorem hostStep_fatalStop (h : hostStep s = .next t) : FatalStop k s t := by
  obtain ⟨-, ⟨act, -, rfl⟩ | ⟨-, rfl⟩⟩ := hostStep_next h
  · obtain ⟨evs, ser, fatal, hs, _, _, _, _, _, _, _, e, -, -, -, hserial⟩ :=
      hostAct_effect act { s with hpos := s.hpos + 1 }
    rw [e] at hk ⊢
    obtain rfl : fatal = some k := hk
    obtain ⟨hstopped, hser, answer, rfl⟩ := hserial.fatal hf
    exact ⟨hstopped, hser, rfl, rfl, rfl, answer, rfl⟩
  · nomatch hk.symm.trans hf

/-- A step that sets the latch does what `FatalStop` says: the fetch before an operation changes none of the fields
it speaks of. -/
theorem step_fatalStop (h : step s = .next t) : FatalStop k s t := by
  rcases step_next h with ⟨-, rfl⟩ | ⟨-, i, s', hfetch, hexec⟩ | ⟨-, -, -, hhost⟩
  · nomatch hk.symm.trans hf
  · obtain ⟨cmd, wire, rfl⟩ := fetch_frame hfetch
    have hstop : FatalStop k { s with cmd := cmd, wire := wire } t := exec_fatalStop hf hk hexec
    exact ⟨hstop.stopped, hstop.ser, hstop.sh, hstop.x, hstop.cs, hstop.trace⟩
  · exact hostStep_fatalStop hf hk hhost

end

/-- Settles O38: a step that sets the latch is a fatal stop, which adds the failing answer and the stop's events. -/
theorem fatalEntryStopsTheHost : Obligations.FatalEntryStopsTheHost := by
  intro s t k hf h hk
  obtain ⟨hstopped, hser, hsh, hx, hcs, answer, htr⟩ := step_fatalStop hf hk h
  refine ⟨hstopped, hser, hsh, hx, hcs, fun hlit => ?code, [answer], .diag k.diagnostic, ?trace, ?diagnostic⟩
  case code =>
    rw [hlit]
    cases k <;> rfl
  case trace =>
    rw [htr, List.append_assoc]
    rfl
  case diagnostic => cases k <;> rfl

/-! ### The refusal while an operation is in progress -/

/-- A value in the sequencer or an asserted chip-select is an operation in progress (log entry 17). -/
theorem State.quiet_eq_false {s : State} (h : s.seq ≠ Sequencer.idle ∨ s.cs = .asserted) : s.quiet = false := by
  rw [Bool.eq_false_iff, ne_eq, s.quiet_iff]
  rintro ⟨hidle, hreleased⟩
  rcases h with hseq | hcs
  · exact hseq hidle
  · nomatch hcs.symm.trans hreleased

/-- Settles O33: every operation begins with the common tests, of which that for an operation in progress is second. -/
theorem busyCommandIsRefused : Obligations.BusyCommandIsRefused := by
  intro s i hf hbusy
  obtain ⟨k, hk⟩ := exec_whenAccepted i
  rw [hk, whenAccepted_of_busy hf (State.quiet_eq_false hbusy)]

end Sys2Proof.Machine

/-! SUPPORT. What reset leaves (70_reset_and_hazards.md R240, R241). -/

namespace Sys2Proof.Machine

/-- Settles O1: each value is a field of `State.resetWith`, which hands the parameters and the registers through, and
`State.reset` has the default parameters and zeroed registers. -/
theorem resetLeavesSpecValues : Obligations.ResetLeavesSpecValues := by
  refine ⟨fun cfg x => ?values, Config.reference, Vector.replicate (2 ^ AW) 0#DW, ?default⟩
  case values => exact ⟨rfl, rfl, rfl, rfl, rfl, rfl, rfl, rfl, rfl⟩
  case default => rfl

end Sys2Proof.Machine
